-- ==== Sys2Proof/Word.lean ====
section
/-! DEFINITION. The widths of PXFM-CORE: the words that cross the host boundary, the binary64 pattern,
and the operand fields of a command word (spec/00_scope.md R7, spec/30_encoding.md R65). -/

namespace Sys2Proof

/-- Eight bits: an opcode, an immediate, or one byte of a serialized word (R54, R65). -/
abbrev Byte := BitVec 8

/-- A command word `CMD` (R7, R65). -/
abbrev Cmd := BitVec 32

/-- A 64-bit data word: `WDATA`, `RDATA`, a K register, a ROM word, SR or CFG (R7, R24, R50). -/
abbrev Word := BitVec 64

/-- A 64-bit pattern read as IEEE 754 binary64 (R21, R90). -/
abbrev F64 := BitVec 64

/-- A register number, 0 to 15 (R50, R65). -/
abbrev Reg := BitVec 4

/-- A register file: 16 registers of one kind (R21 to R24). -/
abbrev RegFile (α : Type) := Vector α 16

end Sys2Proof
end

