-- ==== Sys2Proof/Config.lean ====
section
/-! DEFINITION. What is fixed for one instance of PXFM-CORE and is not state (spec/10_state.md R37): the
parameters of spec/00_scope.md R5. A parameter the spec marks OPEN is an opaque constant: nothing in Lean
can compute it, so whatever is proved holds for every value of it. -/

namespace Sys2Proof.Config

/-- `HAS_FMA` = 1: a fused multiply-add with one rounding exists (R5, R106). -/
def hasFma : Bool := true

/-- `NR_ITERS` = 3 iterations of the dyadic reciprocal (R5, R163); the legal range is 3, 4, 5. -/
def nrIters : Nat := 3

/-- `SMALL_EXP` = 16 (R5): published in CFG; no command checks it (R193). -/
def smallExp : Nat := 16

/-- `N` = 128, the range-reduction granularity (R5, R191). -/
def granularity : Nat := 128

/-- `TABLE_LEN` = 256 = 2N (R5, R197). -/
def tableLen : Nat := 256

/-- `CROM_EXT` (R5, R52): the contents of constant-ROM words 4 to 255, by word index. OPEN parameter: no
value is known here. Words 0 to 3 are fixed by R52 and never taken from this function. -/
opaque cromExt : BitVec 8 → Word

/-- A finite binary64 word by its fields, so that a value of this type cannot be a NaN or an infinity:
sign, biased exponent 0 to 2046, fraction (R90). -/
structure FiniteWord where
  sign : Bool
  biased : Fin 2047
  frac : BitVec 52
deriving DecidableEq, Repr, Inhabited

/-- A normalized dyadic value by its fields (R23: `mant = 0` or `mant[127] = 1`), so that a value of this
type cannot be unnormalized: `nonzero` is mantissa bit 127, `frac` the 127 bits below it. -/
structure NormalDyadic where
  sign : Bool
  exp : BitVec 16
  nonzero : Bool
  frac : BitVec 127
deriving DecidableEq, Repr, Inhabited

/-- What `rr_large` returns: the integer k modulo 2^64 and a finite double-double residual (R195). -/
structure LargeResult where
  k : Word
  hi : FiniteWord
  lo : FiniteWord
deriving DecidableEq, Repr, Inhabited

/-- What `rr_large_q` returns: the integer k modulo 2^64 and a normalized dyadic residual (R196). -/
structure LargeQResult where
  k : Word
  q : NormalDyadic
deriving DecidableEq, Repr, Inhabited

/-- `rr_large` (R5, R195): the external large-argument reducer. OPEN parameter: total, deterministic,
without state; consulted on finite words only. DEDUCED (log 6): its residual words are finite, since the
contract speaks of their values. -/
opaque rrLarge : F64 → LargeResult

/-- `rr_large_q` (R5, R196): the external reducer with a dyadic residual. OPEN parameter: total,
deterministic, without state; consulted on finite words only; its residual is normalized (R196). -/
opaque rrLargeQ : F64 → LargeQResult

end Sys2Proof.Config
end

