-- ==== Sys2Proof/Syntax.lean ====
section
/-! DEFINITION. The 52 commands of PXFM-CORE, one constructor per row of spec/opcode_table.json
(spec/30_encoding.md R70), with the operands each names. -/

namespace Sys2Proof

/-- A decoded command (R65, R70). `rd`, `ra`, `rb`, `rc` are register numbers; the file each one names
is the letter in the constructor's docstring (R67); `imm8` is the unsigned immediate (R68). The data
word `WDATA` of a move-to command is part of the transaction, not of the command word (R77). -/
inductive Instr where
  /-- `NOP`, opcode 0x00 (R231). -/
  | nop
  /-- `MTF Fd`, opcode 0x01 (R232). -/
  | mtf (rd : Reg)
  /-- `MFF Fa`, opcode 0x02 (R233). -/
  | mff (ra : Reg)
  /-- `MTDH Dd`, opcode 0x03 (R234). -/
  | mtdh (rd : Reg)
  /-- `MTDL Dd`, opcode 0x04 (R235). -/
  | mtdl (rd : Reg)
  /-- `MFDH Da`, opcode 0x05 (R236). -/
  | mfdh (ra : Reg)
  /-- `MFDL Da`, opcode 0x06 (R237). -/
  | mfdl (ra : Reg)
  /-- `MTQH Qd`, opcode 0x07 (R238). -/
  | mtqh (rd : Reg)
  /-- `MTQL Qd`, opcode 0x08 (R239). -/
  | mtql (rd : Reg)
  /-- `MTQE Qd`, opcode 0x09 (R240). -/
  | mtqe (rd : Reg)
  /-- `MFQH Qa`, opcode 0x0A (R241). -/
  | mfqh (ra : Reg)
  /-- `MFQL Qa`, opcode 0x0B (R242). -/
  | mfql (ra : Reg)
  /-- `MFQE Qa`, opcode 0x0C (R243). -/
  | mfqe (ra : Reg)
  /-- `MTK Kd`, opcode 0x0D (R244). -/
  | mtk (rd : Reg)
  /-- `MFK Ka`, opcode 0x0E (R252). -/
  | mfk (ra : Reg)
  /-- `MFSR`, opcode 0x0F (R245). -/
  | mfsr
  /-- `MFCFG`, opcode 0x10 (R246). -/
  | mfcfg
  /-- `LDC Fd, imm8`, opcode 0x11 (R247). -/
  | ldc (rd : Reg) (imm8 : BitVec 8)
  /-- `LDCD Dd, imm8`, opcode 0x12 (R248). -/
  | ldcd (rd : Reg) (imm8 : BitVec 8)
  /-- `DD.PACK Dd, Fa, Fb`, opcode 0x13 (R249). -/
  | ddPack (rd ra rb : Reg)
  /-- `DD.HI Fd, Da`, opcode 0x14 (R250). -/
  | ddHi (rd ra : Reg)
  /-- `DD.LO Fd, Da`, opcode 0x15 (R251). -/
  | ddLo (rd ra : Reg)
  /-- `DD.XADD Dd, Fa, Fb`, opcode 0x20 (R121). -/
  | ddXadd (rd ra rb : Reg)
  /-- `DD.XSUB Dd, Fa, Fb`, opcode 0x21 (R122). -/
  | ddXsub (rd ra rb : Reg)
  /-- `DD.FXADD Dd, Fa, Fb`, opcode 0x22 (R123). -/
  | ddFxadd (rd ra rb : Reg)
  /-- `DD.XMUL Dd, Fa, Fb`, opcode 0x23 (R124). -/
  | ddXmul (rd ra rb : Reg)
  /-- `DD.ADD Dd, Da, Db`, opcode 0x30 (R126). -/
  | ddAdd (rd ra rb : Reg)
  /-- `DD.SUB Dd, Da, Db`, opcode 0x31 (R127). -/
  | ddSub (rd ra rb : Reg)
  /-- `DD.MUL Dd, Da, Db`, opcode 0x32 (R128). -/
  | ddMul (rd ra rb : Reg)
  /-- `DD.QMUL Dd, Da, Db`, opcode 0x33 (R129). -/
  | ddQmul (rd ra rb : Reg)
  /-- `DD.MULF Dd, Da, Fb`, opcode 0x34 (R130). -/
  | ddMulf (rd ra rb : Reg)
  /-- `DD.DIV Dd, Da, Db`, opcode 0x35 (R131). -/
  | ddDiv (rd ra rb : Reg)
  /-- `DD.SQRT Dd, Da`, opcode 0x36 (R132). -/
  | ddSqrt (rd ra : Reg)
  /-- `DD.RECIP Dd, Da`, opcode 0x37 (R133). -/
  | ddRecip (rd ra : Reg)
  /-- `DY.FROMF Qd, Fa`, opcode 0x40 (R155). -/
  | dyFromf (rd ra : Reg)
  /-- `DY.TOF Fd, Qa`, opcode 0x41 (R157). -/
  | dyTof (rd ra : Reg)
  /-- `DY.NORM Qd, Qa`, opcode 0x42 (R158). -/
  | dyNorm (rd ra : Reg)
  /-- `DY.ADD Qd, Qa, Qb`, opcode 0x43 (R160). -/
  | dyAdd (rd ra rb : Reg)
  /-- `DY.MUL Qd, Qa, Qb`, opcode 0x44 (R161). -/
  | dyMul (rd ra rb : Reg)
  /-- `DY.NEG Qd, Qa`, opcode 0x45 (R162). -/
  | dyNeg (rd ra : Reg)
  /-- `DY.RECIP Qd, Qa`, opcode 0x46 (R164). -/
  | dyRecip (rd ra : Reg)
  /-- `DY.RECIPF Qd, Fa`, opcode 0x47 (R165). -/
  | dyRecipf (rd ra : Reg)
  /-- `DY.DIV Qd, Qa, Qb`, opcode 0x48 (R166). -/
  | dyDiv (rd ra rb : Reg)
  /-- `DY.RND Qd, Qa`, opcode 0x49 (R167). -/
  | dyRnd (rd ra : Reg)
  /-- `RR.SMALL Dd, Kc, Fa`, opcode 0x50 (R193). -/
  | rrSmall (rd ra rc : Reg)
  /-- `RR.LARGE Dd, Kc, Fa`, opcode 0x51 (R195). -/
  | rrLarge (rd ra rc : Reg)
  /-- `RR.LARGEQ Qd, Kc, Fa`, opcode 0x52 (R196). -/
  | rrLargeq (rd ra rc : Reg)
  /-- `RR.IDX Kd, Ka, imm8`, opcode 0x53 (R197). -/
  | rrIdx (rd ra : Reg) (imm8 : BitVec 8)
  /-- `ZIV.BEGIN`, opcode 0x60 (R212). -/
  | zivBegin
  /-- `ZIV.BOUND Fd, Da, Fb, Fc`, opcode 0x61 (R213). -/
  | zivBound (rd ra rb rc : Reg)
  /-- `ZIV.TEST Fd, Da, Fb`, opcode 0x62 (R214). -/
  | zivTest (rd ra rb : Reg)
  /-- `ZIV.FALLBACK Fd, Qa`, opcode 0x63 (R215). -/
  | zivFallback (rd ra : Reg)
deriving DecidableEq, Repr

end Sys2Proof
end

