-- ==== Sys2Proof/WellFormed.lean ====
section
/-! DEFINITION. Which terms of Instr are commands (spec/30_encoding.md R72 to R75). Every operand field is
a bit vector of the width its field has in the command word, so the one thing left to check is LDCD's pair
index: 0 to 127 (R75). -/

namespace Sys2Proof

/-- A term is well formed when some command word stands for it (R72, R75). -/
def Instr.wellFormed : Instr → Bool
  | .nop => true
  | .mtf _ => true
  | .mff _ => true
  | .mtdh _ => true
  | .mtdl _ => true
  | .mfdh _ => true
  | .mfdl _ => true
  | .mtqh _ => true
  | .mtql _ => true
  | .mtqe _ => true
  | .mfqh _ => true
  | .mfql _ => true
  | .mfqe _ => true
  | .mtk _ => true
  | .mfk _ => true
  | .mfsr => true
  | .mfcfg => true
  | .ldc _ _ => true
  | .ldcd _ imm8 => decide (imm8.toNat < 128)
  | .ddPack _ _ _ => true
  | .ddHi _ _ => true
  | .ddLo _ _ => true
  | .ddXadd _ _ _ => true
  | .ddXsub _ _ _ => true
  | .ddFxadd _ _ _ => true
  | .ddXmul _ _ _ => true
  | .ddAdd _ _ _ => true
  | .ddSub _ _ _ => true
  | .ddMul _ _ _ => true
  | .ddQmul _ _ _ => true
  | .ddMulf _ _ _ => true
  | .ddDiv _ _ _ => true
  | .ddSqrt _ _ => true
  | .ddRecip _ _ => true
  | .dyFromf _ _ => true
  | .dyTof _ _ => true
  | .dyNorm _ _ => true
  | .dyAdd _ _ _ => true
  | .dyMul _ _ _ => true
  | .dyNeg _ _ => true
  | .dyRecip _ _ => true
  | .dyRecipf _ _ => true
  | .dyDiv _ _ _ => true
  | .dyRnd _ _ => true
  | .rrSmall _ _ _ => true
  | .rrLarge _ _ _ => true
  | .rrLargeq _ _ _ => true
  | .rrIdx _ _ _ => true
  | .zivBegin => true
  | .zivBound _ _ _ _ => true
  | .zivTest _ _ _ => true
  | .zivFallback _ _ => true

end Sys2Proof
end

