-- ==== Sys2Proof/Decode.lean ====
section
/-! DEFINITION. The decoder, total on 32-bit words and on byte lists, and the encoder, both written from
the encoding tables of spec/30_encoding.md (R65, R66, R70, R72 to R76). -/

namespace Sys2Proof

/-! ### Fields and formats -/

/-- `op`, bits 31:24 (R65). -/
def opOf (w : Cmd) : BitVec 8 := w.extractLsb' 24 8
/-- `rd`, bits 23:20 (R65). -/
def rdOf (w : Cmd) : Reg := w.extractLsb' 20 4
/-- `ra`, bits 19:16 (R65). -/
def raOf (w : Cmd) : Reg := w.extractLsb' 16 4
/-- `rb`, bits 15:12 (R65). -/
def rbOf (w : Cmd) : Reg := w.extractLsb' 12 4
/-- `rc`, bits 11:8 (R65). -/
def rcOf (w : Cmd) : Reg := w.extractLsb' 8 4
/-- `imm8`, bits 7:0 (R65). -/
def immOf (w : Cmd) : BitVec 8 := w.extractLsb' 0 8

/-- The nine formats (R66), and LDCD's own variant of DI (R75). -/
inductive Format where
  | z | d | a | di | diPair | r2 | r3 | r4 | rk | ri
deriving DecidableEq, Repr

/-- The bits a decoder compares: the opcode and every unused field (R66, R75). -/
def Format.mask : Format → Cmd
  | .z => 0xFFFFFFFF#32
  | .d => 0xFF0FFFFF#32
  | .a => 0xFFF0FFFF#32
  | .di => 0xFF0FFF00#32
  | .diPair => 0xFF0FFF80#32
  | .r2 => 0xFF00FFFF#32
  | .r3 => 0xFF000FFF#32
  | .r4 => 0xFF0000FF#32
  | .rk => 0xFF00F0FF#32
  | .ri => 0xFF00FF00#32

/-- The format of each command (R70). -/
def Instr.format : Instr → Format
  | .nop => .z
  | .mtf _ => .d
  | .mff _ => .a
  | .mtdh _ => .d
  | .mtdl _ => .d
  | .mfdh _ => .a
  | .mfdl _ => .a
  | .mtqh _ => .d
  | .mtql _ => .d
  | .mtqe _ => .d
  | .mfqh _ => .a
  | .mfql _ => .a
  | .mfqe _ => .a
  | .mtk _ => .d
  | .mfk _ => .a
  | .mfsr => .z
  | .mfcfg => .z
  | .ldc _ _ => .di
  | .ldcd _ _ => .diPair
  | .ddPack _ _ _ => .r3
  | .ddHi _ _ => .r2
  | .ddLo _ _ => .r2
  | .ddXadd _ _ _ => .r3
  | .ddXsub _ _ _ => .r3
  | .ddFxadd _ _ _ => .r3
  | .ddXmul _ _ _ => .r3
  | .ddAdd _ _ _ => .r3
  | .ddSub _ _ _ => .r3
  | .ddMul _ _ _ => .r3
  | .ddQmul _ _ _ => .r3
  | .ddMulf _ _ _ => .r3
  | .ddDiv _ _ _ => .r3
  | .ddSqrt _ _ => .r2
  | .ddRecip _ _ => .r2
  | .dyFromf _ _ => .r2
  | .dyTof _ _ => .r2
  | .dyNorm _ _ => .r2
  | .dyAdd _ _ _ => .r3
  | .dyMul _ _ _ => .r3
  | .dyNeg _ _ => .r2
  | .dyRecip _ _ => .r2
  | .dyRecipf _ _ => .r2
  | .dyDiv _ _ _ => .r3
  | .dyRnd _ _ => .r2
  | .rrSmall _ _ _ => .rk
  | .rrLarge _ _ _ => .rk
  | .rrLargeq _ _ _ => .rk
  | .rrIdx _ _ _ => .ri
  | .zivBegin => .z
  | .zivBound _ _ _ _ => .r4
  | .zivTest _ _ _ => .r3
  | .zivFallback _ _ => .r2

/-- The opcode of each command (R70). -/
def Instr.opcode : Instr → BitVec 8
  | .nop => 0x00#8
  | .mtf _ => 0x01#8
  | .mff _ => 0x02#8
  | .mtdh _ => 0x03#8
  | .mtdl _ => 0x04#8
  | .mfdh _ => 0x05#8
  | .mfdl _ => 0x06#8
  | .mtqh _ => 0x07#8
  | .mtql _ => 0x08#8
  | .mtqe _ => 0x09#8
  | .mfqh _ => 0x0A#8
  | .mfql _ => 0x0B#8
  | .mfqe _ => 0x0C#8
  | .mtk _ => 0x0D#8
  | .mfk _ => 0x0E#8
  | .mfsr => 0x0F#8
  | .mfcfg => 0x10#8
  | .ldc _ _ => 0x11#8
  | .ldcd _ _ => 0x12#8
  | .ddPack _ _ _ => 0x13#8
  | .ddHi _ _ => 0x14#8
  | .ddLo _ _ => 0x15#8
  | .ddXadd _ _ _ => 0x20#8
  | .ddXsub _ _ _ => 0x21#8
  | .ddFxadd _ _ _ => 0x22#8
  | .ddXmul _ _ _ => 0x23#8
  | .ddAdd _ _ _ => 0x30#8
  | .ddSub _ _ _ => 0x31#8
  | .ddMul _ _ _ => 0x32#8
  | .ddQmul _ _ _ => 0x33#8
  | .ddMulf _ _ _ => 0x34#8
  | .ddDiv _ _ _ => 0x35#8
  | .ddSqrt _ _ => 0x36#8
  | .ddRecip _ _ => 0x37#8
  | .dyFromf _ _ => 0x40#8
  | .dyTof _ _ => 0x41#8
  | .dyNorm _ _ => 0x42#8
  | .dyAdd _ _ _ => 0x43#8
  | .dyMul _ _ _ => 0x44#8
  | .dyNeg _ _ => 0x45#8
  | .dyRecip _ _ => 0x46#8
  | .dyRecipf _ _ => 0x47#8
  | .dyDiv _ _ _ => 0x48#8
  | .dyRnd _ _ => 0x49#8
  | .rrSmall _ _ _ => 0x50#8
  | .rrLarge _ _ _ => 0x51#8
  | .rrLargeq _ _ _ => 0x52#8
  | .rrIdx _ _ _ => 0x53#8
  | .zivBegin => 0x60#8
  | .zivBound _ _ _ _ => 0x61#8
  | .zivTest _ _ _ => 0x62#8
  | .zivFallback _ _ => 0x63#8

/-- `match` of each command: its word with every operand field zero (R70). -/
def Instr.matchWord (i : Instr) : Cmd := i.opcode ++ 0#24

/-! ### Decoding -/

/-- Why a word is not a command, by name (R72). Every reason raises `Illegal` (R263). Safe: the unit
refuses the word and changes nothing but SR.ILL. -/
inductive IllegalReason where
  /-- The opcode is none of the 52 of R70 (R74). -/
  | reservedOpcode (op : BitVec 8)
  /-- A field the format does not use, or LDCD's `imm8[7]`, is not zero (R73, R75). -/
  | unusedFieldNotZero (op : BitVec 8)
  /-- The byte list is not one 32-bit word: there is no other length (R76). -/
  | notOneWord (length : Nat)
deriving DecidableEq, Repr

/-- The verdict on a word whose opcode is that of a row: the command, or illegal when `w & mask` differs
from the row's `match` (R72). -/
def legal (w : Cmd) (fmt : Format) (mtch : Cmd) (i : Instr) : Except IllegalReason Instr :=
  if w &&& fmt.mask = mtch then .ok i else .error (.unusedFieldNotZero (opOf w))

/-- The decoder: total on 32-bit words (R72), looking at all 32 bits (R73). -/
def decode (w : Cmd) : Except IllegalReason Instr :=
  match (opOf w).toNat with
  | 0x00 => legal w .z 0x00000000#32 .nop
  | 0x01 => legal w .d 0x01000000#32 (.mtf (rdOf w))
  | 0x02 => legal w .a 0x02000000#32 (.mff (raOf w))
  | 0x03 => legal w .d 0x03000000#32 (.mtdh (rdOf w))
  | 0x04 => legal w .d 0x04000000#32 (.mtdl (rdOf w))
  | 0x05 => legal w .a 0x05000000#32 (.mfdh (raOf w))
  | 0x06 => legal w .a 0x06000000#32 (.mfdl (raOf w))
  | 0x07 => legal w .d 0x07000000#32 (.mtqh (rdOf w))
  | 0x08 => legal w .d 0x08000000#32 (.mtql (rdOf w))
  | 0x09 => legal w .d 0x09000000#32 (.mtqe (rdOf w))
  | 0x0A => legal w .a 0x0A000000#32 (.mfqh (raOf w))
  | 0x0B => legal w .a 0x0B000000#32 (.mfql (raOf w))
  | 0x0C => legal w .a 0x0C000000#32 (.mfqe (raOf w))
  | 0x0D => legal w .d 0x0D000000#32 (.mtk (rdOf w))
  | 0x0E => legal w .a 0x0E000000#32 (.mfk (raOf w))
  | 0x0F => legal w .z 0x0F000000#32 .mfsr
  | 0x10 => legal w .z 0x10000000#32 .mfcfg
  | 0x11 => legal w .di 0x11000000#32 (.ldc (rdOf w) (immOf w))
  | 0x12 => legal w .diPair 0x12000000#32 (.ldcd (rdOf w) (immOf w))
  | 0x13 => legal w .r3 0x13000000#32 (.ddPack (rdOf w) (raOf w) (rbOf w))
  | 0x14 => legal w .r2 0x14000000#32 (.ddHi (rdOf w) (raOf w))
  | 0x15 => legal w .r2 0x15000000#32 (.ddLo (rdOf w) (raOf w))
  | 0x20 => legal w .r3 0x20000000#32 (.ddXadd (rdOf w) (raOf w) (rbOf w))
  | 0x21 => legal w .r3 0x21000000#32 (.ddXsub (rdOf w) (raOf w) (rbOf w))
  | 0x22 => legal w .r3 0x22000000#32 (.ddFxadd (rdOf w) (raOf w) (rbOf w))
  | 0x23 => legal w .r3 0x23000000#32 (.ddXmul (rdOf w) (raOf w) (rbOf w))
  | 0x30 => legal w .r3 0x30000000#32 (.ddAdd (rdOf w) (raOf w) (rbOf w))
  | 0x31 => legal w .r3 0x31000000#32 (.ddSub (rdOf w) (raOf w) (rbOf w))
  | 0x32 => legal w .r3 0x32000000#32 (.ddMul (rdOf w) (raOf w) (rbOf w))
  | 0x33 => legal w .r3 0x33000000#32 (.ddQmul (rdOf w) (raOf w) (rbOf w))
  | 0x34 => legal w .r3 0x34000000#32 (.ddMulf (rdOf w) (raOf w) (rbOf w))
  | 0x35 => legal w .r3 0x35000000#32 (.ddDiv (rdOf w) (raOf w) (rbOf w))
  | 0x36 => legal w .r2 0x36000000#32 (.ddSqrt (rdOf w) (raOf w))
  | 0x37 => legal w .r2 0x37000000#32 (.ddRecip (rdOf w) (raOf w))
  | 0x40 => legal w .r2 0x40000000#32 (.dyFromf (rdOf w) (raOf w))
  | 0x41 => legal w .r2 0x41000000#32 (.dyTof (rdOf w) (raOf w))
  | 0x42 => legal w .r2 0x42000000#32 (.dyNorm (rdOf w) (raOf w))
  | 0x43 => legal w .r3 0x43000000#32 (.dyAdd (rdOf w) (raOf w) (rbOf w))
  | 0x44 => legal w .r3 0x44000000#32 (.dyMul (rdOf w) (raOf w) (rbOf w))
  | 0x45 => legal w .r2 0x45000000#32 (.dyNeg (rdOf w) (raOf w))
  | 0x46 => legal w .r2 0x46000000#32 (.dyRecip (rdOf w) (raOf w))
  | 0x47 => legal w .r2 0x47000000#32 (.dyRecipf (rdOf w) (raOf w))
  | 0x48 => legal w .r3 0x48000000#32 (.dyDiv (rdOf w) (raOf w) (rbOf w))
  | 0x49 => legal w .r2 0x49000000#32 (.dyRnd (rdOf w) (raOf w))
  | 0x50 => legal w .rk 0x50000000#32 (.rrSmall (rdOf w) (raOf w) (rcOf w))
  | 0x51 => legal w .rk 0x51000000#32 (.rrLarge (rdOf w) (raOf w) (rcOf w))
  | 0x52 => legal w .rk 0x52000000#32 (.rrLargeq (rdOf w) (raOf w) (rcOf w))
  | 0x53 => legal w .ri 0x53000000#32 (.rrIdx (rdOf w) (raOf w) (immOf w))
  | 0x60 => legal w .z 0x60000000#32 .zivBegin
  | 0x61 => legal w .r4 0x61000000#32 (.zivBound (rdOf w) (raOf w) (rbOf w) (rcOf w))
  | 0x62 => legal w .r3 0x62000000#32 (.zivTest (rdOf w) (raOf w) (rbOf w))
  | 0x63 => legal w .r2 0x63000000#32 (.zivFallback (rdOf w) (raOf w))
  | _ => .error (.reservedOpcode (opOf w))

/-- The bytes of a command word on a byte-addressed bus, little-endian: bits 7:0 first (R54). -/
def cmdBytes (w : Cmd) : List Byte :=
  [w.extractLsb' 0 8, w.extractLsb' 8 8, w.extractLsb' 16 8, w.extractLsb' 24 8]

/-- The bytes of a data word on a byte-addressed bus, little-endian (R54). -/
def dataBytes (w : Word) : List Byte :=
  [w.extractLsb' 0 8, w.extractLsb' 8 8, w.extractLsb' 16 8, w.extractLsb' 24 8,
   w.extractLsb' 32 8, w.extractLsb' 40 8, w.extractLsb' 48 8, w.extractLsb' 56 8]

/-- The decoder on serialized bytes: exactly four, little-endian (R54, R65, R76). -/
def decodeBytes : List Byte → Except IllegalReason Instr
  | [b0, b1, b2, b3] => decode (b3 ++ b2 ++ b1 ++ b0)
  | bs => .error (.notOneWord bs.length)

/-- What the decoder reads from a table row's word: `w` in `nbits` bits, the bits above them zero, laid
out in bytes as R54 says. -/
def decodeTableWord (nbits w : Nat) : Option Instr :=
  match decodeBytes (cmdBytes (BitVec.ofNat 32 (w % 2 ^ nbits))) with
  | .ok i => some i
  | .error _ => none

/-! ### Encoding -/

/-- A command word from its six fields (R65). -/
def commandWord (op : BitVec 8) (rd ra rb rc : Reg) (imm8 : BitVec 8) : Cmd :=
  op ++ rd ++ ra ++ rb ++ rc ++ imm8

/-- The encoder: the word of a command, every unused field zero (R65, R70, R73). -/
def encode : Instr → Cmd
  | .nop => commandWord 0x00 0 0 0 0 0
  | .mtf rd => commandWord 0x01 rd 0 0 0 0
  | .mff ra => commandWord 0x02 0 ra 0 0 0
  | .mtdh rd => commandWord 0x03 rd 0 0 0 0
  | .mtdl rd => commandWord 0x04 rd 0 0 0 0
  | .mfdh ra => commandWord 0x05 0 ra 0 0 0
  | .mfdl ra => commandWord 0x06 0 ra 0 0 0
  | .mtqh rd => commandWord 0x07 rd 0 0 0 0
  | .mtql rd => commandWord 0x08 rd 0 0 0 0
  | .mtqe rd => commandWord 0x09 rd 0 0 0 0
  | .mfqh ra => commandWord 0x0A 0 ra 0 0 0
  | .mfql ra => commandWord 0x0B 0 ra 0 0 0
  | .mfqe ra => commandWord 0x0C 0 ra 0 0 0
  | .mtk rd => commandWord 0x0D rd 0 0 0 0
  | .mfk ra => commandWord 0x0E 0 ra 0 0 0
  | .mfsr => commandWord 0x0F 0 0 0 0 0
  | .mfcfg => commandWord 0x10 0 0 0 0 0
  | .ldc rd imm8 => commandWord 0x11 rd 0 0 0 imm8
  | .ldcd rd imm8 => commandWord 0x12 rd 0 0 0 imm8
  | .ddPack rd ra rb => commandWord 0x13 rd ra rb 0 0
  | .ddHi rd ra => commandWord 0x14 rd ra 0 0 0
  | .ddLo rd ra => commandWord 0x15 rd ra 0 0 0
  | .ddXadd rd ra rb => commandWord 0x20 rd ra rb 0 0
  | .ddXsub rd ra rb => commandWord 0x21 rd ra rb 0 0
  | .ddFxadd rd ra rb => commandWord 0x22 rd ra rb 0 0
  | .ddXmul rd ra rb => commandWord 0x23 rd ra rb 0 0
  | .ddAdd rd ra rb => commandWord 0x30 rd ra rb 0 0
  | .ddSub rd ra rb => commandWord 0x31 rd ra rb 0 0
  | .ddMul rd ra rb => commandWord 0x32 rd ra rb 0 0
  | .ddQmul rd ra rb => commandWord 0x33 rd ra rb 0 0
  | .ddMulf rd ra rb => commandWord 0x34 rd ra rb 0 0
  | .ddDiv rd ra rb => commandWord 0x35 rd ra rb 0 0
  | .ddSqrt rd ra => commandWord 0x36 rd ra 0 0 0
  | .ddRecip rd ra => commandWord 0x37 rd ra 0 0 0
  | .dyFromf rd ra => commandWord 0x40 rd ra 0 0 0
  | .dyTof rd ra => commandWord 0x41 rd ra 0 0 0
  | .dyNorm rd ra => commandWord 0x42 rd ra 0 0 0
  | .dyAdd rd ra rb => commandWord 0x43 rd ra rb 0 0
  | .dyMul rd ra rb => commandWord 0x44 rd ra rb 0 0
  | .dyNeg rd ra => commandWord 0x45 rd ra 0 0 0
  | .dyRecip rd ra => commandWord 0x46 rd ra 0 0 0
  | .dyRecipf rd ra => commandWord 0x47 rd ra 0 0 0
  | .dyDiv rd ra rb => commandWord 0x48 rd ra rb 0 0
  | .dyRnd rd ra => commandWord 0x49 rd ra 0 0 0
  | .rrSmall rd ra rc => commandWord 0x50 rd ra 0 rc 0
  | .rrLarge rd ra rc => commandWord 0x51 rd ra 0 rc 0
  | .rrLargeq rd ra rc => commandWord 0x52 rd ra 0 rc 0
  | .rrIdx rd ra imm8 => commandWord 0x53 rd ra 0 0 imm8
  | .zivBegin => commandWord 0x60 0 0 0 0 0
  | .zivBound rd ra rb rc => commandWord 0x61 rd ra rb rc 0
  | .zivTest rd ra rb => commandWord 0x62 rd ra rb 0 0
  | .zivFallback rd ra => commandWord 0x63 rd ra 0 0 0

end Sys2Proof
end

