-- ==== Sys2Proof/Machine/State.lean ====
section
/-! DEFINITION. The state of PXFM-CORE as plain data: everything spec/10_state.md R20 names, and the three
fields that stand for the host boundary of spec/00_scope.md R7. -/

namespace Sys2Proof.Machine

/-- A double-double register: the two words of a D register (R22). Nothing relates them (R38). -/
structure DReg where
  hi : F64
  lo : F64
deriving DecidableEq, Repr

/-- A dyadic register (R23): `sign` (true is 1, negative), `exp` in two's complement, `mant` unsigned.
Nothing keeps it normalized (R38). -/
structure QReg where
  sign : Bool
  exp : BitVec 16
  mant : BitVec 128
deriving DecidableEq, Repr

/-- PHASE of the accuracy-test protocol, by name; the values 6 and 7 of the field never occur (R31). -/
inductive Phase where
  /-- 0: no call in progress, the reset value. -/
  | idle
  /-- 1: ZIV.BEGIN was issued. -/
  | fast
  /-- 2: ZIV.BOUND was issued. -/
  | bound
  /-- 3: inside ZIV.TEST; never the value between commands (R31, R211). -/
  | test
  /-- 4: ZIV.TEST rejected. -/
  | escalate
  /-- 5: the call returned. -/
  | done
deriving DecidableEq, Repr

/-- The status register SR by its fields (R30). The bits R30 names "(none)" hold nothing and read as 0:
see `Status.toWord` for the 64-bit word (log 11). -/
structure Status where
  /-- Bits 2:0. -/
  phase : Phase
  /-- Bit 3, ACC: the last ZIV.TEST accepted. -/
  acc : Bool
  /-- Bit 4, ESC: the last ZIV.TEST rejected. -/
  esc : Bool
  /-- Bit 8, OF: a dyadic-to-binary64 conversion returned an infinity. -/
  ovf : Bool
  /-- Bit 9, ILL: an Illegal fault was raised. -/
  ill : Bool
  /-- Bit 10, SEQ: a Sequence fault was raised. -/
  seq : Bool
  /-- Bit 11, UNINIT: an Uninit fault was raised. -/
  uninit : Bool
  /-- Bit 12, DOM: a Domain fault was raised. -/
  dom : Bool
  /-- Bit 13, EXPR: an ExpRange fault was raised. -/
  expr : Bool
deriving DecidableEq, Repr

/-- The five faults a command can raise (R260). They are outcomes of a command after which the unit takes
the next one (R262): a next state of the machine, never a `Fault` of the model. -/
inductive CmdFault where
  /-- STATUS 1: the word is not a legal encoding (R263). -/
  | illegal
  /-- STATUS 2: a ZIV command in a phase that does not allow it (R264). -/
  | sequence
  /-- STATUS 3: a source component was never written (R265). -/
  | uninit
  /-- STATUS 4: an operand has no representation or no result in the unit addressed (R266). -/
  | domain
  /-- STATUS 5: a dyadic result's exponent is outside -32768 to 32767 (R267). -/
  | expRange
deriving DecidableEq, Repr

/-- What the host sends: a command word and its data word (R7). -/
structure Transaction where
  cmd : Cmd
  wdata : Word
deriving DecidableEq, Repr

/-- What the unit returns: a status code and a data word (R7). -/
structure Response where
  status : BitVec 4
  rdata : Word
deriving DecidableEq, Repr

/-- Reasons for the machine to stop. There are none: "No behaviour of PXFM-CORE is unpredictable or
undefined" (R286), there is no halt and the unit is always ready for another command (R290), and the
faults of R260 are next states. So the type has no constructor, and no meaning can answer with it. Safe. -/
inductive Fault where
deriving DecidableEq, Repr

/-- Reasons for the model to give an instruction no meaning. -/
inductive Refusal where
  /-- Raised by an arm of `exec` whose instruction has no meaning yet; no arm raises it now, since all 52
  commands have their meaning. Safe: nothing can be proved of a run it ends. -/
  | notModelled (mnemonic : String)
deriving DecidableEq, Repr

/-- The state of one unit (R20) and its host boundary (R7). -/
structure State where
  /-- File F (R21). -/
  f : RegFile F64
  /-- File D (R22). -/
  d : RegFile DReg
  /-- File Q (R23). -/
  q : RegFile QReg
  /-- File K (R24). -/
  k : RegFile Word
  /-- Valid bits VF of the F registers (R25). -/
  vf : RegFile Bool
  /-- Valid bits VDH of the high words of D (R25). -/
  vdh : RegFile Bool
  /-- Valid bits VDL of the low words of D (R25). -/
  vdl : RegFile Bool
  /-- Valid bits VQH of `mant[127:64]` of Q (R25). -/
  vqh : RegFile Bool
  /-- Valid bits VQL of `mant[63:0]` of Q (R25). -/
  vql : RegFile Bool
  /-- Valid bits VQE of `sign` and `exp` of Q (R25). -/
  vqe : RegFile Bool
  /-- Valid bits VK of the K registers (R25). -/
  vk : RegFile Bool
  /-- The status register (R30). -/
  sr : Status
  /-- The model's own: the host's transactions not yet taken, the next one first (log 1). -/
  input : List Transaction
  /-- The model's own: the data word of the transaction being run (R7, log 3). -/
  wdata : Word
  /-- The model's own: the responses returned so far, the oldest first (R290, log 2). -/
  output : List Response
deriving DecidableEq, Repr

/-- SR after reset: PHASE = IDLE, ACC = ESC = 0, OF = 0, no fault recorded (R36). -/
def Status.reset : Status :=
  { phase := .idle, acc := false, esc := false, ovf := false, ill := false, seq := false,
    uninit := false, dom := false, expr := false }

/-- The machine right after reset (R36, R280): every valid bit 0, SR = 0. DESIGN CHOICE (log 4): register
contents are 0 where the spec says "unspecified"; no command can read them (R281). No transaction has been
sent and no response returned (log 1, log 2, log 3). -/
def State.reset : State :=
  { f := Vector.replicate 16 0
    d := Vector.replicate 16 { hi := 0, lo := 0 }
    q := Vector.replicate 16 { sign := false, exp := 0, mant := 0 }
    k := Vector.replicate 16 0
    vf := Vector.replicate 16 false
    vdh := Vector.replicate 16 false
    vdl := Vector.replicate 16 false
    vqh := Vector.replicate 16 false
    vql := Vector.replicate 16 false
    vqe := Vector.replicate 16 false
    vk := Vector.replicate 16 false
    sr := Status.reset
    input := []
    wdata := 0
    output := [] }

end Sys2Proof.Machine
end

