-- ==== Sys2Proof/Machine/Flags.lean ====
section
/-! DEFINITION. SR and CFG as the host reads them, and every way a command changes SR
(spec/10_state.md R30 to R34, spec/60_exceptions.md R260). -/

namespace Sys2Proof.Machine

/-- The number PHASE reads as (R31). -/
def Phase.code : Phase → BitVec 3
  | .idle => 0
  | .fast => 1
  | .bound => 2
  | .test => 3
  | .escalate => 4
  | .done => 5

/-- The 64-bit word MFSR returns, with every bit R30 names "(none)" at 0. -/
def Status.toWord (sr : Status) : Word :=
  0#50 ++ BitVec.ofBool sr.expr ++ BitVec.ofBool sr.dom ++ BitVec.ofBool sr.uninit
    ++ BitVec.ofBool sr.seq ++ BitVec.ofBool sr.ill ++ BitVec.ofBool sr.ovf ++ 0#3
    ++ BitVec.ofBool sr.esc ++ BitVec.ofBool sr.acc ++ sr.phase.code

/-- The status code a fault returns (R260). -/
def CmdFault.code : CmdFault → BitVec 4
  | .illegal => 1
  | .sequence => 2
  | .uninit => 3
  | .domain => 4
  | .expRange => 5

/-- The sticky bit of a fault set, every other field kept (R262, R33). -/
def Status.record (sr : Status) : CmdFault → Status
  | .illegal => { sr with ill := true }
  | .sequence => { sr with seq := true }
  | .uninit => { sr with uninit := true }
  | .domain => { sr with dom := true }
  | .expRange => { sr with expr := true }

/-- SR.OF set when a conversion overflowed, kept otherwise (R33, R157). -/
def Status.noteOverflow (sr : Status) (overflowed : Bool) : Status :=
  { sr with ovf := sr.ovf || overflowed }

/-- ZIV.BEGIN's effect on SR (R212). -/
def Status.beginCall (sr : Status) : Status :=
  { sr with phase := .fast, acc := false, esc := false }

/-- ZIV.BOUND's effect on SR (R213). -/
def Status.bounded (sr : Status) : Status :=
  { sr with phase := .bound }

/-- SR inside ZIV.TEST: PHASE passes through TEST (R211, R214). -/
def Status.testing (sr : Status) : Status :=
  { sr with phase := .test }

/-- The exit of ZIV.TEST that accepts (R214). -/
def Status.accepted (sr : Status) : Status :=
  { sr with phase := .done, acc := true }

/-- The exit of ZIV.TEST that rejects (R214). -/
def Status.rejected (sr : Status) : Status :=
  { sr with phase := .escalate, esc := true }

/-- ZIV.FALLBACK's effect on PHASE (R215). -/
def Status.returned (sr : Status) : Status :=
  { sr with phase := .done }

/-- CFG, built from the parameters it publishes (R34): HAS_FMA in bit 0, NR_ITERS in 3:1, SMALL_EXP in
15:8, N in 31:16, TABLE_LEN in 47:32, the rest 0. -/
def cfgWord : Word :=
  0#16 ++ BitVec.ofNat 16 Config.tableLen ++ BitVec.ofNat 16 Config.granularity
    ++ BitVec.ofNat 8 Config.smallExp ++ 0#4 ++ BitVec.ofNat 3 Config.nrIters
    ++ BitVec.ofBool Config.hasFma

end Sys2Proof.Machine
end

