-- ==== Sys2Proof/Machine/Ops.lean ====
section
/-! DEFINITION. The named operations over PXFM-CORE's state: reading and writing register files, the
constant ROM, returning a response, raising a fault, and taking the next transaction. -/

namespace Sys2Proof.Machine

/-- The three outcomes of a command or a step. -/
abbrev Result := Host.Outcome State Fault Refusal

/-! ### Register files -/

/-- Register `r` of a file. -/
def rget {α : Type} (file : RegFile α) (r : Reg) : α := file[r.toNat]'(r.isLt)

/-- A file with register `r` holding `x`. -/
def rset {α : Type} (file : RegFile α) (r : Reg) (x : α) : RegFile α := file.set r.toNat x r.isLt

/-- `F[r] <- v`: stores the 64 bits and sets `VF[r]` (R27). -/
def State.writeF (s : State) (r : Reg) (v : F64) : State :=
  { s with f := rset s.f r v, vf := rset s.vf r true }

/-- `D[r] <- (h, l)`: stores both words and sets both valid bits (R27). -/
def State.writeD (s : State) (r : Reg) (v : DReg) : State :=
  { s with d := rset s.d r v, vdh := rset s.vdh r true, vdl := rset s.vdl r true }

/-- `D[r].hi <- h` alone: sets only `VDH[r]` (R27). -/
def State.writeDHi (s : State) (r : Reg) (h : F64) : State :=
  { s with d := rset s.d r { rget s.d r with hi := h }, vdh := rset s.vdh r true }

/-- `D[r].lo <- l` alone: sets only `VDL[r]` (R27). -/
def State.writeDLo (s : State) (r : Reg) (l : F64) : State :=
  { s with d := rset s.d r { rget s.d r with lo := l }, vdl := rset s.vdl r true }

/-- `Q[r] <- (s, e, m)`: stores the three fields and sets the three valid bits (R27). -/
def State.writeQ (s : State) (r : Reg) (v : QReg) : State :=
  { s with q := rset s.q r v, vqh := rset s.vqh r true, vql := rset s.vql r true,
           vqe := rset s.vqe r true }

/-- `Q[r].mant[127:64] <- h` alone: sets only `VQH[r]` (R27, R238). -/
def State.writeQHi (s : State) (r : Reg) (h : Word) : State :=
  { s with q := rset s.q r { rget s.q r with mant := h ++ (rget s.q r).mant.extractLsb' 0 64 },
           vqh := rset s.vqh r true }

/-- `Q[r].mant[63:0] <- l` alone: sets only `VQL[r]` (R27, R239). -/
def State.writeQLo (s : State) (r : Reg) (l : Word) : State :=
  { s with q := rset s.q r { rget s.q r with mant := (rget s.q r).mant.extractLsb' 64 64 ++ l },
           vql := rset s.vql r true }

/-- `Q[r].sign <- sign` and `Q[r].exp <- exp` alone: sets only `VQE[r]` (R27, R240). -/
def State.writeQE (s : State) (r : Reg) (sign : Bool) (exp : BitVec 16) : State :=
  { s with q := rset s.q r { rget s.q r with sign := sign, exp := exp },
           vqe := rset s.vqe r true }

/-- `K[r] <- v`: stores the 64 bits and sets `VK[r]` (R27). -/
def State.writeK (s : State) (r : Reg) (v : Word) : State :=
  { s with k := rset s.k r v, vk := rset s.vk r true }

/-- SR replaced: how a command's side effect on SR is stored (R30). -/
def State.setSr (s : State) (sr : Status) : State := { s with sr := sr }

/-! ### The constant ROM -/

/-- `N_OVER_PI`, CROM word 0: RN64(128/pi) (R52, R191). -/
def nOverPi : F64 := 0x40445F306DC9C883
/-- `MPI_N_HI`, CROM word 1 (R52, R191). -/
def mpiNHi : F64 := 0xBF9921FB54400000
/-- `MPI_N_MID`, CROM word 2 (R52, R191). -/
def mpiNMid : F64 := 0xBD70B4611A600000
/-- `MPI_N_LO`, CROM word 3 (R52, R191). -/
def mpiNLo : F64 := 0xBB43198A2E037073

/-- `CROM[i]` (R51, R52): words 0 to 3 fixed, words 4 to 255 the parameter CROM_EXT. -/
def crom (i : BitVec 8) : Word :=
  match i.toNat with
  | 0 => nOverPi
  | 1 => mpiNHi
  | 2 => mpiNMid
  | 3 => mpiNLo
  | _ => Config.cromExt i

/-! ### Ending a command -/

/-- The response of a transaction returned to the host (R7). -/
def State.respond (s : State) (status : BitVec 4) (rdata : Word) : State :=
  { s with output := s.output ++ [{ status := status, rdata := rdata }] }

/-- `raise X`, the one way a command faults (R262): the sticky bit of X set, STATUS the code of X,
RDATA 0, and nothing else; no register, valid bit, PHASE, ACC, ESC or OF changes. There is nothing to
return from (R268). -/
def State.raise (s : State) (x : CmdFault) : State :=
  (s.setSr (s.sr.record x)).respond x.code 0

/-- How a command ends: on completion the state it computed, with STATUS 0 and its RDATA (R230, R260);
on a fault the state BEFORE the command with the fault raised, so that nothing it wrote is kept (R262). -/
def finish (s : State) (c : Except CmdFault (State × Word)) : Result :=
  match c with
  | .ok (t, rdata) => .next (t.respond 0 rdata)
  | .error x => .next (s.raise x)

/-- The end of a command that returns no data: RDATA 0 (R69). -/
def finish0 (s : State) (c : Except CmdFault State) : Result :=
  finish s (c.map fun t => (t, 0))

/-! ### The host's transactions -/

/-- The next transaction taken from the host: its command word, and the state with its data word at hand
(R6, R7); none when the host has sent nothing more (log 1). -/
def State.takeTransaction (s : State) : Option (Cmd × State) :=
  match s.input with
  | [] => none
  | tx :: rest => some (tx.cmd, { s with input := rest, wdata := tx.wdata })

end Sys2Proof.Machine
end

