-- ==== Sys2Proof/Machine/Operands.lean ====
section
/-! DEFINITION. Reading a command's source operands: each needs its valid bits and raises Uninit without
them (spec/10_state.md R26, spec/60_exceptions.md R265). -/

namespace Sys2Proof.Machine

/-- The value read when every valid bit it needs is 1, else Uninit (R26, R265). -/
def needValid {α : Type} (valid : Bool) (v : α) : Except CmdFault α :=
  if valid then .ok v else .error .uninit

/-- `F[r]`: needs `VF[r]` (R26). -/
def readF (s : State) (r : Reg) : Except CmdFault F64 :=
  needValid (rget s.vf r) (rget s.f r)

/-- `K[r]`: needs `VK[r]` (R26). -/
def readK (s : State) (r : Reg) : Except CmdFault Word :=
  needValid (rget s.vk r) (rget s.k r)

/-- `D[r]` as a double-double: needs both `VDH[r]` and `VDL[r]` (R26). -/
def readD (s : State) (r : Reg) : Except CmdFault DReg :=
  needValid (rget s.vdh r && rget s.vdl r) (rget s.d r)

/-- `D[r].hi` alone: needs `VDH[r]` only (R26). -/
def readDHi (s : State) (r : Reg) : Except CmdFault F64 :=
  needValid (rget s.vdh r) (rget s.d r).hi

/-- `D[r].lo` alone: needs `VDL[r]` only (R26). -/
def readDLo (s : State) (r : Reg) : Except CmdFault F64 :=
  needValid (rget s.vdl r) (rget s.d r).lo

/-- `Q[r]` as a dyadic: needs `VQH[r]`, `VQL[r]` and `VQE[r]` (R26). -/
def readQ (s : State) (r : Reg) : Except CmdFault QReg :=
  needValid (rget s.vqh r && rget s.vql r && rget s.vqe r) (rget s.q r)

/-- `Q[r].mant[127:64]` alone: needs `VQH[r]` only (R26, R241). -/
def readQHi (s : State) (r : Reg) : Except CmdFault Word :=
  needValid (rget s.vqh r) ((rget s.q r).mant.extractLsb' 64 64)

/-- `Q[r].mant[63:0]` alone: needs `VQL[r]` only (R26, R242). -/
def readQLo (s : State) (r : Reg) : Except CmdFault Word :=
  needValid (rget s.vql r) ((rget s.q r).mant.extractLsb' 0 64)

/-- `zext_64(Q[r].sign ∥ Q[r].exp)`: bit 16 the sign, bits 15:0 the exponent; needs `VQE[r]` only
(R26, R243). -/
def readQE (s : State) (r : Reg) : Except CmdFault Word :=
  needValid (rget s.vqe r) (0#47 ++ BitVec.ofBool (rget s.q r).sign ++ (rget s.q r).exp)

/-- ZIV's phase check, made before any valid bit is looked at: Sequence unless PHASE is `p`
(R211, R261, R264). -/
def requirePhase (s : State) (p : Phase) : Except CmdFault Unit :=
  if s.sr.phase = p then .ok () else .error .sequence

end Sys2Proof.Machine
end

