-- ==== Sys2Proof/Machine/Binary64.lean ====
section
/-! DEFINITION. The binary64 datapath, spec/40_f64_datapath.md R90 to R104. A finite word's value is an
integer multiple of 2^-1074 (R90), so every exact sum, product and fused multiply-add is an integer over a
power of two, every quotient a ratio of two integers, and each operation is one exact integer computation
and one rounding (R93). -/

namespace Sys2Proof.Machine

/-! ### Format and classes (R90, R91) -/

/-- `sign(w) = w[63]` (R90). -/
def fsign (w : F64) : Bool := w.getLsbD 63
/-- `E = w[62:52]` (R90). -/
def fexp (w : F64) : Nat := (w.extractLsb' 52 11).toNat
/-- `frac = w[51:0]` (R90). -/
def ffrac (w : F64) : Nat := (w.extractLsb' 0 52).toNat

/-- NaN: E = 2047 and frac ≠ 0 (R90). -/
def isNan (w : F64) : Bool := fexp w == 2047 && ffrac w != 0
/-- Infinity: E = 2047 and frac = 0 (R90). -/
def isInf (w : F64) : Bool := fexp w == 2047 && ffrac w == 0
/-- Zero: E = 0 and frac = 0 (R90). -/
def isZero (w : F64) : Bool := fexp w == 0 && ffrac w == 0
/-- Finite: E ≠ 2047 (R90). -/
def isFinite (w : F64) : Bool := fexp w != 2047
/-- Subnormal: E = 0 and frac ≠ 0 (R90). -/
def isSubnormal (w : F64) : Bool := fexp w == 0 && ffrac w != 0

/-- The word of sign `s` whose other 63 bits are the number `b` (R90). -/
def packWord (s : Bool) (b : Nat) : F64 := BitVec.ofBool s ++ BitVec.ofNat 63 b

/-- The zero of sign `s` (R91). -/
def zeroOf (s : Bool) : F64 := packWord s 0
/-- The infinity of sign `s` (R91). -/
def infOf (s : Bool) : F64 := packWord s (2047 <<< 52)
/-- The canonical quiet NaN (R91, R94). -/
def qNaN : F64 := 0x7FF8000000000000
/-- 1.0 (R91). -/
def fone : F64 := 0x3FF0000000000000
/-- 2.0 (R91). -/
def ftwo : F64 := 0x4000000000000000

/-- 2^1074: the value of a word is an integer over this (R90). -/
def unitDen : Nat := 1 <<< 1074

/-- `|val(w)| · 2^1074` of a finite word: frac when subnormal, `(2^52 + frac) · 2^(E - 1)` when normal
(R90). -/
def scaledMag (w : F64) : Nat :=
  if fexp w = 0 then ffrac w else (2 ^ 52 + ffrac w) <<< (fexp w - 1)

/-- `val(w) · 2^1074` of a finite word (R90). -/
def scaledVal (w : F64) : Int :=
  if fsign w then -(scaledMag w : Int) else (scaledMag w : Int)

/-! ### Rounding (R92, R93) -/

/-- `floor(log2 (num / den))` for positive `num` and `den`. -/
def floorLog2 (num den : Nat) : Int :=
  let d : Int := (num.log2 : Int) - (den.log2 : Int)
  if den <<< d.toNat ≤ num <<< (-d).toNat then d else d - 1

/-- The choice between `n0` and `n0 + 1` when the exact value is above `n0` by less than, exactly, or more
than one half: the nearest, the even one at a tie (R93). -/
def roundHalfEven (n0 : Nat) (fraction : Ordering) : Nat :=
  match fraction with
  | .lt => n0
  | .gt => n0 + 1
  | .eq => if n0 % 2 = 0 then n0 else n0 + 1

/-- The word of sign `s` and magnitude `n1 · 2^(e - 52)`, for `e ≥ -1022` and `n1 ≤ 2^53`, where
`n1 ≥ 2^52` unless `e = -1022`: the infinity when the magnitude is 2^1024 or more (R93). Counting steps of
`2^(e-52)` from zero gives the low 63 bits of the word, the carry into the next binade included. -/
def packRounded (s : Bool) (e : Int) (n1 : Nat) : F64 :=
  let b := ((e + 1022).toNat <<< 52) + n1
  if 2047 <<< 52 ≤ b then infOf s else packWord s b

/-- The exponent of the rounding grid: `e = max(floor(log2 a), -1022)` (R93). -/
def gridExp (floorLog : Int) : Int := max floorLog (-1022)

/-- RN64 of the positive rational `num / den`, with sign `s` (R93). -/
def roundMag (s : Bool) (num den : Nat) : F64 :=
  let e := gridExp (floorLog2 num den)
  let n := num <<< (52 - e).toNat
  let d := den <<< (e - 52).toNat
  packRounded s e (roundHalfEven (n / d) (compare (2 * (n % d)) d))

/-- `RN64(q, s)` for `q = num / den` with `den > 0`; `s` is the sign of an exact zero result (R93). -/
def rn64 (num : Int) (den : Nat) (s : Bool) : F64 :=
  if num = 0 then zeroOf s else roundMag (decide (num < 0)) num.natAbs den

/-- One step of the digit-by-digit integer square root: bit `bit` of the root decided. -/
def isqrtBits : Nat → Nat → Nat → Nat
  | 0, _, root => root
  | bit + 1, n, root =>
    let next := root + 1 <<< bit
    isqrtBits bit n (if next * next ≤ n then next else root)

/-- The integer square root, `floor(sqrt n)`. -/
def isqrt (n : Nat) : Nat := isqrtBits (n.log2 / 2 + 1) n 0

/-- RN64 of the square root of the positive rational `num / den` (R93, R99). With `m` the root on the grid
of R93, `n0 = floor m`, and `m - n0` against one half is `4 m^2` against `(2 n0 + 1)^2`. -/
def roundSqrt (num den : Nat) : F64 :=
  let e := gridExp (floorLog2 num den / 2)
  let n := num <<< (2 * (52 - e)).toNat
  let d := den <<< (2 * (e - 52)).toNat
  let n0 := isqrt (n / d)
  packRounded false e (roundHalfEven n0 (compare (4 * n) ((2 * n0 + 1) * (2 * n0 + 1) * d)))

/-! ### The operations (R95 to R104) -/

/-- `fneg(a)`: bit 63 inverted, on every pattern (R101). -/
def fneg (a : F64) : F64 := a ^^^ 0x8000000000000000
/-- `fabs(a)`: bit 63 cleared, on every pattern (R101). -/
def fabs (a : F64) : F64 := a &&& 0x7FFFFFFFFFFFFFFF

/-- `a ⊕ b` (R95). -/
def fadd (a b : F64) : F64 :=
  if isNan a || isNan b then qNaN
  else if isInf a && isInf b then (if fsign a = fsign b then a else qNaN)
  else if isInf a then a
  else if isInf b then b
  else rn64 (scaledVal a + scaledVal b) unitDen (fsign a && fsign b)

/-- `a ⊖ b` (R96). -/
def fsub (a b : F64) : F64 :=
  if isNan a || isNan b then qNaN else fadd a (fneg b)

/-- `a ⊗ b` (R97). -/
def fmul (a b : F64) : F64 :=
  let s := fsign a ^^ fsign b
  if isNan a || isNan b then qNaN
  else if isInf a && isZero b || isZero a && isInf b then qNaN
  else if isInf a || isInf b then infOf s
  else rn64 (scaledVal a * scaledVal b) (unitDen * unitDen) s

/-- `a ⊘ b` (R98). -/
def fdiv (a b : F64) : F64 :=
  let s := fsign a ^^ fsign b
  if isNan a || isNan b then qNaN
  else if isZero a && isZero b || isInf a && isInf b then qNaN
  else if isZero b then infOf s
  else if isInf a then infOf s
  else if isInf b then zeroOf s
  else if isZero a then zeroOf s
  else roundMag s (scaledMag a) (scaledMag b)

/-- `fsqrt(a)` (R99). -/
def fsqrt (a : F64) : F64 :=
  if isNan a then qNaN
  else if isZero a then a
  else if fsign a then qNaN
  else if isInf a then a
  else roundSqrt (scaledMag a) unitDen

/-- `fma(a, b, c)`: `a·b + c` with one rounding (R100). -/
def ffma (a b c : F64) : F64 :=
  let s := fsign a ^^ fsign b
  if isNan a || isNan b || isNan c then qNaN
  else if isInf a && isZero b || isZero a && isInf b then qNaN
  else if isInf a || isInf b then (if isInf c && (fsign c != s) then qNaN else infOf s)
  else if isInf c then c
  else rn64 (scaledVal a * scaledVal b + scaledVal c * unitDen) (unitDen * unitDen) (s && fsign c)

/-- `feq(a, b)`: IEEE equality, false on a NaN, true on two zeros of either sign (R102). -/
def feq (a b : F64) : Bool :=
  if isNan a || isNan b then false
  else if isZero a && isZero b then true
  else a == b

/-- `rint_away(a)`: to an integral value, ties away from zero (R103). The test `|val(a)| ≥ 2^52` and
`n = floor(|val(a)| + 1/2)` are on the scaled magnitude. -/
def rintAway (a : F64) : F64 :=
  if isNan a then qNaN
  else if isInf a || isZero a then a
  else if 1 <<< (52 + 1074) ≤ scaledMag a then a
  else
    let n := (2 * scaledMag a + unitDen) / (2 * unitDen)
    if n = 0 then zeroOf (fsign a) else roundMag (fsign a) n 1

/-- `f64_to_int(a)` of an integral word of magnitude below 2^63, as a 64-bit two's-complement pattern
(R104). -/
def f64ToInt (a : F64) : Word := BitVec.ofInt 64 (scaledVal a / (unitDen : Int))

end Sys2Proof.Machine
end

