-- ==== Sys2Proof/Machine/DoubleDouble.lean ====
section
/-! DEFINITION. The double-double unit, spec/41_double_double.md R120 to R136: the reference sequences as
pure functions of operand words (R125), then the commands over the register files. No operand class is
tested but DD.SQRT's zero (R135). -/

namespace Sys2Proof.Machine

/-! ### Error-free transforms (R121 to R124) -/

/-- `fast2sum(a, b)` (R121). -/
def fast2sum (a b : F64) : DReg :=
  let hi := fadd a b
  let t := fsub hi a
  { hi := hi, lo := fsub b t }

/-- The subtraction mirror of `fast2sum` (R122). -/
def fast2diff (a b : F64) : DReg :=
  let hi := fsub a b
  let t := fsub a hi
  { hi := hi, lo := fsub t b }

/-- `two_sum(a, b)`, the branch-free six-operation form (R123). -/
def twoSum (a b : F64) : DReg :=
  let hi := fadd a b
  let t1 := fsub hi a
  let t2 := fsub hi t1
  let t3 := fsub b t1
  let t4 := fsub a t2
  { hi := hi, lo := fadd t3 t4 }

/-- `xmul(a, b)`, the fused form of exact_mult (R124, HAS_FMA = 1). -/
def xmul (a b : F64) : DReg :=
  let hi := fmul a b
  { hi := hi, lo := ffma a b (fneg hi) }

/-- The splitting constant `2^27 + 1` (R124). -/
def splitC : F64 := 0x41A0000002000000

/-- `split(x)` into high and low halves (R124, HAS_FMA = 0). -/
def fsplit (x : F64) : DReg :=
  let t1 := fmul splitC x
  let t2 := fsub x t1
  let xh := fadd t1 t2
  { hi := xh, lo := fsub x xh }

/-- The split-based form of exact_mult (R124, HAS_FMA = 0). -/
def xmulSplit (a b : F64) : DReg :=
  let sa := fsplit a
  let sb := fsplit b
  let hi := fmul a b
  let t1 := fsub (fmul sa.hi sb.hi) hi
  let t2 := fadd (fmul sa.hi sb.lo) t1
  let t3 := fadd (fmul sa.lo sb.hi) t2
  { hi := hi, lo := fadd (fmul sa.lo sb.lo) t3 }

/-- exact_mult by the HAS_FMA parameter (R106, R124). -/
def exactMult (hasFma : Bool) (a b : F64) : DReg :=
  if hasFma then xmul a b else xmulSplit a b

/-! ### Composites (R126 to R133) -/

/-- The sequence of DD.ADD (R126). -/
def ddAdd (x y : DReg) : DReg :=
  let s := twoSum x.hi y.hi
  let t := twoSum x.lo y.lo
  let c := fadd s.lo t.hi
  let v := fast2sum s.hi c
  let w := fadd t.lo v.lo
  fast2sum v.hi w

/-- The sequence of DD.SUB: DD.ADD's applied to x and the negated words of y (R127). -/
def ddSub (x y : DReg) : DReg :=
  ddAdd x { hi := fneg y.hi, lo := fneg y.lo }

/-- The sequence of DD.MUL (R128). -/
def ddMul (x y : DReg) : DReg :=
  let c := xmul x.hi y.hi
  let tl0 := fmul x.lo y.lo
  let tl1 := ffma x.hi y.lo tl0
  let cl2 := ffma x.lo y.hi tl1
  let cl3 := fadd c.lo cl2
  fast2sum c.hi cl3

/-- The sequence of DD.QMUL: no low-by-low term, no renormalization (R129). -/
def ddQmul (x y : DReg) : DReg :=
  let c := xmul x.hi y.hi
  let t1 := ffma x.hi y.lo c.lo
  let t2 := ffma x.lo y.hi t1
  { hi := c.hi, lo := t2 }

/-- The sequence of DD.MULF (R130). -/
def ddMulf (x : DReg) (f : F64) : DReg :=
  let p := xmul x.hi f
  { hi := p.hi, lo := ffma x.lo f p.lo }

/-- The sequence of DD.DIV (R131). -/
def ddDiv (x y : DReg) : DReg :=
  let th := fdiv x.hi y.hi
  let p := xmul y.hi th
  let pl2 := ffma y.lo th p.lo
  let r := fast2sum p.hi pl2
  let dh := fsub x.hi r.hi
  let dl := fsub x.lo r.lo
  let d := fadd dh dl
  let tl := fdiv d y.hi
  fast2sum th tl

/-- The sequence of DD.SQRT, with its test of xh alone (R132). -/
def ddSqrt (x : DReg) : DReg :=
  let sh := fsqrt x.hi
  if isZero x.hi then { hi := sh, lo := zeroOf false }
  else
    let r := ffma (fneg sh) sh x.hi
    let r2 := fadd r x.lo
    let sl := fdiv r2 (fmul ftwo sh)
    fast2sum sh sl

/-- The sequence of DD.RECIP (R133). -/
def ddRecip (x : DReg) : DReg :=
  let y := fdiv fone x.hi
  let e1 := ffma (fneg x.hi) y fone
  let e2 := ffma (fneg x.lo) y e1
  let e := fmul y e2
  fast2sum y e

/-! ### The commands -/

/-- A command from two F registers to a D register (R120). -/
def ddFromWords (op : F64 → F64 → DReg) (rd ra rb : Reg) (s : State) : Result := finish0 s do
  let a ← readF s ra
  let b ← readF s rb
  return s.writeD rd (op a b)

/-- A command from two D registers to a D register (R120). -/
def ddBinary (op : DReg → DReg → DReg) (rd ra rb : Reg) (s : State) : Result := finish0 s do
  let x ← readD s ra
  let y ← readD s rb
  return s.writeD rd (op x y)

/-- A command from one D register to a D register (R120). -/
def ddUnary (op : DReg → DReg) (rd ra : Reg) (s : State) : Result := finish0 s do
  let x ← readD s ra
  return s.writeD rd (op x)

/-- DD.XADD (R121). -/
def execDdXadd (rd ra rb : Reg) (s : State) : Result := ddFromWords fast2sum rd ra rb s
/-- DD.XSUB (R122). -/
def execDdXsub (rd ra rb : Reg) (s : State) : Result := ddFromWords fast2diff rd ra rb s
/-- DD.FXADD (R123). -/
def execDdFxadd (rd ra rb : Reg) (s : State) : Result := ddFromWords twoSum rd ra rb s
/-- DD.XMUL, in the form HAS_FMA selects (R124). -/
def execDdXmul (rd ra rb : Reg) (s : State) : Result :=
  ddFromWords (exactMult Config.hasFma) rd ra rb s
/-- DD.ADD (R126). -/
def execDdAdd (rd ra rb : Reg) (s : State) : Result := ddBinary ddAdd rd ra rb s
/-- DD.SUB (R127). -/
def execDdSub (rd ra rb : Reg) (s : State) : Result := ddBinary ddSub rd ra rb s
/-- DD.MUL (R128). -/
def execDdMul (rd ra rb : Reg) (s : State) : Result := ddBinary ddMul rd ra rb s
/-- DD.QMUL (R129). -/
def execDdQmul (rd ra rb : Reg) (s : State) : Result := ddBinary ddQmul rd ra rb s
/-- DD.MULF: a double-double times one binary64 word (R130). -/
def execDdMulf (rd ra rb : Reg) (s : State) : Result := finish0 s do
  let x ← readD s ra
  let f ← readF s rb
  return s.writeD rd (ddMulf x f)
/-- DD.DIV: `D[ra]` over `D[rb]` (R131). -/
def execDdDiv (rd ra rb : Reg) (s : State) : Result := ddBinary ddDiv rd ra rb s
/-- DD.SQRT (R132). -/
def execDdSqrt (rd ra : Reg) (s : State) : Result := ddUnary ddSqrt rd ra s
/-- DD.RECIP (R133). -/
def execDdRecip (rd ra : Reg) (s : State) : Result := ddUnary ddRecip rd ra s

end Sys2Proof.Machine
end

