-- ==== Sys2Proof/Machine/Dyadic128.lean ====
section
/-! DEFINITION. The Dyadic128 unit, spec/42_dyadic128.md R150 to R170. The arithmetic is on triples
`(s, e, m)` of a sign, an unbounded integer exponent and a mantissa below 2^128 (R151); a result goes back
into the 16-bit exponent field once `canon` has checked its range (R154). -/

namespace Sys2Proof.Machine

/-- The working triple `(s, e, m)` of R151: `s` true is negative, the value `(-1)^s · m · 2^e`. -/
structure Dy where
  s : Bool
  e : Int
  m : Nat
deriving DecidableEq, Repr

/-- A Q register as a triple (R23, R151). -/
def dyOfReg (q : QReg) : Dy := { s := q.sign, e := q.exp.toInt, m := q.mant.toNat }

/-- A triple stored in a Q register (R151); every triple a command stores has passed `canon` or is a copy
of a register, so its exponent fits the field. -/
def regOfDy (x : Dy) : QReg :=
  { sign := x.s, exp := BitVec.ofInt 16 x.e, mant := BitVec.ofNat 128 x.m }

/-! ### Helpers (R154) -/

/-- `clz128(m)` for `0 < m < 2^128`: `127 - floor(log2 m)` (R154). -/
def clz128 (m : Nat) : Nat := 127 - m.log2

/-- `canon(s, e, m)`: the canonical zero, or ExpRange outside the 16-bit field, or the triple (R154). -/
def canon (s : Bool) (e : Int) (m : Nat) : Except CmdFault Dy :=
  if m = 0 then .ok { s := s, e := 0, m := 0 }
  else if e < -32768 ∨ 32767 < e then .error .expRange
  else .ok { s := s, e := e, m := m }

/-- `normalize(s, e, m)` (R154). -/
def normalize (s : Bool) (e : Int) (m : Nat) : Except CmdFault Dy :=
  if m = 0 then .ok { s := s, e := 0, m := 0 }
  else canon s (e - (clz128 m : Int)) (m <<< clz128 m)

/-! ### Conversion (R155, R157) -/

/-- `from_f64(w)` (R155). -/
def fromF64 (w : F64) : Except CmdFault Dy :=
  if fexp w = 2047 then .error .domain
  else if fexp w = 0 ∧ ffrac w = 0 then .ok { s := fsign w, e := 0, m := 0 }
  else if fexp w = 0 then
    .ok { s := fsign w, e := -1074 - (clz128 (ffrac w) : Int), m := ffrac w <<< clz128 (ffrac w) }
  else .ok { s := fsign w, e := (fexp w : Int) - 1150, m := (2 ^ 52 + ffrac w) <<< 75 }

/-- `fast_as_f64(q)`: the word, and whether it is an infinity (R157). The exact value
`(-1)^s · m · 2^e` is rounded once. -/
def fastAsF64 (x : Dy) : F64 × Bool :=
  if x.m = 0 then (zeroOf x.s, false)
  else
    let r := roundMag x.s (x.m <<< x.e.toNat) (1 <<< (-x.e).toNat)
    (r, isInf r)

/-! ### Arithmetic (R160 to R167) -/

/-- `m >> n` of an aligned mantissa, 0 from n = 128 on: bits shifted out are dropped (R160). -/
def alignShift (m : Nat) (n : Int) : Nat := if n < 128 then m >>> n.toNat else 0

/-- `quick_add` of two triples whose mantissas are aligned at the exponent `e`; `sa` and `sb` are the
operands' signs (R160). -/
def addAligned (sa sb : Bool) (e : Int) (ma mb : Nat) : Except CmdFault Dy :=
  if sa = sb then
    if 2 ^ 128 ≤ ma + mb then canon sa (e + 1) ((ma + mb) >>> 1)
    else normalize sa e (ma + mb)
  else if ma = mb then .ok { s := sa, e := 0, m := 0 }
  else if mb ≤ ma then normalize sa e (ma - mb)
  else normalize sb e (mb - ma)

/-- `quick_add(a, b)` (R160). -/
def quickAdd (a b : Dy) : Except CmdFault Dy :=
  if a.m = 0 then normalize b.s b.e b.m
  else if b.m = 0 then normalize a.s a.e a.m
  else if b.e ≤ a.e then addAligned a.s b.s a.e a.m (alignShift b.m (a.e - b.e))
  else addAligned a.s b.s b.e (alignShift a.m (b.e - a.e)) b.m

/-- `quick_mul(a, b)`: the high 128 bits of the product (R161). -/
def quickMul (a b : Dy) : Except CmdFault Dy :=
  if a.m = 0 ∨ b.m = 0 then .ok { s := a.s ^^ b.s, e := 0, m := 0 }
  else normalize (a.s ^^ b.s) (a.e + b.e + 128) ((a.m * b.m) >>> 128)

/-- `negate`: the sign flipped, nothing else (R162). -/
def dyNegate (a : Dy) : Dy := { a with s := !a.s }

/-- `TWO = (0, -126, 2^127)` (R163). -/
def dyTwo : Dy := { s := false, e := -126, m := 2 ^ 127 }

/-- The Newton-Raphson steps `y <- y·(2 - x·y)`, as many as the first argument says (R163). -/
def newtonSteps : Nat → Dy → Dy → Except CmdFault Dy
  | 0, _, y => .ok y
  | n + 1, x, y => do
    let t ← quickMul x y
    let u ← quickAdd dyTwo (dyNegate t)
    let y' ← quickMul y u
    newtonSteps n x y'

/-- `reciprocal(x)` with a given iteration count (R163); SR.OF of the seed's conversion is discarded. -/
def reciprocal (iters : Nat) (x : Dy) : Except CmdFault Dy :=
  if x.m = 0 then .error .domain
  else
    let xf := (fastAsF64 x).1
    if isZero xf || isInf xf then .error .domain
    else
      let g := fdiv fone xf
      if isInf g then .error .domain
      else do
        let y ← fromF64 g
        newtonSteps iters x y

/-- `a` over `b`: the reciprocal of b first, then one quick_mul (R166). -/
def dyQuotient (iters : Nat) (a b : Dy) : Except CmdFault Dy := do
  let r ← reciprocal iters b
  quickMul a r

/-- Round to the nearest integer, ties away from zero (R167):
`floor(m · 2^e + 1/2) = (m + 2^(-e-1)) >> (-e)` for negative e. -/
def dyRound (x : Dy) : Except CmdFault Dy :=
  if x.m = 0 then .ok { s := x.s, e := 0, m := 0 }
  else if 0 ≤ x.e then normalize x.s x.e x.m
  else normalize x.s 0 ((x.m + 1 <<< (-x.e - 1).toNat) >>> (-x.e).toNat)

/-! ### The commands (R151) -/

/-- A command from one Q register to a Q register. -/
def dyUnary (op : Dy → Except CmdFault Dy) (rd ra : Reg) (s : State) : Result := finish0 s do
  let a ← readQ s ra
  let r ← op (dyOfReg a)
  return s.writeQ rd (regOfDy r)

/-- A command from two Q registers to a Q register: both sources are checked before the operation
(R261). -/
def dyBinary (op : Dy → Dy → Except CmdFault Dy) (rd ra rb : Reg) (s : State) : Result := finish0 s do
  let a ← readQ s ra
  let b ← readQ s rb
  let r ← op (dyOfReg a) (dyOfReg b)
  return s.writeQ rd (regOfDy r)

/-- DY.FROMF: exact conversion of `F[ra]`; Domain on a NaN or an infinity (R155). -/
def execDyFromf (rd ra : Reg) (s : State) : Result := finish0 s do
  let w ← readF s ra
  let r ← fromF64 w
  return s.writeQ rd (regOfDy r)

/-- DY.TOF: `F[rd]` gets the rounding of `Q[ra]`; SR.OF is set when it is an infinity (R157). -/
def execDyTof (rd ra : Reg) (s : State) : Result := finish0 s do
  let a ← readQ s ra
  let r := fastAsF64 (dyOfReg a)
  return (s.writeF rd r.1).setSr (s.sr.noteOverflow r.2)

/-- DY.NORM (R158). -/
def execDyNorm (rd ra : Reg) (s : State) : Result :=
  dyUnary (fun a => normalize a.s a.e a.m) rd ra s

/-- DY.ADD (R160). -/
def execDyAdd (rd ra rb : Reg) (s : State) : Result := dyBinary quickAdd rd ra rb s

/-- DY.MUL (R161). -/
def execDyMul (rd ra rb : Reg) (s : State) : Result := dyBinary quickMul rd ra rb s

/-- DY.NEG: nothing is normalized, checked or canonicalized (R162). -/
def execDyNeg (rd ra : Reg) (s : State) : Result := finish0 s do
  let a ← readQ s ra
  return s.writeQ rd { a with sign := !a.sign }

/-- DY.RECIP (R164). -/
def execDyRecip (rd ra : Reg) (s : State) : Result := dyUnary (reciprocal Config.nrIters) rd ra s

/-- DY.RECIPF: the reciprocal of a binary64 word (R165). -/
def execDyRecipf (rd ra : Reg) (s : State) : Result := finish0 s do
  let w ← readF s ra
  let x ← fromF64 w
  let r ← reciprocal Config.nrIters x
  return s.writeQ rd (regOfDy r)

/-- DY.DIV: `Q[ra]` over `Q[rb]` (R166). -/
def execDyDiv (rd ra rb : Reg) (s : State) : Result :=
  dyBinary (dyQuotient Config.nrIters) rd ra rb s

/-- DY.RND (R167). -/
def execDyRnd (rd ra : Reg) (s : State) : Result := dyUnary dyRound rd ra s

end Sys2Proof.Machine
end

