-- ==== Sys2Proof/Machine/Escalation.lean ====
section
/-! DEFINITION. The escalation mux, spec/44_escalation_mux.md R210 to R220: the four ZIV commands and the
phase machine of Ziv's rounding test. The phase is checked before any source's valid bits (R211, R261). -/

namespace Sys2Proof.Machine

/-- ZIV.BEGIN: starts a call from any phase; the sticky bits stay (R212). -/
def execZivBegin (s : State) : Result := finish0 s (.ok (s.setSr s.sr.beginCall))

/-- `err = fma(fabs(hi), rel, abs)` (R213). -/
def errBound (hi rel abs : F64) : F64 := ffma (fabs hi) rel abs

/-- ZIV.BOUND: both words of the candidate must be valid, only hi is used (R213). -/
def execZivBound (rd ra rb rc : Reg) (s : State) : Result := finish0 s do
  requirePhase s .fast
  let x ← readD s ra
  let rel ← readF s rb
  let abs ← readF s rc
  return (s.writeF rd (errBound x.hi rel abs)).setSr s.sr.bounded

/-- `upper = hi ⊕ (lo ⊕ err)` (R214). -/
def zivUpper (x : DReg) (err : F64) : F64 := fadd x.hi (fadd x.lo err)
/-- `lower = hi ⊕ (lo ⊖ err)` (R214). -/
def zivLower (x : DReg) (err : F64) : F64 := fadd x.hi (fsub x.lo err)

/-- ZIV.TEST: accepts when upper and lower are equal as IEEE numbers, and only then writes `F[rd]`; PHASE
passes through TEST; a rejection is not a fault (R214). -/
def execZivTest (rd ra rb : Reg) (s : State) : Result := finish0 s do
  requirePhase s .bound
  let x ← readD s ra
  let err ← readF s rb
  let sr := s.sr.testing
  if feq (zivUpper x err) (zivLower x err) then
    return (s.writeF rd (zivUpper x err)).setSr sr.accepted
  else
    return s.setSr sr.rejected

/-- ZIV.FALLBACK: the conversion of `Q[ra]` returned after a rejection; SR.OF as for DY.TOF (R215). -/
def execZivFallback (rd ra : Reg) (s : State) : Result := finish0 s do
  requirePhase s .escalate
  let a ← readQ s ra
  let r := fastAsF64 (dyOfReg a)
  return (s.writeF rd r.1).setSr (s.sr.noteOverflow r.2).returned

end Sys2Proof.Machine
end

