-- ==== Sys2Proof/Machine/RangeReducer.lean ====
section
/-! DEFINITION. The range reducer, spec/43_range_reduction.md R190 to R198: `x = k·pi/128 + r` with r a
double-double or a dyadic, and the fold of k into a table index. -/

namespace Sys2Proof.Machine

/-- `kd = rint_away(x ⊗ N_OVER_PI)` (R192, R193). -/
def smallKd (x : F64) : F64 := rintAway (fmul x nOverPi)

/-- Whether kd has a 64-bit integer: not a NaN, not an infinity, magnitude below 2^63 (R193). -/
def kdFits (kd : F64) : Bool :=
  !(isNan kd || isInf kd) && decide (scaledMag kd < 1 <<< (63 + 1074))

/-- The residual of the small-argument path, from x and kd (R193). -/
def smallResidual (x kd : F64) : DReg :=
  let yHi := ffma kd mpiNHi x
  let uHi := ffma kd mpiNMid yHi
  let u0 := fsub yHi uHi
  let u1 := ffma kd mpiNMid u0
  let uLo := ffma kd mpiNLo u1
  { hi := uHi, lo := uLo }

/-- RR.SMALL: the residual to `D[rd]` and k to `K[rc]`; Domain when kd has no 64-bit integer (R193). The
threshold 2^SMALL_EXP is not checked. -/
def execRrSmall (rd ra rc : Reg) (s : State) : Result := finish0 s do
  let x ← readF s ra
  let kd := smallKd x
  if kdFits kd then
    return (s.writeD rd (smallResidual x kd)).writeK rc (f64ToInt kd)
  else .error .domain

/-- The 64-bit word of a finite value by its fields (R90). -/
def wordOfFinite (w : Config.FiniteWord) : F64 :=
  BitVec.ofBool w.sign ++ BitVec.ofNat 11 w.biased.val ++ w.frac

/-- The Q register of a normalized value by its fields (R23). -/
def regOfNormal (x : Config.NormalDyadic) : QReg :=
  { sign := x.sign, exp := x.exp, mant := if x.nonzero then 1#1 ++ x.frac else 0 }

/-- RR.LARGE: the residual and k of the parameter function `rr_large`; Domain on a NaN or an infinity
(R195). -/
def execRrLarge (rd ra rc : Reg) (s : State) : Result := finish0 s do
  let x ← readF s ra
  if isNan x || isInf x then .error .domain
  else
    let r := Config.rrLarge x
    return (s.writeD rd { hi := wordOfFinite r.hi, lo := wordOfFinite r.lo }).writeK rc r.k

/-- RR.LARGEQ: the dyadic residual and k of the parameter function `rr_large_q`; Domain on a NaN or an
infinity (R196). -/
def execRrLargeq (rd ra rc : Reg) (s : State) : Result := finish0 s do
  let x ← readF s ra
  if isNan x || isInf x then .error .domain
  else
    let r := Config.rrLargeQ x
    return (s.writeQ rd (regOfNormal r.q)).writeK rc r.k

/-- `(K[ra] + imm8) mod TABLE_LEN` in the integers, the remainder never negative (R197). -/
def foldIndex (k : Word) (imm8 : BitVec 8) : Word :=
  BitVec.ofInt 64 ((k.toInt + (imm8.toNat : Int)) % (Config.tableLen : Int))

/-- RR.IDX (R197). -/
def execRrIdx (rd ra : Reg) (imm8 : BitVec 8) (s : State) : Result := finish0 s do
  let k ← readK s ra
  return s.writeK rd (foldIndex k imm8)

end Sys2Proof.Machine
end

