-- ==== Sys2Proof/Machine/Transfer.lean ====
section
/-! DEFINITION. Transfer, load and status commands, spec/45_transfer_control.md R230 to R252. They move
bits unchanged: no rounding, no NaN canonicalization, no normalization, no check of an invariant (R230). -/

namespace Sys2Proof.Machine

/-- NOP: nothing changes (R231). -/
def execNop (s : State) : Result := finish0 s (.ok s)

/-- MTF: `F[rd] <- WDATA` (R232). -/
def execMtf (rd : Reg) (s : State) : Result := finish0 s (.ok (s.writeF rd s.wdata))

/-- MFF: `RDATA <- F[ra]` (R233). -/
def execMff (ra : Reg) (s : State) : Result := finish s do
  let v ← readF s ra
  return (s, v)

/-- MTDH: `D[rd].hi <- WDATA`, only `VDH[rd]` set (R234). -/
def execMtdh (rd : Reg) (s : State) : Result := finish0 s (.ok (s.writeDHi rd s.wdata))

/-- MTDL: `D[rd].lo <- WDATA`, only `VDL[rd]` set (R235). -/
def execMtdl (rd : Reg) (s : State) : Result := finish0 s (.ok (s.writeDLo rd s.wdata))

/-- MFDH: `RDATA <- D[ra].hi` (R236). -/
def execMfdh (ra : Reg) (s : State) : Result := finish s do
  let v ← readDHi s ra
  return (s, v)

/-- MFDL: `RDATA <- D[ra].lo` (R237). -/
def execMfdl (ra : Reg) (s : State) : Result := finish s do
  let v ← readDLo s ra
  return (s, v)

/-- MTQH: `Q[rd].mant[127:64] <- WDATA`, only `VQH[rd]` set (R238). -/
def execMtqh (rd : Reg) (s : State) : Result := finish0 s (.ok (s.writeQHi rd s.wdata))

/-- MTQL: `Q[rd].mant[63:0] <- WDATA`, only `VQL[rd]` set (R239). -/
def execMtql (rd : Reg) (s : State) : Result := finish0 s (.ok (s.writeQLo rd s.wdata))

/-- MTQE: `Q[rd].sign <- WDATA[16]; Q[rd].exp <- WDATA[15:0]`, only `VQE[rd]` set, WDATA[63:17] ignored
(R240). -/
def execMtqe (rd : Reg) (s : State) : Result :=
  finish0 s (.ok (s.writeQE rd (s.wdata.getLsbD 16) (s.wdata.extractLsb' 0 16)))

/-- MFQH: `RDATA <- Q[ra].mant[127:64]` (R241). -/
def execMfqh (ra : Reg) (s : State) : Result := finish s do
  let v ← readQHi s ra
  return (s, v)

/-- MFQL: `RDATA <- Q[ra].mant[63:0]` (R242). -/
def execMfql (ra : Reg) (s : State) : Result := finish s do
  let v ← readQLo s ra
  return (s, v)

/-- MFQE: `RDATA <- zext_64(Q[ra].sign ∥ Q[ra].exp)` (R243). -/
def execMfqe (ra : Reg) (s : State) : Result := finish s do
  let v ← readQE s ra
  return (s, v)

/-- MTK: `K[rd] <- WDATA` (R244). -/
def execMtk (rd : Reg) (s : State) : Result := finish0 s (.ok (s.writeK rd s.wdata))

/-- MFK: `RDATA <- K[ra]` (R252). -/
def execMfk (ra : Reg) (s : State) : Result := finish s do
  let v ← readK s ra
  return (s, v)

/-- MFSR: `RDATA <- SR`, all 64 bits, nothing cleared (R245). -/
def execMfsr (s : State) : Result := finish s (.ok (s, s.sr.toWord))

/-- MFCFG: `RDATA <- CFG` (R246). -/
def execMfcfg (s : State) : Result := finish s (.ok (s, cfgWord))

/-- LDC: `F[rd] <- CROM[imm8]` (R247). -/
def execLdc (rd : Reg) (imm8 : BitVec 8) (s : State) : Result :=
  finish0 s (.ok (s.writeF rd (crom imm8)))

/-- LDCD: `D[rd] <- (hi = CROM[2p + 1], lo = CROM[2p])` for `p = imm8` in 0 to 127 (R53, R248); a larger
`imm8` names no pair and is Illegal (R55, R75). -/
def execLdcd (rd : Reg) (imm8 : BitVec 8) (s : State) : Result := finish0 s <|
  if imm8.toNat < 128 then
    .ok (s.writeD rd { hi := crom (2 * imm8 + 1), lo := crom (2 * imm8) })
  else .error .illegal

/-- DD.PACK: `D[rd] <- (hi = F[ra], lo = F[rb])` (R249). -/
def execDdPack (rd ra rb : Reg) (s : State) : Result := finish0 s do
  let h ← readF s ra
  let l ← readF s rb
  return s.writeD rd { hi := h, lo := l }

/-- DD.HI: `F[rd] <- D[ra].hi` (R250). -/
def execDdHi (rd ra : Reg) (s : State) : Result := finish0 s do
  let v ← readDHi s ra
  return s.writeF rd v

/-- DD.LO: `F[rd] <- D[ra].lo` (R251). -/
def execDdLo (rd ra : Reg) (s : State) : Result := finish0 s do
  let v ← readDLo s ra
  return s.writeF rd v

end Sys2Proof.Machine
end

