-- ==== Sys2Proof/Machine/Dispatch.lean ====
section
/-! DEFINITION. One arm per command: each calls its meaning (spec/30_encoding.md R70). -/

namespace Sys2Proof.Machine

/-- The meaning of every command. -/
def exec (i : Instr) (s : State) : Host.Outcome State Fault Refusal :=
  match i with
  | .nop => Sys2Proof.Machine.execNop s
  | .mtf rd => Sys2Proof.Machine.execMtf rd s
  | .mff ra => Sys2Proof.Machine.execMff ra s
  | .mtdh rd => Sys2Proof.Machine.execMtdh rd s
  | .mtdl rd => Sys2Proof.Machine.execMtdl rd s
  | .mfdh ra => Sys2Proof.Machine.execMfdh ra s
  | .mfdl ra => Sys2Proof.Machine.execMfdl ra s
  | .mtqh rd => Sys2Proof.Machine.execMtqh rd s
  | .mtql rd => Sys2Proof.Machine.execMtql rd s
  | .mtqe rd => Sys2Proof.Machine.execMtqe rd s
  | .mfqh ra => Sys2Proof.Machine.execMfqh ra s
  | .mfql ra => Sys2Proof.Machine.execMfql ra s
  | .mfqe ra => Sys2Proof.Machine.execMfqe ra s
  | .mtk rd => Sys2Proof.Machine.execMtk rd s
  | .mfk ra => Sys2Proof.Machine.execMfk ra s
  | .mfsr => Sys2Proof.Machine.execMfsr s
  | .mfcfg => Sys2Proof.Machine.execMfcfg s
  | .ldc rd imm8 => Sys2Proof.Machine.execLdc rd imm8 s
  | .ldcd rd imm8 => Sys2Proof.Machine.execLdcd rd imm8 s
  | .ddPack rd ra rb => Sys2Proof.Machine.execDdPack rd ra rb s
  | .ddHi rd ra => Sys2Proof.Machine.execDdHi rd ra s
  | .ddLo rd ra => Sys2Proof.Machine.execDdLo rd ra s
  | .ddXadd rd ra rb => Sys2Proof.Machine.execDdXadd rd ra rb s
  | .ddXsub rd ra rb => Sys2Proof.Machine.execDdXsub rd ra rb s
  | .ddFxadd rd ra rb => Sys2Proof.Machine.execDdFxadd rd ra rb s
  | .ddXmul rd ra rb => Sys2Proof.Machine.execDdXmul rd ra rb s
  | .ddAdd rd ra rb => Sys2Proof.Machine.execDdAdd rd ra rb s
  | .ddSub rd ra rb => Sys2Proof.Machine.execDdSub rd ra rb s
  | .ddMul rd ra rb => Sys2Proof.Machine.execDdMul rd ra rb s
  | .ddQmul rd ra rb => Sys2Proof.Machine.execDdQmul rd ra rb s
  | .ddMulf rd ra rb => Sys2Proof.Machine.execDdMulf rd ra rb s
  | .ddDiv rd ra rb => Sys2Proof.Machine.execDdDiv rd ra rb s
  | .ddSqrt rd ra => Sys2Proof.Machine.execDdSqrt rd ra s
  | .ddRecip rd ra => Sys2Proof.Machine.execDdRecip rd ra s
  | .dyFromf rd ra => Sys2Proof.Machine.execDyFromf rd ra s
  | .dyTof rd ra => Sys2Proof.Machine.execDyTof rd ra s
  | .dyNorm rd ra => Sys2Proof.Machine.execDyNorm rd ra s
  | .dyAdd rd ra rb => Sys2Proof.Machine.execDyAdd rd ra rb s
  | .dyMul rd ra rb => Sys2Proof.Machine.execDyMul rd ra rb s
  | .dyNeg rd ra => Sys2Proof.Machine.execDyNeg rd ra s
  | .dyRecip rd ra => Sys2Proof.Machine.execDyRecip rd ra s
  | .dyRecipf rd ra => Sys2Proof.Machine.execDyRecipf rd ra s
  | .dyDiv rd ra rb => Sys2Proof.Machine.execDyDiv rd ra rb s
  | .dyRnd rd ra => Sys2Proof.Machine.execDyRnd rd ra s
  | .rrSmall rd ra rc => Sys2Proof.Machine.execRrSmall rd ra rc s
  | .rrLarge rd ra rc => Sys2Proof.Machine.execRrLarge rd ra rc s
  | .rrLargeq rd ra rc => Sys2Proof.Machine.execRrLargeq rd ra rc s
  | .rrIdx rd ra imm8 => Sys2Proof.Machine.execRrIdx rd ra imm8 s
  | .zivBegin => Sys2Proof.Machine.execZivBegin s
  | .zivBound rd ra rb rc => Sys2Proof.Machine.execZivBound rd ra rb rc s
  | .zivTest rd ra rb => Sys2Proof.Machine.execZivTest rd ra rb s
  | .zivFallback rd ra => Sys2Proof.Machine.execZivFallback rd ra s

end Sys2Proof.Machine
end

