-- ==== Sys2Proof/Machine/Step.lean ====
section
/-! DEFINITION. One step of PXFM-CORE: one transaction of the host, to completion
(spec/00_scope.md R6, R7, spec/30_encoding.md R72, spec/70_reset_and_hazards.md R284, R287). -/

namespace Sys2Proof.Machine

/-- One step: the next transaction is taken, its word decoded (R261 (1)), and the command run, or Illegal
raised on a word that is no command (R263). With nothing sent by the host the unit waits, unchanged: it is
always ready and does nothing by itself (R6, R290, log 1). -/
def step (s : State) : Host.Outcome State Fault Refusal :=
  match s.takeTransaction with
  | none => .next s
  | some (cmd, t) =>
    match decode cmd with
    | .ok i => exec i t
    | .error _ => .next (t.raise .illegal)

/-- The state in which the host's next transaction is the command word whose low `nbits` bits are `w`'s
and whose other bits are 0 (log 1). Its data word is the one at hand, so that taking the transaction gives
back `s` itself. -/
def State.withFetchWord (s : State) (nbits w : Nat) : State :=
  { s with input := { cmd := BitVec.ofNat 32 (w % 2 ^ nbits), wdata := s.wdata } :: s.input }

end Sys2Proof.Machine
end

