-- ==== Sys2Proof/Machine/Asm.lean ====
section
/-! DEFINITION. Assembler syntax of a command, spec/30_encoding.md R77, over the operands of R67 and R70.
There are no pseudo-instructions (R78). -/

namespace Sys2Proof.Machine

/-- An operand as R70 writes it: a register of the file its letter names (R67), or the immediate (R68). -/
inductive Operand where
  | f (r : Reg)
  | d (r : Reg)
  | q (r : Reg)
  | k (r : Reg)
  | imm (v : BitVec 8)
deriving DecidableEq, Repr

/-- The mnemonic of a command (R70). -/
def mnemonicOf : Instr → String
  | .nop => "NOP"
  | .mtf _ => "MTF"
  | .mff _ => "MFF"
  | .mtdh _ => "MTDH"
  | .mtdl _ => "MTDL"
  | .mfdh _ => "MFDH"
  | .mfdl _ => "MFDL"
  | .mtqh _ => "MTQH"
  | .mtql _ => "MTQL"
  | .mtqe _ => "MTQE"
  | .mfqh _ => "MFQH"
  | .mfql _ => "MFQL"
  | .mfqe _ => "MFQE"
  | .mtk _ => "MTK"
  | .mfk _ => "MFK"
  | .mfsr => "MFSR"
  | .mfcfg => "MFCFG"
  | .ldc _ _ => "LDC"
  | .ldcd _ _ => "LDCD"
  | .ddPack _ _ _ => "DD.PACK"
  | .ddHi _ _ => "DD.HI"
  | .ddLo _ _ => "DD.LO"
  | .ddXadd _ _ _ => "DD.XADD"
  | .ddXsub _ _ _ => "DD.XSUB"
  | .ddFxadd _ _ _ => "DD.FXADD"
  | .ddXmul _ _ _ => "DD.XMUL"
  | .ddAdd _ _ _ => "DD.ADD"
  | .ddSub _ _ _ => "DD.SUB"
  | .ddMul _ _ _ => "DD.MUL"
  | .ddQmul _ _ _ => "DD.QMUL"
  | .ddMulf _ _ _ => "DD.MULF"
  | .ddDiv _ _ _ => "DD.DIV"
  | .ddSqrt _ _ => "DD.SQRT"
  | .ddRecip _ _ => "DD.RECIP"
  | .dyFromf _ _ => "DY.FROMF"
  | .dyTof _ _ => "DY.TOF"
  | .dyNorm _ _ => "DY.NORM"
  | .dyAdd _ _ _ => "DY.ADD"
  | .dyMul _ _ _ => "DY.MUL"
  | .dyNeg _ _ => "DY.NEG"
  | .dyRecip _ _ => "DY.RECIP"
  | .dyRecipf _ _ => "DY.RECIPF"
  | .dyDiv _ _ _ => "DY.DIV"
  | .dyRnd _ _ => "DY.RND"
  | .rrSmall _ _ _ => "RR.SMALL"
  | .rrLarge _ _ _ => "RR.LARGE"
  | .rrLargeq _ _ _ => "RR.LARGEQ"
  | .rrIdx _ _ _ => "RR.IDX"
  | .zivBegin => "ZIV.BEGIN"
  | .zivBound _ _ _ _ => "ZIV.BOUND"
  | .zivTest _ _ _ => "ZIV.TEST"
  | .zivFallback _ _ => "ZIV.FALLBACK"

/-- The operands of a command, destination first, in the order R70 shows (R77). -/
def operandsOf : Instr → List Operand
  | .nop => []
  | .mtf rd => [.f rd]
  | .mff ra => [.f ra]
  | .mtdh rd => [.d rd]
  | .mtdl rd => [.d rd]
  | .mfdh ra => [.d ra]
  | .mfdl ra => [.d ra]
  | .mtqh rd => [.q rd]
  | .mtql rd => [.q rd]
  | .mtqe rd => [.q rd]
  | .mfqh ra => [.q ra]
  | .mfql ra => [.q ra]
  | .mfqe ra => [.q ra]
  | .mtk rd => [.k rd]
  | .mfk ra => [.k ra]
  | .mfsr => []
  | .mfcfg => []
  | .ldc rd imm8 => [.f rd, .imm imm8]
  | .ldcd rd imm8 => [.d rd, .imm imm8]
  | .ddPack rd ra rb => [.d rd, .f ra, .f rb]
  | .ddHi rd ra => [.f rd, .d ra]
  | .ddLo rd ra => [.f rd, .d ra]
  | .ddXadd rd ra rb => [.d rd, .f ra, .f rb]
  | .ddXsub rd ra rb => [.d rd, .f ra, .f rb]
  | .ddFxadd rd ra rb => [.d rd, .f ra, .f rb]
  | .ddXmul rd ra rb => [.d rd, .f ra, .f rb]
  | .ddAdd rd ra rb => [.d rd, .d ra, .d rb]
  | .ddSub rd ra rb => [.d rd, .d ra, .d rb]
  | .ddMul rd ra rb => [.d rd, .d ra, .d rb]
  | .ddQmul rd ra rb => [.d rd, .d ra, .d rb]
  | .ddMulf rd ra rb => [.d rd, .d ra, .f rb]
  | .ddDiv rd ra rb => [.d rd, .d ra, .d rb]
  | .ddSqrt rd ra => [.d rd, .d ra]
  | .ddRecip rd ra => [.d rd, .d ra]
  | .dyFromf rd ra => [.q rd, .f ra]
  | .dyTof rd ra => [.f rd, .q ra]
  | .dyNorm rd ra => [.q rd, .q ra]
  | .dyAdd rd ra rb => [.q rd, .q ra, .q rb]
  | .dyMul rd ra rb => [.q rd, .q ra, .q rb]
  | .dyNeg rd ra => [.q rd, .q ra]
  | .dyRecip rd ra => [.q rd, .q ra]
  | .dyRecipf rd ra => [.q rd, .f ra]
  | .dyDiv rd ra rb => [.q rd, .q ra, .q rb]
  | .dyRnd rd ra => [.q rd, .q ra]
  | .rrSmall rd ra rc => [.d rd, .k rc, .f ra]
  | .rrLarge rd ra rc => [.d rd, .k rc, .f ra]
  | .rrLargeq rd ra rc => [.q rd, .k rc, .f ra]
  | .rrIdx rd ra imm8 => [.k rd, .k ra, .imm imm8]
  | .zivBegin => []
  | .zivBound rd ra rb rc => [.f rd, .d ra, .f rb, .f rc]
  | .zivTest rd ra rb => [.f rd, .d ra, .f rb]
  | .zivFallback rd ra => [.f rd, .q ra]

/-- An operand's text: `F0` to `F15`, `D0` to `D15`, `Q0` to `Q15`, `K0` to `K15`, the immediate in decimal
(R77). -/
def operandText : Operand → String
  | .f r => "F" ++ toString r.toNat
  | .d r => "D" ++ toString r.toNat
  | .q r => "Q" ++ toString r.toNat
  | .k r => "K" ++ toString r.toNat
  | .imm v => toString v.toNat

/-- A command's text: mnemonic, a space, operands separated by commas (R77). -/
def assembly (i : Instr) : String :=
  match (operandsOf i).map operandText with
  | [] => mnemonicOf i
  | ops => mnemonicOf i ++ " " ++ ", ".intercalate ops

end Sys2Proof.Machine
end

