-- ==== Sys2Proof/Safety.lean ====
section
/-! DEFINITION. The terms claims about PXFM-CORE are made in: the 112 register components and their valid
bits, what each command reads and writes, how a command ends, the legal values of SR, exact values of the
three number formats, and the contracts of the open parameters. -/

namespace Sys2Proof.Machine

/-! ### Register components (spec/10_state.md R25) -/

/-- A register component: what one valid bit stands for (R25). -/
inductive Component where
  | f (r : Reg)
  | dh (r : Reg)
  | dl (r : Reg)
  | qh (r : Reg)
  | ql (r : Reg)
  | qe (r : Reg)
  | k (r : Reg)
deriving DecidableEq, Repr

/-- The bits a component holds, as the move-from command for it would return them (R25, R233 to R243,
R252). -/
def State.component (s : State) : Component → Word
  | .f r => rget s.f r
  | .dh r => (rget s.d r).hi
  | .dl r => (rget s.d r).lo
  | .qh r => (rget s.q r).mant.extractLsb' 64 64
  | .ql r => (rget s.q r).mant.extractLsb' 0 64
  | .qe r => 0#47 ++ BitVec.ofBool (rget s.q r).sign ++ (rget s.q r).exp
  | .k r => rget s.k r

/-- The valid bit of a component (R25). -/
def State.valid (s : State) : Component → Bool
  | .f r => rget s.vf r
  | .dh r => rget s.vdh r
  | .dl r => rget s.vdl r
  | .qh r => rget s.vqh r
  | .ql r => rget s.vql r
  | .qe r => rget s.vqe r
  | .k r => rget s.vk r

/-- `D[r]` as a pair of words, whatever its valid bits (R9). -/
def State.dreg (s : State) (r : Reg) : DReg := rget s.d r
/-- `Q[r]` as a triple, whatever its valid bits (R9, R151). -/
def State.dyadic (s : State) (r : Reg) : Dy := dyOfReg (rget s.q r)

/-- The three components that together are a Q register, with the bits of `x` (R27). -/
def qWrites (r : Reg) (x : QReg) : List (Component × Word) :=
  [(.qh r, x.mant.extractLsb' 64 64), (.ql r, x.mant.extractLsb' 0 64),
   (.qe r, 0#47 ++ BitVec.ofBool x.sign ++ x.exp)]

/-- The two components that together are a D register, with the words of `x` (R27). -/
def dWrites (r : Reg) (x : DReg) : List (Component × Word) := [(.dh r, x.hi), (.dl r, x.lo)]

/-- The components whose valid bits a command needs (R26, R67). -/
def sourcesOf : Instr → List Component
  | .nop => []
  | .mtf _ => []
  | .mff ra => [.f ra]
  | .mtdh _ => []
  | .mtdl _ => []
  | .mfdh ra => [.dh ra]
  | .mfdl ra => [.dl ra]
  | .mtqh _ => []
  | .mtql _ => []
  | .mtqe _ => []
  | .mfqh ra => [.qh ra]
  | .mfql ra => [.ql ra]
  | .mfqe ra => [.qe ra]
  | .mtk _ => []
  | .mfk ra => [.k ra]
  | .mfsr => []
  | .mfcfg => []
  | .ldc _ _ => []
  | .ldcd _ _ => []
  | .ddPack _ ra rb => [.f ra, .f rb]
  | .ddHi _ ra => [.dh ra]
  | .ddLo _ ra => [.dl ra]
  | .ddXadd _ ra rb => [.f ra, .f rb]
  | .ddXsub _ ra rb => [.f ra, .f rb]
  | .ddFxadd _ ra rb => [.f ra, .f rb]
  | .ddXmul _ ra rb => [.f ra, .f rb]
  | .ddAdd _ ra rb => [.dh ra, .dl ra, .dh rb, .dl rb]
  | .ddSub _ ra rb => [.dh ra, .dl ra, .dh rb, .dl rb]
  | .ddMul _ ra rb => [.dh ra, .dl ra, .dh rb, .dl rb]
  | .ddQmul _ ra rb => [.dh ra, .dl ra, .dh rb, .dl rb]
  | .ddMulf _ ra rb => [.dh ra, .dl ra, .f rb]
  | .ddDiv _ ra rb => [.dh ra, .dl ra, .dh rb, .dl rb]
  | .ddSqrt _ ra => [.dh ra, .dl ra]
  | .ddRecip _ ra => [.dh ra, .dl ra]
  | .dyFromf _ ra => [.f ra]
  | .dyTof _ ra => [.qh ra, .ql ra, .qe ra]
  | .dyNorm _ ra => [.qh ra, .ql ra, .qe ra]
  | .dyAdd _ ra rb => [.qh ra, .ql ra, .qe ra, .qh rb, .ql rb, .qe rb]
  | .dyMul _ ra rb => [.qh ra, .ql ra, .qe ra, .qh rb, .ql rb, .qe rb]
  | .dyNeg _ ra => [.qh ra, .ql ra, .qe ra]
  | .dyRecip _ ra => [.qh ra, .ql ra, .qe ra]
  | .dyRecipf _ ra => [.f ra]
  | .dyDiv _ ra rb => [.qh ra, .ql ra, .qe ra, .qh rb, .ql rb, .qe rb]
  | .dyRnd _ ra => [.qh ra, .ql ra, .qe ra]
  | .rrSmall _ ra _ => [.f ra]
  | .rrLarge _ ra _ => [.f ra]
  | .rrLargeq _ ra _ => [.f ra]
  | .rrIdx _ ra _ => [.k ra]
  | .zivBegin => []
  | .zivBound _ ra rb rc => [.dh ra, .dl ra, .f rb, .f rc]
  | .zivTest _ ra rb => [.dh ra, .dl ra, .f rb]
  | .zivFallback _ ra => [.qh ra, .ql ra, .qe ra]

/-- The components a command may write (R27, R67); ZIV.TEST writes its one only when it accepts (R214). -/
def destsOf : Instr → List Component
  | .nop => []
  | .mtf rd => [.f rd]
  | .mff _ => []
  | .mtdh rd => [.dh rd]
  | .mtdl rd => [.dl rd]
  | .mfdh _ => []
  | .mfdl _ => []
  | .mtqh rd => [.qh rd]
  | .mtql rd => [.ql rd]
  | .mtqe rd => [.qe rd]
  | .mfqh _ => []
  | .mfql _ => []
  | .mfqe _ => []
  | .mtk rd => [.k rd]
  | .mfk _ => []
  | .mfsr => []
  | .mfcfg => []
  | .ldc rd _ => [.f rd]
  | .ldcd rd _ => [.dh rd, .dl rd]
  | .ddPack rd _ _ => [.dh rd, .dl rd]
  | .ddHi rd _ => [.f rd]
  | .ddLo rd _ => [.f rd]
  | .ddXadd rd _ _ => [.dh rd, .dl rd]
  | .ddXsub rd _ _ => [.dh rd, .dl rd]
  | .ddFxadd rd _ _ => [.dh rd, .dl rd]
  | .ddXmul rd _ _ => [.dh rd, .dl rd]
  | .ddAdd rd _ _ => [.dh rd, .dl rd]
  | .ddSub rd _ _ => [.dh rd, .dl rd]
  | .ddMul rd _ _ => [.dh rd, .dl rd]
  | .ddQmul rd _ _ => [.dh rd, .dl rd]
  | .ddMulf rd _ _ => [.dh rd, .dl rd]
  | .ddDiv rd _ _ => [.dh rd, .dl rd]
  | .ddSqrt rd _ => [.dh rd, .dl rd]
  | .ddRecip rd _ => [.dh rd, .dl rd]
  | .dyFromf rd _ => [.qh rd, .ql rd, .qe rd]
  | .dyTof rd _ => [.f rd]
  | .dyNorm rd _ => [.qh rd, .ql rd, .qe rd]
  | .dyAdd rd _ _ => [.qh rd, .ql rd, .qe rd]
  | .dyMul rd _ _ => [.qh rd, .ql rd, .qe rd]
  | .dyNeg rd _ => [.qh rd, .ql rd, .qe rd]
  | .dyRecip rd _ => [.qh rd, .ql rd, .qe rd]
  | .dyRecipf rd _ => [.qh rd, .ql rd, .qe rd]
  | .dyDiv rd _ _ => [.qh rd, .ql rd, .qe rd]
  | .dyRnd rd _ => [.qh rd, .ql rd, .qe rd]
  | .rrSmall rd _ rc => [.dh rd, .dl rd, .k rc]
  | .rrLarge rd _ rc => [.dh rd, .dl rd, .k rc]
  | .rrLargeq rd _ rc => [.qh rd, .ql rd, .qe rd, .k rc]
  | .rrIdx rd _ _ => [.k rd]
  | .zivBegin => []
  | .zivBound rd _ _ _ => [.f rd]
  | .zivTest rd _ _ => [.f rd]
  | .zivFallback rd _ => [.f rd]

/-- The phase a ZIV command needs, for the three that need one (R211). -/
def phaseOf : Instr → Option Phase
  | .nop => none
  | .mtf _ => none
  | .mff _ => none
  | .mtdh _ => none
  | .mtdl _ => none
  | .mfdh _ => none
  | .mfdl _ => none
  | .mtqh _ => none
  | .mtql _ => none
  | .mtqe _ => none
  | .mfqh _ => none
  | .mfql _ => none
  | .mfqe _ => none
  | .mtk _ => none
  | .mfk _ => none
  | .mfsr => none
  | .mfcfg => none
  | .ldc _ _ => none
  | .ldcd _ _ => none
  | .ddPack _ _ _ => none
  | .ddHi _ _ => none
  | .ddLo _ _ => none
  | .ddXadd _ _ _ => none
  | .ddXsub _ _ _ => none
  | .ddFxadd _ _ _ => none
  | .ddXmul _ _ _ => none
  | .ddAdd _ _ _ => none
  | .ddSub _ _ _ => none
  | .ddMul _ _ _ => none
  | .ddQmul _ _ _ => none
  | .ddMulf _ _ _ => none
  | .ddDiv _ _ _ => none
  | .ddSqrt _ _ => none
  | .ddRecip _ _ => none
  | .dyFromf _ _ => none
  | .dyTof _ _ => none
  | .dyNorm _ _ => none
  | .dyAdd _ _ _ => none
  | .dyMul _ _ _ => none
  | .dyNeg _ _ => none
  | .dyRecip _ _ => none
  | .dyRecipf _ _ => none
  | .dyDiv _ _ _ => none
  | .dyRnd _ _ => none
  | .rrSmall _ _ _ => none
  | .rrLarge _ _ _ => none
  | .rrLargeq _ _ _ => none
  | .rrIdx _ _ _ => none
  | .zivBegin => none
  | .zivBound _ _ _ _ => some .fast
  | .zivTest _ _ _ => some .bound
  | .zivFallback _ _ => some .escalate

/-- The four commands of the escalation mux, which alone touch PHASE, ACC and ESC (R211, R218). -/
def isZiv : Instr → Bool
  | .nop => false
  | .mtf _ => false
  | .mff _ => false
  | .mtdh _ => false
  | .mtdl _ => false
  | .mfdh _ => false
  | .mfdl _ => false
  | .mtqh _ => false
  | .mtql _ => false
  | .mtqe _ => false
  | .mfqh _ => false
  | .mfql _ => false
  | .mfqe _ => false
  | .mtk _ => false
  | .mfk _ => false
  | .mfsr => false
  | .mfcfg => false
  | .ldc _ _ => false
  | .ldcd _ _ => false
  | .ddPack _ _ _ => false
  | .ddHi _ _ => false
  | .ddLo _ _ => false
  | .ddXadd _ _ _ => false
  | .ddXsub _ _ _ => false
  | .ddFxadd _ _ _ => false
  | .ddXmul _ _ _ => false
  | .ddAdd _ _ _ => false
  | .ddSub _ _ _ => false
  | .ddMul _ _ _ => false
  | .ddQmul _ _ _ => false
  | .ddMulf _ _ _ => false
  | .ddDiv _ _ _ => false
  | .ddSqrt _ _ => false
  | .ddRecip _ _ => false
  | .dyFromf _ _ => false
  | .dyTof _ _ => false
  | .dyNorm _ _ => false
  | .dyAdd _ _ _ => false
  | .dyMul _ _ _ => false
  | .dyNeg _ _ => false
  | .dyRecip _ _ => false
  | .dyRecipf _ _ => false
  | .dyDiv _ _ _ => false
  | .dyRnd _ _ => false
  | .rrSmall _ _ _ => false
  | .rrLarge _ _ _ => false
  | .rrLargeq _ _ _ => false
  | .rrIdx _ _ _ => false
  | .zivBegin => true
  | .zivBound _ _ _ _ => true
  | .zivTest _ _ _ => true
  | .zivFallback _ _ => true

/-! ### How a command ends (spec/60_exceptions.md R260 to R262) -/

/-- `t` is `s` after a command that completed: it wrote exactly the components of `writes`, each with its
value, and made them valid; every other component and valid bit is unchanged; SR became `sr`; STATUS 0 and
`rdata` were returned; the host's side is otherwise unchanged. -/
structure Completed (s t : State) (writes : List (Component × Word)) (sr : Status) (rdata : Word) :
    Prop where
  written : ∀ p ∈ writes, t.component p.1 = p.2 ∧ t.valid p.1 = true
  untouched : ∀ c, c ∉ writes.map Prod.fst → t.component c = s.component c ∧ t.valid c = s.valid c
  status : t.sr = sr
  response : t.output = s.output ++ [{ status := 0, rdata := rdata }]
  pending : t.input = s.input ∧ t.wdata = s.wdata

/-- `t` is `s` after a command that raised `x` (R262): no component and no valid bit changed, the sticky
bit of `x` (bit 8 + STATUS, R260) was set and no other bit of SR changed, STATUS the code of `x` and RDATA 0
were returned. -/
structure Faulted (s t : State) (x : CmdFault) : Prop where
  untouched : ∀ c, t.component c = s.component c ∧ t.valid c = s.valid c
  status : t.sr.toWord = s.sr.toWord ||| (1#64 <<< (8 + x.code.toNat))
  response : t.output = s.output ++ [{ status := x.code, rdata := 0 }]
  pending : t.input = s.input ∧ t.wdata = s.wdata

/-- A run in which no fault occurred: SR[13:9] = 0 (R33). -/
def faultFree (s : State) : Prop := s.sr.toWord.extractLsb' 9 5 = 0

/-! ### Legal values of SR (spec/10_state.md R31, R32, spec/44_escalation_mux.md R211, R220) -/

/-- SR[4:0] is one of the six values the protocol gives it between commands: 0x00 before any call, 0x01
and 0x02 in the fast tier, 0x0D accepted, 0x14 rejected, 0x15 returned through the fallback. -/
def srLegal (sr : Status) : Prop :=
  sr.toWord.extractLsb' 0 5 ∈ [0x00#5, 0x01#5, 0x02#5, 0x0D#5, 0x14#5, 0x15#5]

/-- The invariant of the phase machine, of a state. -/
def phaseInvariant (s : State) : Prop := srLegal s.sr

/-! ### Unobservable contents (spec/70_reset_and_hazards.md R281) -/

/-- Two states that differ at most in the contents of components whose valid bit is 0 (R281). -/
structure AgreeOnValid (s t : State) : Prop where
  valid : ∀ c, s.valid c = t.valid c
  content : ∀ c, s.valid c = true → s.component c = t.component c
  status : s.sr = t.sr
  output : s.output = t.output
  pending : s.input = t.input ∧ s.wdata = t.wdata

/-! ### Exact values (spec/00_scope.md R10, spec/40_f64_datapath.md R90) -/

/-- `val(w)` of a finite binary64 word (R90); a word that is not finite has no value, and this is then a
number nothing may be concluded from. -/
def fval (w : F64) : ℚ :=
  (if fsign w then -1 else 1) *
    (if fexp w = 0 then (ffrac w : ℚ) * (2 : ℚ) ^ (-1074 : ℤ)
     else ((2 : ℚ) ^ 52 + ffrac w) * (2 : ℚ) ^ ((fexp w : ℤ) - 1075))

/-- RN64 of a rational number by its value; `s` is the sign of an exact zero (R10, R93). -/
def rnQ (q : ℚ) (s : Bool) : F64 := rn64 q.num q.den s

/-- `val(hi) + val(lo)` (R10). -/
def ddVal (x : DReg) : ℚ := fval x.hi + fval x.lo

/-- `(-1)^sign · mant · 2^exp` (R10, R23). -/
def dyVal (x : Dy) : ℚ := (if x.s then -1 else 1) * x.m * (2 : ℚ) ^ x.e

/-- The same of a Q register. -/
def qVal (q : QReg) : ℚ := dyVal (dyOfReg q)

/-- A Q register is normalized: `mant = 0` or `mant[127] = 1` (R23). -/
def qNormalized (q : QReg) : Prop := q.mant = 0 ∨ q.mant.getLsbD 127 = true

/-- A triple whose fields fit a Q register: the mantissa below 2^128, the exponent in the 16-bit range
(R23, R151). -/
def dyFits (x : Dy) : Prop := x.m < 2 ^ 128 ∧ -32768 ≤ x.e ∧ x.e ≤ 32767

/-! ### Contracts of the open parameters (spec/43_range_reduction.md R194 to R196)

The bounds are real numbers that appear only as hypotheses (spec/93_implementation_defined.md U6). -/

/-- What RR_SMALL_BOUND promises: below 2^SMALL_EXP the small path's residual is within it of
`x - k·pi/128` (R194). -/
def smallContract (bound : ℝ) : Prop :=
  ∀ x : F64, isFinite x = true → |fval x| < 2 ^ Config.smallExp →
    |(fval x : ℝ) - ((f64ToInt (smallKd x)).toInt : ℝ) * Real.pi / 128
      - (ddVal (smallResidual x (smallKd x)) : ℝ)| ≤ bound

/-- What `rr_large` promises with RR_LARGE_BOUND (R195). -/
def largeContract (bound : ℝ) : Prop :=
  ∀ x : F64, isFinite x = true →
    let r := Config.rrLarge x
    let v : ℝ := (ddVal { hi := wordOfFinite r.hi, lo := wordOfFinite r.lo } : ℝ)
    (∃ k : ℤ, k % 256 = r.k.toInt % 256 ∧ |(fval x : ℝ) - (k : ℝ) * Real.pi / 128 - v| ≤ bound) ∧
      |v| ≤ Real.pi / 256 + bound

/-- What `rr_large_q` promises with RR_LARGEQ_BOUND (R196). -/
def largeQContract (bound : ℝ) : Prop :=
  ∀ x : F64, isFinite x = true →
    let r := Config.rrLargeQ x
    let v : ℝ := (qVal (regOfNormal r.q) : ℝ)
    (∃ k : ℤ, k % 256 = r.k.toInt % 256 ∧ |(fval x : ℝ) - (k : ℝ) * Real.pi / 128 - v| ≤ bound) ∧
      |v| ≤ Real.pi / 256 + bound

end Sys2Proof.Machine
end

