-- ==== Sys2Proof/Certificates/Slice0/Obligations.lean ====
section
/-! DEFINITION. The statements about PXFM-CORE for the provers. A statement about a command concludes that
`exec` answers a next state and says all of that state: `Completed` (what was written, that every other
component, valid bit and field of SR is unchanged, and the response) or `Faulted` (nothing but the sticky
bit of the fault and the response). Bit-string equations such as `0x20#8 ++ rd ++ ra ++ rb ++ 0#12` are the
encoding tables of spec/30_encoding.md R65, R66, R70. -/

open Sys2Proof Sys2Proof.Machine

/-! ### Encoding -/

/-- Every command is what its encoded word decodes to, every operand at every value (R65, R66, R70, R72). -/
def Obligations.DecodeOfEncodeIsTheCommand : Prop :=
  ∀ i : Instr, i.wellFormed = true → decode (encode i) = .ok i

/-- No bit of a legal word is ignored: the word is the encoding of the command read from it (R73), so no
word decodes to two commands and no two words to one (R72). -/
def Obligations.EncodeOfDecodeIsTheWord : Prop :=
  ∀ (w : Cmd) (i : Instr), decode w = .ok i → i.wellFormed = true ∧ encode i = w

/-- R72: a word is command i exactly when its opcode is that of i, its masked bits are i's match word and
its other bits are i's fields; every other word raises Illegal and does nothing else. Opcodes are distinct. -/
def Obligations.DecodingIsTheMaskAndMatchTable : Prop :=
  (∀ (w : Cmd) (i : Instr), decode w = .ok i ↔
    (i.wellFormed = true ∧ opOf w = i.opcode ∧ w &&& i.format.mask = i.matchWord ∧
      encode i &&& ~~~i.format.mask = w &&& ~~~i.format.mask)) ∧
  (∀ (s : State) (w : Cmd) (d : Word) (rest : List Transaction), s.input = ⟨w, d⟩ :: rest →
    (∀ i, decode w ≠ .ok i) →
    ∃ t, step s = .next t ∧ Faulted { s with input := rest, wdata := d } t .illegal) ∧
  (∀ i j : Instr, i.opcode = j.opcode → mnemonicOf i = mnemonicOf j)

/-- R74: the reserved opcodes are the 204 values of its ranges, and a word with one of them raises Illegal. -/
def Obligations.ReservedOpcodesAreIllegal : Prop :=
  let reserved : BitVec 8 → Bool := fun op =>
    (0x16 ≤ op.toNat && op.toNat ≤ 0x1F) || (0x24 ≤ op.toNat && op.toNat ≤ 0x2F)
      || (0x38 ≤ op.toNat && op.toNat ≤ 0x3F) || (0x4A ≤ op.toNat && op.toNat ≤ 0x4F)
      || (0x54 ≤ op.toNat && op.toNat ≤ 0x5F) || 0x64 ≤ op.toNat
  ((List.range 256).countP (fun n => reserved (BitVec.ofNat 8 n)) = 204) ∧
  (∀ op : BitVec 8, reserved op = true ↔ ∀ i : Instr, i.opcode ≠ op) ∧
  (∀ (s : State) (w : Cmd) (d : Word) (rest : List Transaction), s.input = ⟨w, d⟩ :: rest →
    reserved (opOf w) = true →
    ∃ t, step s = .next t ∧ Faulted { s with input := rest, wdata := d } t .illegal)

/-- Words written out in the spec decode to the commands it says (R77 and the examples of R73, R75, R232,
R248, R249, R263, and of 95_test_vectors P1, P2 and P4). -/
def Obligations.SpecWordsDecodeAsWritten : Prop :=
  decode 0x00000000 = .ok .nop ∧ decode 0x01500000 = .ok (.mtf 5) ∧
  decode 0x0E030000 = .ok (.mfk 3) ∧ decode 0x12200001 = .ok (.ldcd 2 1) ∧
  decode 0x13001000 = .ok (.ddPack 0 0 1) ∧ decode 0x30312000 = .ok (.ddAdd 3 1 2) ∧
  decode 0x34210000 = .ok (.ddMulf 2 1 0) ∧ decode 0x43332000 = .ok (.dyAdd 3 3 2) ∧
  decode 0x50000000 = .ok (.rrSmall 0 0 0) ∧ decode 0x53200040 = .ok (.rrIdx 2 0 64) ∧
  decode 0x61412300 = .ok (.zivBound 4 1 2 3) ∧ decode 0x63530000 = .ok (.zivFallback 5 3) ∧
  (∀ i, decode 0x00000001 ≠ .ok i) ∧ (∀ i, decode 0x36111000 ≠ .ok i) ∧
  (∀ i, decode 0x12000080 ≠ .ok i) ∧ (∀ i, decode 0xFF000000 ≠ .ok i)

/-! ### The machine as a whole -/

/-- A step takes the host's next transaction, puts its data word at hand and runs the command its word
decodes to; with none sent the unit waits unchanged (the model's choice, log 1). -/
def Obligations.StepRunsTheDecodedCommand : Prop :=
  (∀ (s : State) (w : Cmd) (d : Word) (rest : List Transaction) (i : Instr),
    s.input = ⟨w, d⟩ :: rest → decode w = .ok i →
    step s = exec i { s with input := rest, wdata := d }) ∧
  (∀ s : State, s.input = [] → step s = .next s) ∧
  (∀ (s : State) (i : Instr), i.wellFormed = true →
    step (s.withFetchWord 32 (encode i).toNat) = exec i s)

/-- R260: a step that takes a transaction returns exactly one response, STATUS 0 or the code of one of the
five faults, RDATA 0 with a fault; and no step stops the machine (R286, R290). That responses are kept in a
list is the model's choice (log 2). -/
def Obligations.EveryTransactionGetsOneResponse : Prop :=
  (∀ s : State, ∃ t, step s = .next t) ∧
  (∀ (s t : State) (x : Transaction) (rest : List Transaction), s.input = x :: rest →
    step s = .next t → t.input = rest ∧
    ∃ r : Response, t.output = s.output ++ [r] ∧ r.status.toNat ≤ 5 ∧ (r.status ≠ 0 → r.rdata = 0))

/-- R262: a command either completes with STATUS 0 and every sticky fault bit as it was, or raises one fault
and does nothing else: no component and no valid bit changes, PHASE, ACC, ESC and OF are unchanged, one
sticky bit is set, STATUS is its code and RDATA is 0. -/
def Obligations.FaultsDoNothingElse : Prop :=
  ∀ (i : Instr) (s t : State), exec i s = .next t →
    (∃ rdata, t.output = s.output ++ [⟨0, rdata⟩] ∧
      t.sr.toWord.extractLsb' 9 5 = s.sr.toWord.extractLsb' 9 5) ∨
    (∃ x : CmdFault, Faulted s t x ∧ t.sr.toWord.extractLsb' 0 9 = s.sr.toWord.extractLsb' 0 9)

/-- R260, R169: which commands raise which fault. Only a ZIV command that needs a phase raises Sequence, only
a command that reads a register Uninit, only the seven of R266 Domain, only the four of R267 ExpRange; and a
decoded command never raises Illegal. -/
def Obligations.OnlyTheListedCommandsRaiseEachFault : Prop :=
  ∀ (i : Instr) (s t : State) (x : CmdFault), i.wellFormed = true → exec i s = .next t →
    Faulted s t x →
    (x ≠ .illegal) ∧
    (x = .sequence → mnemonicOf i ∈ ["ZIV.BOUND", "ZIV.TEST", "ZIV.FALLBACK"]) ∧
    (x = .uninit → sourcesOf i ≠ []) ∧
    (x = .domain → mnemonicOf i ∈
      ["DY.FROMF", "DY.RECIP", "DY.RECIPF", "DY.DIV", "RR.SMALL", "RR.LARGE", "RR.LARGEQ"]) ∧
    (x = .expRange → mnemonicOf i ∈ ["DY.NORM", "DY.ADD", "DY.MUL", "DY.DIV"])

/-- The phase machine's invariant is kept by every step, from every state that has it: SR[4:0] stays one of
0x00, 0x01, 0x02, 0x0D, 0x14, 0x15. So PHASE 3, 6 and 7 are never seen (R31), ACC and ESC are never both 1
(R32), and a call ends in 0x0D or 0x15 (R220 (d)). -/
def Obligations.StepKeepsThePhaseInvariant : Prop :=
  ∀ s t : State, phaseInvariant s → step s = .next t → phaseInvariant t

/-- The phase machine's invariant holds at reset (R36). -/
def Obligations.PhaseInvariantHoldsAtReset : Prop := phaseInvariant State.reset

/-- R33: bits 8 to 13 of SR are sticky over every step, so that SR[13:9] = 0 at the end of a run says that no
fault occurred anywhere in it: every response of the run has STATUS 0. And the bits R30 gives no name read
as 0. -/
def Obligations.StickyBitsStaySet : Prop :=
  (∀ (s t : State) (n : Nat), step s = .next t → 8 ≤ n → n ≤ 13 →
    s.sr.toWord.getLsbD n = true → t.sr.toWord.getLsbD n = true) ∧
  (∀ (n : Nat) (s t : State), Sys2Proof.core.run n s = .next t → faultFree t →
    ∃ rs : List Response, t.output = s.output ++ rs ∧ ∀ r ∈ rs, r.status = 0) ∧
  (∀ (sr : Status) (n : Nat), (5 ≤ n ∧ n ≤ 7) ∨ 14 ≤ n → sr.toWord.getLsbD n = false)

/-- R25: a valid bit, once set, stays set over every step. -/
def Obligations.ValidBitsStaySet : Prop :=
  ∀ (s t : State) (c : Component), step s = .next t → s.valid c = true → t.valid c = true

/-- R281, which the spec marks as its own inference from R26 and R27 (the values at reset are the model's, log
4): two machines that differ only in the contents of components never written go through any number of steps
alike: the same valid bits, the same SR, the same responses. -/
def Obligations.UnwrittenContentsAreUnobservable : Prop :=
  ∀ (n : Nat) (s t : State), AgreeOnValid s t →
    ∃ s' t', Sys2Proof.core.run n s = .next s' ∧ Sys2Proof.core.run n t = .next t' ∧
      AgreeOnValid s' t'

/-- The frame of the whole command set: only a command's destinations change (R27); of SR, PHASE changes only
under a ZIV command, ACC and ESC only under ZIV.BEGIN and ZIV.TEST, OF only under DY.TOF and ZIV.FALLBACK, and
a bit of 13:9 only when the command raised the fault that bit records (R30, R211); and no command touches the
host's pending transactions. The bits R30 gives no name are always 0 (StickyBitsStaySet). -/
def Obligations.OnlyDestinationsChange : Prop :=
  ∀ (i : Instr) (s t : State), exec i s = .next t →
    (∀ c, c ∉ destsOf i → t.component c = s.component c ∧ t.valid c = s.valid c) ∧
    (isZiv i = false → t.sr.phase = s.sr.phase) ∧
    (mnemonicOf i ∉ ["ZIV.BEGIN", "ZIV.TEST"] → t.sr.acc = s.sr.acc ∧ t.sr.esc = s.sr.esc) ∧
    (mnemonicOf i ∉ ["DY.TOF", "ZIV.FALLBACK"] → t.sr.ovf = s.sr.ovf) ∧
    (∀ n, 9 ≤ n → n ≤ 13 → t.sr.toWord.getLsbD n ≠ s.sr.toWord.getLsbD n →
      ∃ x : CmdFault, n = 8 + x.code.toNat ∧ Faulted s t x) ∧
    t.input = s.input ∧ t.wdata = s.wdata

/-- R26, R265: a command whose needed valid bit is 0 raises Uninit and does nothing else, whatever the other
sources hold, once its phase check (if it has one) has passed; and Uninit is raised for an unwritten source
only, so destinations are never checked. -/
def Obligations.UnwrittenSourceRaisesUninit : Prop :=
  (∀ (i : Instr) (s : State) (c : Component), c ∈ sourcesOf i → s.valid c = false →
    (∀ p, phaseOf i = some p → s.sr.phase = p) →
    ∃ t, exec i s = .next t ∧ Faulted s t .uninit) ∧
  (∀ (i : Instr) (s t : State), exec i s = .next t → Faulted s t .uninit →
    ∃ c ∈ sourcesOf i, s.valid c = false)

/-- R264: ZIV.BOUND outside FAST, ZIV.TEST outside BOUND and ZIV.FALLBACK outside ESCALATE raise Sequence,
before any valid bit is looked at; nothing else does, so ZIV.BEGIN never; and the rule's example from
reset. -/
def Obligations.OutOfPhaseCommandRaisesSequence : Prop :=
  (∀ (rd ra rb rc : Reg) (s : State), s.sr.phase ≠ .fast →
    ∃ t, exec (.zivBound rd ra rb rc) s = .next t ∧ Faulted s t .sequence) ∧
  (∀ (rd ra rb : Reg) (s : State), s.sr.phase ≠ .bound →
    ∃ t, exec (.zivTest rd ra rb) s = .next t ∧ Faulted s t .sequence) ∧
  (∀ (rd ra : Reg) (s : State), s.sr.phase ≠ .escalate →
    ∃ t, exec (.zivFallback rd ra) s = .next t ∧ Faulted s t .sequence) ∧
  (∀ (i : Instr) (s t : State), exec i s = .next t → Faulted s t .sequence →
    ∃ p, phaseOf i = some p ∧ s.sr.phase ≠ p) ∧
  phaseOf .zivBegin = none ∧
  (∃ t, step (State.reset.withFetchWord 32 0x62514000) = .next t ∧
    t.output = [⟨2, 0⟩] ∧ t.sr.toWord = 0x0000000000000400)

/-- R218: outside the escalation mux nothing depends on PHASE, ACC or ESC: changing them before a command is
changing them after it. MFSR, which returns them, is left out. -/
def Obligations.PhaseMattersOnlyToTheMux : Prop :=
  ∀ (i : Instr) (s t : State) (p : Phase) (a e : Bool), isZiv i = false → i ≠ .mfsr →
    exec i s = .next t →
    exec i (s.setSr { s.sr with phase := p, acc := a, esc := e }) =
      .next (t.setSr { t.sr with phase := p, acc := a, esc := e })

/-- R36: after reset all 112 valid bits are 0 and SR is 0; CFG is `0x0000010000801007`, and CROM words 0 to 3
are the constants of R52 in every state. -/
def Obligations.ResetIsAsSpecified : Prop :=
  (∀ c : Component, State.reset.valid c = false) ∧ State.reset.sr.toWord = 0 ∧
  cfgWord = 0x0000010000801007 ∧
  crom 0 = 0x40445F306DC9C883 ∧ crom 1 = 0xBF9921FB54400000 ∧ crom 2 = 0xBD70B4611A600000 ∧
  crom 3 = 0xBB43198A2E037073

/-! ### Transfer, load and status commands -/

/-- The seven move-to commands store WDATA unchanged in one component, set only its valid bit, and change
nothing else (R230, R232, R234, R235, R238, R239, R240, R244). -/
def Obligations.MoveToCommandsStoreTheDataWord : Prop :=
  ∀ (rd : Reg) (s : State),
    (encode (.mtf rd) = 0x01#8 ++ rd ++ 0#20 ∧
      ∃ t, exec (.mtf rd) s = .next t ∧ Completed s t [(.f rd, s.wdata)] s.sr 0) ∧
    (encode (.mtdh rd) = 0x03#8 ++ rd ++ 0#20 ∧
      ∃ t, exec (.mtdh rd) s = .next t ∧ Completed s t [(.dh rd, s.wdata)] s.sr 0) ∧
    (encode (.mtdl rd) = 0x04#8 ++ rd ++ 0#20 ∧
      ∃ t, exec (.mtdl rd) s = .next t ∧ Completed s t [(.dl rd, s.wdata)] s.sr 0) ∧
    (encode (.mtqh rd) = 0x07#8 ++ rd ++ 0#20 ∧
      ∃ t, exec (.mtqh rd) s = .next t ∧ Completed s t [(.qh rd, s.wdata)] s.sr 0) ∧
    (encode (.mtql rd) = 0x08#8 ++ rd ++ 0#20 ∧
      ∃ t, exec (.mtql rd) s = .next t ∧ Completed s t [(.ql rd, s.wdata)] s.sr 0) ∧
    (encode (.mtqe rd) = 0x09#8 ++ rd ++ 0#20 ∧
      ∃ t, exec (.mtqe rd) s = .next t ∧
        Completed s t [(.qe rd, s.wdata &&& 0x000000000001FFFF)] s.sr 0) ∧
    (encode (.mtk rd) = 0x0D#8 ++ rd ++ 0#20 ∧
      ∃ t, exec (.mtk rd) s = .next t ∧ Completed s t [(.k rd, s.wdata)] s.sr 0)

/-- The seven move-from commands on a register return the component, need its valid bit only, and change
nothing (R230, R233, R236, R237, R241, R242, R243, R252). -/
def Obligations.MoveFromCommandsReturnTheComponent : Prop :=
  ∀ (ra : Reg) (s : State),
    (s.valid (.f ra) = true →
      ∃ t, exec (.mff ra) s = .next t ∧ Completed s t [] s.sr (s.component (.f ra))) ∧
    (s.valid (.dh ra) = true →
      ∃ t, exec (.mfdh ra) s = .next t ∧ Completed s t [] s.sr (s.component (.dh ra))) ∧
    (s.valid (.dl ra) = true →
      ∃ t, exec (.mfdl ra) s = .next t ∧ Completed s t [] s.sr (s.component (.dl ra))) ∧
    (s.valid (.qh ra) = true →
      ∃ t, exec (.mfqh ra) s = .next t ∧ Completed s t [] s.sr (s.component (.qh ra))) ∧
    (s.valid (.ql ra) = true →
      ∃ t, exec (.mfql ra) s = .next t ∧ Completed s t [] s.sr (s.component (.ql ra))) ∧
    (s.valid (.qe ra) = true →
      ∃ t, exec (.mfqe ra) s = .next t ∧ Completed s t [] s.sr (s.component (.qe ra))) ∧
    (s.valid (.k ra) = true →
      ∃ t, exec (.mfk ra) s = .next t ∧ Completed s t [] s.sr (s.component (.k ra)))

/-- NOP changes nothing (R231); MFSR returns SR, before any effect of its own, and clears nothing (R245);
MFCFG returns the constant (R246): in every state, with the words and examples of those rules; a word of one
of the three opcodes with any other bit set raises Illegal. The bits of SR are those of R30. -/
def Obligations.NopAndTheControlRegisterReads : Prop :=
  (∀ s : State, ∃ t, exec .nop s = .next t ∧ Completed s t [] s.sr 0) ∧
  (∀ s : State, ∃ t, exec .mfsr s = .next t ∧ Completed s t [] s.sr s.sr.toWord) ∧
  (∀ s : State, ∃ t, exec .mfcfg s = .next t ∧ Completed s t [] s.sr 0x0000010000801007) ∧
  decode 0x00000000 = .ok .nop ∧ decode 0x0F000000 = .ok .mfsr ∧ decode 0x10000000 = .ok .mfcfg ∧
  (∀ (s : State) (w : Cmd) (d : Word) (rest : List Transaction), s.input = ⟨w, d⟩ :: rest →
    opOf w = 0x00 ∨ opOf w = 0x0F ∨ opOf w = 0x10 → w.extractLsb' 0 24 ≠ 0 →
    ∃ t, step s = .next t ∧ Faulted { s with input := rest, wdata := d } t .illegal) ∧
  State.reset.sr.toWord = 0 ∧
  (Status.accepted { Status.reset with phase := .bound }).toWord = 0x000000000000000D ∧
  (∀ sr : Status, sr.toWord.extractLsb' 0 3 = sr.phase.code ∧ sr.toWord.getLsbD 3 = sr.acc ∧
    sr.toWord.getLsbD 4 = sr.esc ∧ sr.toWord.getLsbD 8 = sr.ovf ∧ sr.toWord.getLsbD 9 = sr.ill ∧
    sr.toWord.getLsbD 10 = sr.seq ∧ sr.toWord.getLsbD 11 = sr.uninit ∧
    sr.toWord.getLsbD 12 = sr.dom ∧ sr.toWord.getLsbD 13 = sr.expr)

/-- LDC loads a ROM word and LDCD a ROM pair, the low word at the even index (R53, R247, R248); an LDCD term
whose index is above 127 is no command and raises Illegal (R75; that the term has a meaning at all is the model's choice, log 12). -/
def Obligations.RomLoadsCopyTheWords : Prop :=
  (∀ (rd : Reg) (imm8 : BitVec 8) (s : State),
    ∃ t, exec (.ldc rd imm8) s = .next t ∧ Completed s t [(.f rd, crom imm8)] s.sr 0) ∧
  (∀ (rd : Reg) (p : BitVec 8) (s : State), p.toNat < 128 →
    ∃ t, exec (.ldcd rd p) s = .next t ∧
      Completed s t [(.dh rd, crom (BitVec.ofNat 8 (2 * p.toNat + 1))),
        (.dl rd, crom (BitVec.ofNat 8 (2 * p.toNat)))] s.sr 0) ∧
  (∀ (rd : Reg) (p : BitVec 8) (s : State), 128 ≤ p.toNat →
    ∃ t, exec (.ldcd rd p) s = .next t ∧ Faulted s t .illegal)

/-- DD.PACK, DD.HI and DD.LO move words between the F and D files; DD.HI and DD.LO need only the word they
read (R249, R250, R251). -/
def Obligations.PackAndUnpackMoveWords : Prop :=
  (∀ (rd ra rb : Reg) (s : State), s.valid (.f ra) = true → s.valid (.f rb) = true →
    ∃ t, exec (.ddPack rd ra rb) s = .next t ∧
      Completed s t [(.dh rd, s.component (.f ra)), (.dl rd, s.component (.f rb))] s.sr 0) ∧
  (∀ (rd ra : Reg) (s : State), s.valid (.dh ra) = true →
    ∃ t, exec (.ddHi rd ra) s = .next t ∧ Completed s t [(.f rd, s.component (.dh ra))] s.sr 0) ∧
  (∀ (rd ra : Reg) (s : State), s.valid (.dl ra) = true →
    ∃ t, exec (.ddLo rd ra) s = .next t ∧ Completed s t [(.f rd, s.component (.dl ra))] s.sr 0)

/-! ### The double-double unit -/

/-- DD.XADD, DD.XSUB, DD.FXADD and DD.XMUL write the pairs their sequences give, whatever the operands
(R121, R122, R123, and R124 with HAS_FMA = 1). -/
def Obligations.ExactTransformsRunTheirSequences : Prop :=
  ∀ (rd ra rb : Reg) (s : State), s.valid (.f ra) = true → s.valid (.f rb) = true →
    let a := s.component (.f ra)
    let b := s.component (.f rb)
    (let hi := fadd a b
     let t := fsub hi a
     let lo := fsub b t
     ∃ u, exec (.ddXadd rd ra rb) s = .next u ∧ Completed s u [(.dh rd, hi), (.dl rd, lo)] s.sr 0) ∧
    (let hi := fsub a b
     let t := fsub a hi
     let lo := fsub t b
     ∃ u, exec (.ddXsub rd ra rb) s = .next u ∧ Completed s u [(.dh rd, hi), (.dl rd, lo)] s.sr 0) ∧
    (let hi := fadd a b
     let t1 := fsub hi a
     let t2 := fsub hi t1
     let t3 := fsub b t1
     let t4 := fsub a t2
     let lo := fadd t3 t4
     ∃ u, exec (.ddFxadd rd ra rb) s = .next u ∧ Completed s u [(.dh rd, hi), (.dl rd, lo)] s.sr 0) ∧
    (let hi := fmul a b
     let lo := ffma a b (fneg hi)
     ∃ u, exec (.ddXmul rd ra rb) s = .next u ∧ Completed s u [(.dh rd, hi), (.dl rd, lo)] s.sr 0)

/-- DD.ADD and DD.SUB: encoding, sequence, faults (Illegal on a nonzero unused field, Uninit on an unwritten
source word), corner cases and examples of R126 and R127, and x - x is (+0, +0) for every x of two finite
words. -/
def Obligations.DoubleDoubleAddAndSub : Prop :=
  (∀ rd ra rb : Reg, encode (.ddAdd rd ra rb) = 0x30#8 ++ rd ++ ra ++ rb ++ 0#12 ∧
    encode (.ddSub rd ra rb) = 0x31#8 ++ rd ++ ra ++ rb ++ 0#12) ∧
  (∀ (rd ra rb : Reg) (s : State), s.valid (.dh ra) = true → s.valid (.dl ra) = true →
    s.valid (.dh rb) = true → s.valid (.dl rb) = true →
    let xh := s.component (.dh ra)
    let xl := s.component (.dl ra)
    let run : F64 → F64 → DReg := fun yh yl =>
      let p := twoSum xh yh
      let q := twoSum xl yl
      let c := fadd p.lo q.hi
      let v := fast2sum p.hi c
      let w := fadd q.lo v.lo
      fast2sum v.hi w
    let yh := s.component (.dh rb)
    let yl := s.component (.dl rb)
    (∃ u, exec (.ddAdd rd ra rb) s = .next u ∧
      Completed s u [(.dh rd, (run yh yl).hi), (.dl rd, (run yh yl).lo)] s.sr 0) ∧
    (∃ u, exec (.ddSub rd ra rb) s = .next u ∧
      Completed s u [(.dh rd, (run (fneg yh) (fneg yl)).hi),
        (.dl rd, (run (fneg yh) (fneg yl)).lo)] s.sr 0)) ∧
  (∀ (rd ra rb : Reg) (s : State),
    (∃ c ∈ [Component.dh ra, .dl ra, .dh rb, .dl rb], s.valid c = false) →
    (∃ u, exec (.ddAdd rd ra rb) s = .next u ∧ Faulted s u .uninit) ∧
    (∃ u, exec (.ddSub rd ra rb) s = .next u ∧ Faulted s u .uninit)) ∧
  (∀ (s : State) (w : Cmd) (d : Word) (rest : List Transaction), s.input = ⟨w, d⟩ :: rest →
    opOf w = 0x30 ∨ opOf w = 0x31 → w.extractLsb' 0 12 ≠ 0 →
    ∃ t, step s = .next t ∧ Faulted { s with input := rest, wdata := d } t .illegal) ∧
  ddAdd ⟨fone, 0⟩ ⟨fneg fone, 0⟩ = ⟨0, 0⟩ ∧
  ddAdd ⟨zeroOf true, zeroOf true⟩ ⟨zeroOf true, zeroOf true⟩ = ⟨0, 0⟩ ∧
  (∀ x y : DReg, isInf x.hi = true ∨ isInf y.hi = true → ddAdd x y = ⟨qNaN, qNaN⟩) ∧
  (∀ x : DReg, isFinite x.hi = true → isFinite x.lo = true → ddSub x x = ⟨0, 0⟩) ∧
  ddAdd ⟨0x400921FB54442D18, 0x3CA1A62633145C07⟩ ⟨0x4005BF0A8B145769, 0x3CA4D57EE2B1013A⟩ =
    ⟨0x40177082EFAC4241, 0xBCA9845AEA3AA2BF⟩ ∧
  ddSub ⟨0x400921FB54442D18, 0x3CA1A62633145C07⟩ ⟨0x4005BF0A8B145769, 0x3CA4D57EE2B1013A⟩ =
    ⟨0x3FDB1786497EAD78, 0xBC797AC57CE52998⟩

/-- DD.MUL, DD.QMUL and DD.MULF: the sequences of R128, R129 and R130 with their examples; DD.QMUL's high
word is always xh ⊗ yh. -/
def Obligations.DoubleDoubleProducts : Prop :=
  (∀ (rd ra rb : Reg) (s : State), s.valid (.dh ra) = true → s.valid (.dl ra) = true →
    let xh := s.component (.dh ra)
    let xl := s.component (.dl ra)
    (s.valid (.dh rb) = true → s.valid (.dl rb) = true →
      let yh := s.component (.dh rb)
      let yl := s.component (.dl rb)
      let c := xmul xh yh
      (let tl0 := fmul xl yl
       let tl1 := ffma xh yl tl0
       let cl2 := ffma xl yh tl1
       let cl3 := fadd c.lo cl2
       let r := fast2sum c.hi cl3
       ∃ u, exec (.ddMul rd ra rb) s = .next u ∧ Completed s u [(.dh rd, r.hi), (.dl rd, r.lo)] s.sr 0) ∧
      (let t1 := ffma xh yl c.lo
       let t2 := ffma xl yh t1
       ∃ u, exec (.ddQmul rd ra rb) s = .next u ∧
         Completed s u [(.dh rd, fmul xh yh), (.dl rd, t2)] s.sr 0)) ∧
    (s.valid (.f rb) = true →
      let f := s.component (.f rb)
      let p := xmul xh f
      ∃ u, exec (.ddMulf rd ra rb) s = .next u ∧
        Completed s u [(.dh rd, p.hi), (.dl rd, ffma xl f p.lo)] s.sr 0)) ∧
  ddMul ⟨0x400921FB54442D18, 0x3CA1A62633145C07⟩ ⟨0x4005BF0A8B145769, 0x3CA4D57EE2B1013A⟩ =
    ⟨0x402114580B45D475, 0xBCC867BDEA1974BC⟩ ∧
  ddQmul ⟨0x400921FB54442D18, 0x3CA1A62633145C07⟩ ⟨0x4005BF0A8B145769, 0x3CA4D57EE2B1013A⟩ =
    ⟨0x402114580B45D474, 0x3CD3CC210AF345A2⟩ ∧
  ddMulf ⟨0x4009DF6FD21FF2E5, 0x3B5E392010175EE6⟩ 0x3FF1F837B4A2339C =
    ⟨0x400D0EC828A33753, 0xBCAC6B2E695CEFF3⟩

/-- DD.DIV, DD.SQRT and DD.RECIP: the sequences of R131, R132 and R133, no operand value being a fault, with
DD.SQRT's test of the high word alone, and examples of the rules. -/
def Obligations.DoubleDoubleQuotientsAndRoots : Prop :=
  (∀ (rd ra rb : Reg) (s : State), s.valid (.dh ra) = true → s.valid (.dl ra) = true →
    let xh := s.component (.dh ra)
    let xl := s.component (.dl ra)
    (s.valid (.dh rb) = true → s.valid (.dl rb) = true →
      let yh := s.component (.dh rb)
      let yl := s.component (.dl rb)
      let th := fdiv xh yh
      let p := xmul yh th
      let pl2 := ffma yl th p.lo
      let r := fast2sum p.hi pl2
      let d := fadd (fsub xh r.hi) (fsub xl r.lo)
      let q := fast2sum th (fdiv d yh)
      ∃ u, exec (.ddDiv rd ra rb) s = .next u ∧ Completed s u [(.dh rd, q.hi), (.dl rd, q.lo)] s.sr 0) ∧
    (let sh := fsqrt xh
     let sl := fdiv (fadd (ffma (fneg sh) sh xh) xl) (fmul ftwo sh)
     let r : DReg := if isZero xh then ⟨sh, 0⟩ else fast2sum sh sl
     ∃ u, exec (.ddSqrt rd ra) s = .next u ∧ Completed s u [(.dh rd, r.hi), (.dl rd, r.lo)] s.sr 0) ∧
    (let y := fdiv fone xh
     let e1 := ffma (fneg xh) y fone
     let e2 := ffma (fneg xl) y e1
     let r := fast2sum y (fmul y e2)
     ∃ u, exec (.ddRecip rd ra) s = .next u ∧ Completed s u [(.dh rd, r.hi), (.dl rd, r.lo)] s.sr 0)) ∧
  ddDiv ⟨fone, 0⟩ ⟨0, 0⟩ = ⟨qNaN, qNaN⟩ ∧
  ddDiv ⟨fone, 0⟩ ⟨fneg fone, 0⟩ = ⟨fneg fone, zeroOf true⟩ ∧
  (∀ l : F64, ddSqrt ⟨zeroOf true, l⟩ = ⟨zeroOf true, 0⟩) ∧
  ddSqrt ⟨0x0000000000000001, 0⟩ = ⟨0x1E60000000000000, 0⟩ ∧
  ddRecip ⟨0x4008000000000000, 0⟩ = ⟨0x3FD5555555555555, 0x3C75555555555555⟩

/-- R135: a NaN word makes both result words the canonical NaN in every composite that ends with fast2sum
(DD.SQRT of a zero high word does not read the low word), and so does an infinite high word. -/
def Obligations.NanAndInfinityThroughTheComposites : Prop :=
  (∀ x y : DReg,
    (isNan x.hi = true ∨ isNan x.lo = true ∨ isNan y.hi = true ∨ isNan y.lo = true) ∨
      (isInf x.hi = true ∨ isInf y.hi = true) →
    ddAdd x y = ⟨qNaN, qNaN⟩ ∧ ddSub x y = ⟨qNaN, qNaN⟩ ∧ ddMul x y = ⟨qNaN, qNaN⟩ ∧
      ddDiv x y = ⟨qNaN, qNaN⟩) ∧
  (∀ x : DReg, (isNan x.hi = true ∨ isNan x.lo = true) ∨ isInf x.hi = true →
    ddRecip x = ⟨qNaN, qNaN⟩ ∧ (isZero x.hi = false → ddSqrt x = ⟨qNaN, qNaN⟩))

/-- R134 for DD.XADD and DD.XSUB: with finite operands in order of magnitude and a finite high word, the two
result words hold the exact sum (difference). -/
def Obligations.OrderedExactAddLosesNothing : Prop :=
  ∀ a b : F64, isFinite a = true → isFinite b = true → |fval b| ≤ |fval a| →
    (isFinite (fadd a b) = true →
      isFinite (fast2sum a b).lo = true ∧ ddVal (fast2sum a b) = fval a + fval b) ∧
    (isFinite (fsub a b) = true →
      isFinite (fast2diff a b).lo = true ∧ ddVal (fast2diff a b) = fval a - fval b)

/-- The claim R123 makes for DD.FXADD, as it stands: for all finite operands with a finite high word the two
result words hold the exact sum. Expected to FAIL (log 16): at a = `0xFCA8000000000000`,
b = `0x7FEFFFFFFFFFFFFF` the step `hi ⊖ a` overflows although hi is finite, and lo is a NaN. -/
def Obligations.FullExactAddAsClaimed : Prop :=
  ∀ a b : F64, isFinite a = true → isFinite b = true → isFinite (fadd a b) = true →
    isFinite (twoSum a b).lo = true ∧ ddVal (twoSum a b) = fval a + fval b

/-- R124 (HAS_FMA = 1): when the high word is finite and the exact product is zero or at least 2^-969 in
magnitude, the two result words hold the exact product. -/
def Obligations.ExactMultiplyLosesNothing : Prop :=
  ∀ a b : F64, isFinite a = true → isFinite b = true → isFinite (fmul a b) = true →
    (fval a * fval b = 0 ∨ (2 : ℚ) ^ (-969 : ℤ) ≤ |fval a * fval b|) →
    isFinite (xmul a b).lo = true ∧ ddVal (xmul a b) = fval a * fval b

/-! ### The binary64 datapath -/

/-- R93: rounding a rational: the zero asked for; the infinity of its sign exactly from (2^54 - 1)·2^970 on;
otherwise the multiple of 2^(e-52), e = max(floor(log2 |q|), -1022), nearest to it, the even one at a tie. -/
def Obligations.RoundingIsNearestEven : Prop :=
  ∀ (num : ℤ) (den : ℕ) (s : Bool), 0 < den →
    let q : ℚ := (num : ℚ) / den
    let r := rn64 num den s
    (q = 0 → r = zeroOf s) ∧
    (q ≠ 0 →
      isNan r = false ∧ fsign r = decide (q < 0) ∧
      (isInf r = true ↔ ((2 : ℚ) ^ 54 - 1) * (2 : ℚ) ^ 970 ≤ |q|) ∧
      (|q| < ((2 : ℚ) ^ 54 - 1) * (2 : ℚ) ^ 970 →
        let e : ℤ := max (Int.log 2 |q|) (-1022)
        ∃ n1 : ℕ, |fval r| = (n1 : ℚ) * (2 : ℚ) ^ (e - 52) ∧
          |(|q| / (2 : ℚ) ^ (e - 52)) - n1| ≤ 1 / 2 ∧
          (|(|q| / (2 : ℚ) ^ (e - 52)) - n1| = 1 / 2 → Even n1)))

/-- R95, R96, R97, R98, R100: sum, difference, product, quotient and fused multiply-add. On finite operands they
are one rounding of the exact value, with the signs of exact zeros those rules give; then every NaN, every
infinite operand and the quotient by a zero, and the examples of the rules. -/
def Obligations.OperationsRoundTheExactResultOnce : Prop :=
  (∀ a b c : F64, isFinite a = true → isFinite b = true → isFinite c = true →
    fadd a b = rnQ (fval a + fval b) (fsign a && fsign b) ∧
    fsub a b = rnQ (fval a - fval b) (fsign a && !fsign b) ∧
    fmul a b = rnQ (fval a * fval b) (fsign a ^^ fsign b) ∧
    (fval b ≠ 0 → fdiv a b = rnQ (fval a / fval b) (fsign a ^^ fsign b)) ∧
    ffma a b c = rnQ (fval a * fval b + fval c) ((fsign a ^^ fsign b) && fsign c)) ∧
  (∀ a b : F64, isNan a = true ∨ isNan b = true →
    fadd a b = qNaN ∧ fsub a b = qNaN ∧ fmul a b = qNaN ∧ fdiv a b = qNaN) ∧
  (∀ a b c : F64, isNan a = true ∨ isNan b = true ∨ isNan c = true → ffma a b c = qNaN) ∧
  (∀ a b : F64, isNan a = false → isNan b = false →
    (isInf a = true → isInf b = true → fadd a b = if fsign a = fsign b then a else qNaN) ∧
    (isInf a = true → isInf b = false → fadd a b = a) ∧
    (isInf a = false → isInf b = true → fadd a b = b) ∧
    fsub a b = fadd a (fneg b)) ∧
  (∀ a b : F64, isNan a = false → isNan b = false →
    let inf := infOf (fsign a ^^ fsign b)
    (isInf a = true → isZero b = true → fmul a b = qNaN ∧ fmul b a = qNaN) ∧
    (isInf a = true → isZero b = false → fmul a b = inf ∧ fmul b a = inf)) ∧
  (∀ a b : F64, isNan a = false → isNan b = false →
    let inf := infOf (fsign a ^^ fsign b)
    let zero := zeroOf (fsign a ^^ fsign b)
    (isZero a = true → isZero b = true → fdiv a b = qNaN) ∧
    (isInf a = true → isInf b = true → fdiv a b = qNaN) ∧
    (isZero a = false → isZero b = true → fdiv a b = inf) ∧
    (isInf a = true → isInf b = false → fdiv a b = inf) ∧
    (isInf a = false → isInf b = true → fdiv a b = zero) ∧
    (isZero a = true → isZero b = false → fdiv a b = zero)) ∧
  (∀ a b c : F64, isNan a = false → isNan b = false → isNan c = false →
    let s := fsign a ^^ fsign b
    ((isInf a = true ∧ isZero b = true) ∨ (isZero a = true ∧ isInf b = true) → ffma a b c = qNaN) ∧
    ((isInf a = true ∧ isZero b = false) ∨ (isZero a = false ∧ isInf b = true) →
      ffma a b c = if isInf c = true ∧ fsign c ≠ s then qNaN else infOf s) ∧
    (isFinite a = true → isFinite b = true → isInf c = true → ffma a b c = c)) ∧
  fadd 0x3FB999999999999A 0x3FC999999999999A = 0x3FD3333333333334 ∧
  fsub 0 0 = 0 ∧ fsub 0x8000000000000000 0 = 0x8000000000000000 ∧
  fsub (infOf false) (infOf false) = qNaN ∧
  fmul 0x8000000000000000 0x4014000000000000 = 0x8000000000000000 ∧ fmul (infOf false) 0 = qNaN ∧
  fdiv fone 0x4008000000000000 = 0x3FD5555555555555 ∧ fdiv fone 0 = infOf false ∧ fdiv 0 0 = qNaN ∧
  ffma 0x3FB999999999999A 0x4024000000000000 0xBFF0000000000000 = 0x3C90000000000000 ∧
  ffma 0x4000000000000000 0x4008000000000000 0xC018000000000000 = 0 ∧
  ffma fone 0x8000000000000000 0x8000000000000000 = 0x8000000000000000 ∧
  ffma fone 0x8000000000000000 0 = 0

/-- R94: an arithmetic operation whose result is a NaN returns the canonical quiet NaN, and a NaN operand
always makes one; fneg and fabs act on bits. -/
def Obligations.ArithmeticNansAreCanonical : Prop :=
  (∀ a b c : F64,
    (isNan (fadd a b) = true → fadd a b = qNaN) ∧ (isNan (fsub a b) = true → fsub a b = qNaN) ∧
    (isNan (fmul a b) = true → fmul a b = qNaN) ∧ (isNan (fdiv a b) = true → fdiv a b = qNaN) ∧
    (isNan (fsqrt a) = true → fsqrt a = qNaN) ∧ (isNan (ffma a b c) = true → ffma a b c = qNaN) ∧
    (isNan (rintAway a) = true → rintAway a = qNaN)) ∧
  (∀ a b c : F64, isNan a = true →
    fadd a b = qNaN ∧ fadd b a = qNaN ∧ fsub a b = qNaN ∧ fsub b a = qNaN ∧ fmul a b = qNaN ∧
    fmul b a = qNaN ∧ fdiv a b = qNaN ∧ fdiv b a = qNaN ∧ fsqrt a = qNaN ∧ ffma a b c = qNaN ∧
    ffma b a c = qNaN ∧ ffma b c a = qNaN ∧ rintAway a = qNaN) ∧
  (∀ (a : F64) (n : Nat), n < 63 → (fneg a).getLsbD n = a.getLsbD n ∧
    (fabs a).getLsbD n = a.getLsbD n) ∧
  (∀ a : F64, fsign (fneg a) = !fsign a ∧ fsign (fabs a) = false)

/-- R102: feq is equality of IEEE values: false on a NaN; on finite words, equality of the exact values, so
that +0 and -0 are equal; where either word is an infinity, both are and have the same sign. -/
def Obligations.ComparisonIsIeeeEquality : Prop :=
  ∀ a b : F64,
    (isNan a = true ∨ isNan b = true → feq a b = false) ∧
    (isFinite a = true → isFinite b = true → (feq a b = true ↔ fval a = fval b)) ∧
    (isNan a = false → isNan b = false → isInf a = true ∨ isInf b = true →
      (feq a b = true ↔ (isInf a = true ∧ isInf b = true ∧ fsign a = fsign b)))

/-! ### The Dyadic128 unit -/

/-- DY.FROMF: exact and normalized for every finite word, zeros keeping their sign; Domain on a NaN or an
infinity; and the corner cases and examples of R155. -/
def Obligations.DyadicConstructionIsExact : Prop :=
  (∀ (rd ra : Reg) (s : State), s.valid (.f ra) = true → isFinite (s.component (.f ra)) = true →
    ∃ u q, exec (.dyFromf rd ra) s = .next u ∧ Completed s u (qWrites rd q) s.sr 0 ∧
      qNormalized q ∧ qVal q = fval (s.component (.f ra)) ∧ q.sign = fsign (s.component (.f ra)) ∧
      (q.mant = 0 → q.exp = 0)) ∧
  (∀ (rd ra : Reg) (s : State), s.valid (.f ra) = true → isFinite (s.component (.f ra)) = false →
    ∃ u, exec (.dyFromf rd ra) s = .next u ∧ Faulted s u .domain) ∧
  fromF64 0x0000000000000001 = .ok ⟨false, -1201, 2 ^ 127⟩ ∧
  fromF64 0x0010000000000000 = .ok ⟨false, -1149, 2 ^ 127⟩ ∧
  fromF64 0x7FEFFFFFFFFFFFFF = .ok ⟨false, 896, 0xFFFFFFFFFFFFF8000000000000000000⟩ ∧
  fromF64 0x8000000000000000 = .ok ⟨true, 0, 0⟩ ∧
  fromF64 0x3FB999999999999A = .ok ⟨false, -131, 0xCCCCCCCCCCCCD0000000000000000000⟩ ∧
  fromF64 0x3FF0000000000000 = .ok ⟨false, -127, 2 ^ 127⟩

/-- DY.TOF: the exact value rounded once, a zero keeping its sign, and OF set exactly when the result is an
infinity, sticky; never a fault (R157). -/
def Obligations.DyadicConversionRoundsOnce : Prop :=
  ∀ (rd ra : Reg) (s : State), s.valid (.qh ra) = true → s.valid (.ql ra) = true →
    s.valid (.qe ra) = true →
    let x := s.dyadic ra
    let r := rnQ (dyVal x) x.s
    ∃ u, exec (.dyTof rd ra) s = .next u ∧
      Completed s u [(.f rd, r)] { s.sr with ovf := s.sr.ovf || isInf r } 0

/-- R156, which the spec marks as its own inference from R155 and R157: every finite word, both zeros and all
subnormals included, survives DY.FROMF then DY.TOF bit for bit, and OF is not set. -/
def Obligations.RoundTripIsExact : Prop :=
  ∀ w : F64, isFinite w = true → ∃ x, fromF64 w = .ok x ∧ fastAsF64 x = (w, false) ∧
    fastAsF64 (dyOfReg (regOfDy x)) = (w, false)

/-- R153: a completing DY command other than DY.NEG writes a normalized result whose zero has exponent 0,
whatever the operands; the result of DY.NEG is normalized exactly when its operand is, exponent and mantissa
being copied. -/
def Obligations.DyadicResultsAreNormalized : Prop :=
  (∀ (i : Instr) (rd ra rb : Reg) (s u : State),
    i ∈ [Instr.dyFromf rd ra, .dyNorm rd ra, .dyAdd rd ra rb, .dyMul rd ra rb, .dyRecip rd ra,
      .dyRecipf rd ra, .dyDiv rd ra rb, .dyRnd rd ra] →
    exec i s = .next u → (∃ rdata, u.output = s.output ++ [⟨0, rdata⟩]) →
    qNormalized (rget u.q rd) ∧ ((rget u.q rd).mant = 0 → (rget u.q rd).exp = 0)) ∧
  (∀ (rd ra : Reg) (s u : State), exec (.dyNeg rd ra) s = .next u →
    (∃ rdata, u.output = s.output ++ [⟨0, rdata⟩]) →
    (qNormalized (rget u.q rd) ↔ qNormalized (rget s.q ra)) ∧
      (rget u.q rd).exp = (rget s.q ra).exp ∧ (rget u.q rd).mant = (rget s.q ra).mant)

/-- DY.NORM: the value and sign are unchanged and the result is normalized, for any operand; ExpRange exactly
when the normalized exponent of a nonzero operand would be below -32768; corner cases of R158. -/
def Obligations.NormalizeKeepsTheValue : Prop :=
  (∀ (rd ra : Reg) (s : State), s.valid (.qh ra) = true → s.valid (.ql ra) = true →
    s.valid (.qe ra) = true →
    let x := s.dyadic ra
    let z : ℤ := 127 - Nat.log 2 x.m
    (x.m = 0 ∨ -32768 ≤ x.e - z →
      ∃ u q, exec (.dyNorm rd ra) s = .next u ∧ Completed s u (qWrites rd q) s.sr 0 ∧
        qNormalized q ∧ qVal q = dyVal x ∧ q.sign = x.s ∧ (q.mant = 0 → q.exp = 0)) ∧
    (x.m ≠ 0 → x.e - z < -32768 →
      ∃ u, exec (.dyNorm rd ra) s = .next u ∧ Faulted s u .expRange)) ∧
  normalize false 5 0 = .ok ⟨false, 0, 0⟩ ∧
  normalize false 7 (2 ^ 128 - 1) = .ok ⟨false, 7, 2 ^ 128 - 1⟩ ∧
  normalize false (-32700) 1 = .error .expRange ∧
  normalize false 0 1 = .ok ⟨false, -127, 2 ^ 127⟩

/-- DY.ADD: the result is what R160's pseudocode gives on the operands' triples, stored whole; the command
raises ExpRange where the pseudocode does and nothing else; corner cases and example of R160. -/
def Obligations.DyadicAddFollowsItsPseudocode : Prop :=
  (∀ (rd ra rb : Reg) (s : State),
    (∀ c ∈ [Component.qh ra, .ql ra, .qe ra, .qh rb, .ql rb, .qe rb], s.valid c = true) →
    let a := s.dyadic ra
    let b := s.dyadic rb
    let n : ℤ := |a.e - b.e|
    let e : ℤ := max a.e b.e
    let ma : ℕ := if b.e ≤ a.e then a.m else if n < 128 then a.m / 2 ^ n.toNat else 0
    let mb : ℕ := if b.e ≤ a.e then (if n < 128 then b.m / 2 ^ n.toNat else 0) else b.m
    let r : Except CmdFault Dy :=
      if a.m = 0 then normalize b.s b.e b.m
      else if b.m = 0 then normalize a.s a.e a.m
      else if a.s = b.s then
        if 2 ^ 128 ≤ ma + mb then canon a.s (e + 1) ((ma + mb) / 2) else normalize a.s e (ma + mb)
      else if ma = mb then .ok ⟨a.s, 0, 0⟩
      else if mb < ma then normalize a.s e (ma - mb)
      else normalize b.s e (mb - ma)
    (∀ d, r = .ok d →
      ∃ u, exec (.dyAdd rd ra rb) s = .next u ∧ Completed s u (qWrites rd (regOfDy d)) s.sr 0 ∧
        dyFits d) ∧
    (∀ x, r = .error x → x = .expRange ∧
      ∃ u, exec (.dyAdd rd ra rb) s = .next u ∧ Faulted s u .expRange)) ∧
  quickAdd ⟨false, -127, 2 ^ 127⟩ ⟨false, -254, 2 ^ 127⟩ = .ok ⟨false, -127, 2 ^ 127 + 1⟩ ∧
  quickAdd ⟨false, -127, 2 ^ 127⟩ ⟨false, -255, 2 ^ 127⟩ = .ok ⟨false, -127, 2 ^ 127⟩ ∧
  quickAdd ⟨true, -127, 2 ^ 127⟩ ⟨false, -127, 2 ^ 127⟩ = .ok ⟨true, 0, 0⟩ ∧
  quickAdd ⟨false, 32767, 2 ^ 128 - 1⟩ ⟨false, 32767, 2 ^ 128 - 1⟩ = .error .expRange

/-- DY.MUL: the high 128 bits of the product, renormalized, with the xor of the signs; a zero operand gives
the zero of that sign; ExpRange where the renormalized exponent does not fit (R161). -/
def Obligations.DyadicMulKeepsTheHighHalf : Prop :=
  (∀ (rd ra rb : Reg) (s : State),
    (∀ c ∈ [Component.qh ra, .ql ra, .qe ra, .qh rb, .ql rb, .qe rb], s.valid c = true) →
    let a := s.dyadic ra
    let b := s.dyadic rb
    let m : ℕ := a.m * b.m / 2 ^ 128
    let z : ℕ := 127 - Nat.log 2 m
    let e : ℤ := a.e + b.e + 128 - z
    let sign := a.s ^^ b.s
    (m = 0 → ∃ u, exec (.dyMul rd ra rb) s = .next u ∧
      Completed s u (qWrites rd ⟨sign, 0, 0⟩) s.sr 0) ∧
    (m ≠ 0 → -32768 ≤ e → e ≤ 32767 → ∃ u, exec (.dyMul rd ra rb) s = .next u ∧
      Completed s u (qWrites rd ⟨sign, BitVec.ofInt 16 e, BitVec.ofNat 128 (m * 2 ^ z)⟩) s.sr 0) ∧
    (m ≠ 0 → e < -32768 ∨ 32767 < e →
      ∃ u, exec (.dyMul rd ra rb) s = .next u ∧ Faulted s u .expRange)) ∧
  quickMul ⟨false, -127, 2 ^ 127⟩ ⟨false, -127, 2 ^ 127⟩ = .ok ⟨false, -127, 2 ^ 127⟩ ∧
  quickMul ⟨false, 0, 1⟩ ⟨false, 0, 1⟩ = .ok ⟨false, 0, 0⟩

/-- The accuracy of the quick operations, which the spec marks as derived from its pseudocode ("the error is
below 2 units of the result's last mantissa bit before renormalization", "the relative error is below
2^-126"): a completing DY.ADD is within 2·2^max(ea, eb) of the exact sum, and a completing DY.MUL of
normalized nonzero operands within 2^-126 of the exact product, relatively. -/
def Obligations.DyadicSumAndProductAreClose : Prop :=
  (∀ (rd ra rb : Reg) (s u : State), exec (.dyAdd rd ra rb) s = .next u →
    (∃ rdata, u.output = s.output ++ [⟨0, rdata⟩]) →
    |qVal (rget u.q rd) - (qVal (rget s.q ra) + qVal (rget s.q rb))| <
      2 * (2 : ℚ) ^ (max (rget s.q ra).exp.toInt (rget s.q rb).exp.toInt)) ∧
  (∀ (rd ra rb : Reg) (s u : State), exec (.dyMul rd ra rb) s = .next u →
    (∃ rdata, u.output = s.output ++ [⟨0, rdata⟩]) →
    (rget s.q ra).mant.getLsbD 127 = true → (rget s.q rb).mant.getLsbD 127 = true →
    |qVal (rget u.q rd) - qVal (rget s.q ra) * qVal (rget s.q rb)| <
      (2 : ℚ) ^ (-126 : ℤ) * |qVal (rget s.q ra) * qVal (rget s.q rb)|)

/-- DY.NEG: the sign bit flipped and nothing else, whatever the operand: exponent and mantissa are copied
(R162). -/
def Obligations.NegateFlipsTheSignOnly : Prop :=
  ∀ (rd ra : Reg) (s : State), s.valid (.qh ra) = true → s.valid (.ql ra) = true →
    s.valid (.qe ra) = true →
    ∃ u, exec (.dyNeg rd ra) s = .next u ∧
      Completed s u [(.qh rd, s.component (.qh ra)), (.ql rd, s.component (.ql ra)),
        (.qe rd, s.component (.qe ra) ^^^ 0x0000000000010000)] s.sr 0

/-- DY.RECIP and DY.RECIPF: three Newton steps from the binary64 seed for every operand that has one, and
Domain, for exactly the operands R163 lists, on the others; no other fault once the sources are written. -/
def Obligations.ReciprocalRunsThreeNewtonSteps : Prop :=
  let seedless : Dy → Bool := fun x =>
    x.m == 0 || isZero (fastAsF64 x).1 || isInf (fastAsF64 x).1 || isInf (fdiv fone (fastAsF64 x).1)
  let newton : Dy → Dy → Except CmdFault Dy := fun x y => do
    let t ← quickMul x y
    let u ← quickAdd ⟨false, -126, 2 ^ 127⟩ ⟨!t.s, t.e, t.m⟩
    quickMul y u
  let recip : Dy → Except CmdFault Dy := fun x => do
    let y0 ← fromF64 (fdiv fone (fastAsF64 x).1)
    let y1 ← newton x y0
    let y2 ← newton x y1
    newton x y2
  (∀ (rd ra : Reg) (s : State), s.valid (.qh ra) = true → s.valid (.ql ra) = true →
    s.valid (.qe ra) = true →
    (seedless (s.dyadic ra) = false → ∃ u d, recip (s.dyadic ra) = .ok d ∧
      exec (.dyRecip rd ra) s = .next u ∧ Completed s u (qWrites rd (regOfDy d)) s.sr 0) ∧
    (seedless (s.dyadic ra) = true → ∃ u, exec (.dyRecip rd ra) s = .next u ∧ Faulted s u .domain)) ∧
  (∀ (rd ra : Reg) (s : State), s.valid (.f ra) = true →
    let w := s.component (.f ra)
    (isFinite w = false → ∃ u, exec (.dyRecipf rd ra) s = .next u ∧ Faulted s u .domain) ∧
    (∀ x, fromF64 w = .ok x →
      (seedless x = false → ∃ u d, recip x = .ok d ∧
        exec (.dyRecipf rd ra) s = .next u ∧ Completed s u (qWrites rd (regOfDy d)) s.sr 0) ∧
      (seedless x = true → ∃ u, exec (.dyRecipf rd ra) s = .next u ∧ Faulted s u .domain)))

/-- DY.DIV: the dividend times the reciprocal of the divisor; the reciprocal is evaluated first, so Domain
is raised even for a zero dividend (R166, R261). -/
def Obligations.DyadicDivisionMultipliesByTheReciprocal : Prop :=
  ∀ (rd ra rb : Reg) (s : State),
    (∀ c ∈ [Component.qh ra, .ql ra, .qe ra, .qh rb, .ql rb, .qe rb], s.valid c = true) →
    (∀ r d, reciprocal 3 (s.dyadic rb) = .ok r → quickMul (s.dyadic ra) r = .ok d →
      ∃ u, exec (.dyDiv rd ra rb) s = .next u ∧ Completed s u (qWrites rd (regOfDy d)) s.sr 0) ∧
    (∀ r, reciprocal 3 (s.dyadic rb) = .ok r → quickMul (s.dyadic ra) r = .error .expRange →
      ∃ u, exec (.dyDiv rd ra rb) s = .next u ∧ Faulted s u .expRange) ∧
    (∀ x, reciprocal 3 (s.dyadic rb) = .error x → x = .domain ∧
      ∃ u, exec (.dyDiv rd ra rb) s = .next u ∧ Faulted s u .domain) ∧
    ((s.dyadic rb).m = 0 → ∃ u, exec (.dyDiv rd ra rb) s = .next u ∧ Faulted s u .domain) ∧
    ((s.dyadic ra).m = 0 → (∃ r, reciprocal 3 (s.dyadic rb) = .ok r) →
      ∃ u, exec (.dyDiv rd ra rb) s = .next u ∧
        Completed s u (qWrites rd ⟨(s.dyadic ra).s ^^ (s.dyadic rb).s, 0, 0⟩) s.sr 0)

/-- DY.RND: the integer nearest to the exact value, ties away from zero, for any operand; the operand's sign
is kept, on a zero result too; the result is normalized; never a fault (R167). -/
def Obligations.RoundToIntegerIsTiesAway : Prop :=
  ∀ (rd ra : Reg) (s : State), s.valid (.qh ra) = true → s.valid (.ql ra) = true →
    s.valid (.qe ra) = true →
    let x := s.dyadic ra
    ∃ u q, exec (.dyRnd rd ra) s = .next u ∧ Completed s u (qWrites rd q) s.sr 0 ∧
      q.sign = x.s ∧ qNormalized q ∧ (q.mant = 0 → q.exp = 0) ∧
      |qVal q| = (⌊|dyVal x| + 1 / 2⌋ : ℤ)

/-! ### The range reducer -/

/-- RR.SMALL: kd is x ⊗ N_OVER_PI rounded to the nearest integer, ties away, with its sign, and unchanged from
2^52 on; k is its value, and the residual is the fma sequence of R193, for every x whose k fits 64 bits; Domain
otherwise; the example x = 1.0. -/
def Obligations.SmallReductionRunsItsSequence : Prop :=
  (∀ (rd ra rc : Reg) (s : State), s.valid (.f ra) = true →
    let x := s.component (.f ra)
    let prod := fmul x 0x40445F306DC9C883
    let kd := rintAway prod
    let fits := isFinite kd = true ∧ |fval kd| < 2 ^ 63
    (fits →
      let yHi := ffma kd 0xBF9921FB54400000 x
      let uHi := ffma kd 0xBD70B4611A600000 yHi
      let u0 := fsub yHi uHi
      let u1 := ffma kd 0xBD70B4611A600000 u0
      let uLo := ffma kd 0xBB43198A2E037073 u1
      ∃ u k, exec (.rrSmall rd ra rc) s = .next u ∧
        Completed s u [(.dh rd, uHi), (.dl rd, uLo), (.k rc, k)] s.sr 0 ∧
        (k.toInt : ℚ) = fval kd ∧
        fsign kd = fsign prod ∧
        (|fval prod| < 2 ^ 52 → |fval kd| = (⌊|fval prod| + 1 / 2⌋ : ℤ)) ∧
        (2 ^ 52 ≤ |fval prod| → kd = prod)) ∧
    (¬ fits → ∃ u, exec (.rrSmall rd ra rc) s = .next u ∧ Faulted s u .domain)) ∧
  f64ToInt (smallKd fone) = 41 ∧
  smallResidual fone (smallKd fone) = ⟨0xBF79C501FBACE38D, 0xBC0CE0F17215E8D0⟩

/-- R194: below 2^SMALL_EXP the k of RR.SMALL leaves a reduced argument of at most
(pi/128)·(1/2 + 2^-30), and with any bound for which the small path meets its contract the residual written
is within it of the reduced argument. -/
def Obligations.SmallReductionLeavesAShortResidual : Prop :=
  ∀ (rd ra rc : Reg) (s : State), s.valid (.f ra) = true →
    let x := s.component (.f ra)
    isFinite x = true → |fval x| < 2 ^ 16 →
    ∃ u hi lo k, exec (.rrSmall rd ra rc) s = .next u ∧
      Completed s u [(.dh rd, hi), (.dl rd, lo), (.k rc, k)] s.sr 0 ∧
      |(fval x : ℝ) - (k.toInt : ℝ) * Real.pi / 128| ≤ Real.pi / 128 * (1 / 2 + 1 / 2 ^ 30) ∧
      ∀ bound : ℝ, smallContract bound →
        |(fval x : ℝ) - (k.toInt : ℝ) * Real.pi / 128 - ((fval hi + fval lo : ℚ) : ℝ)| ≤ bound

/-- RR.LARGE: for a finite operand, the two words and k that the parameter function rr_large returns, and with
any bound for which rr_large meets its contract, the contract of R195; Domain on a NaN or an infinity.
That the two words are finite is the model's reading of the contract (log 6). -/
def Obligations.LargeReductionKeepsItsContract : Prop :=
  ∀ (rd ra rc : Reg) (s : State), s.valid (.f ra) = true →
    let x := s.component (.f ra)
    (isFinite x = true →
      let hi := wordOfFinite (Config.rrLarge x).hi
      let lo := wordOfFinite (Config.rrLarge x).lo
      let k64 := (Config.rrLarge x).k
      ∃ u, exec (.rrLarge rd ra rc) s = .next u ∧
        Completed s u [(.dh rd, hi), (.dl rd, lo), (.k rc, k64)] s.sr 0 ∧
        isFinite hi = true ∧ isFinite lo = true ∧
        ∀ bound : ℝ, largeContract bound →
          (∃ k : ℤ, k % 256 = k64.toInt % 256 ∧
            |(fval x : ℝ) - (k : ℝ) * Real.pi / 128 - ((fval hi + fval lo : ℚ) : ℝ)| ≤ bound) ∧
          |((fval hi + fval lo : ℚ) : ℝ)| ≤ Real.pi / 256 + bound) ∧
    (isFinite x = false → ∃ u, exec (.rrLarge rd ra rc) s = .next u ∧ Faulted s u .domain)

/-- RR.LARGEQ: for a finite operand, the dyadic and k that the parameter function rr_large_q returns, and with
any bound for which it meets its contract, the contract of R196; Domain on a NaN or an infinity.
The normalization is part of the contract and holds by the type of the parameter (log 7). -/
def Obligations.LargeDyadicReductionKeepsItsContract : Prop :=
  ∀ (rd ra rc : Reg) (s : State), s.valid (.f ra) = true →
    let x := s.component (.f ra)
    (isFinite x = true →
      let q := regOfNormal (Config.rrLargeQ x).q
      let k64 := (Config.rrLargeQ x).k
      ∃ u, exec (.rrLargeq rd ra rc) s = .next u ∧
        Completed s u (qWrites rd q ++ [(.k rc, k64)]) s.sr 0 ∧ qNormalized q ∧
        ∀ bound : ℝ, largeQContract bound →
          (∃ k : ℤ, k % 256 = k64.toInt % 256 ∧
            |(fval x : ℝ) - (k : ℝ) * Real.pi / 128 - (qVal q : ℝ)| ≤ bound) ∧
          |(qVal q : ℝ)| ≤ Real.pi / 256 + bound) ∧
    (isFinite x = false → ∃ u, exec (.rrLargeq rd ra rc) s = .next u ∧ Faulted s u .domain)

/-- RR.IDX: the Euclidean remainder of K[ra] + imm8 by 256, equally the low 8 bits of the 64-bit sum, and the
corner cases and examples of R197. -/
def Obligations.IndexFoldIsTheRemainder : Prop :=
  (∀ (rd ra : Reg) (imm8 : BitVec 8) (s : State), s.valid (.k ra) = true →
    ∃ u v, exec (.rrIdx rd ra imm8) s = .next u ∧ Completed s u [(.k rd, v)] s.sr 0 ∧
      v.toInt = ((s.component (.k ra)).toInt + imm8.toNat) % 256 ∧ 0 ≤ v.toInt ∧ v.toInt ≤ 255 ∧
      v = (s.component (.k ra) + imm8.setWidth 64) &&& 0xFF) ∧
  (∀ (rd ra : Reg) (imm8 : BitVec 8) (s : State), s.valid (.k ra) = false →
    ∃ u, exec (.rrIdx rd ra imm8) s = .next u ∧ Faulted s u .uninit) ∧
  (∀ (s : State) (w : Cmd) (d : Word) (rest : List Transaction), s.input = ⟨w, d⟩ :: rest →
    opOf w = 0x53 → w.extractLsb' 8 8 ≠ 0 →
    ∃ t, step s = .next t ∧ Faulted { s with input := rest, wdata := d } t .illegal) ∧
  (∀ (rd ra : Reg) (imm8 : BitVec 8), encode (.rrIdx rd ra imm8) = 0x53#8 ++ rd ++ ra ++ 0#8 ++ imm8) ∧
  foldIndex (-41) 0 = 215 ∧ foldIndex (-41) 64 = 23 ∧ foldIndex 0x7FFFFFFFFFFFFFFF 255 = 254 ∧
  foldIndex 407 0 = 151 ∧ foldIndex 407 64 = 215

/-! ### The escalation mux -/

/-- ZIV.BEGIN: in every state, PHASE becomes FAST, ACC and ESC 0; the sticky bits, registers and valid bits
stay; the example of R212. -/
def Obligations.BeginStartsACall : Prop :=
  (∀ s : State, ∃ u, exec .zivBegin s = .next u ∧
    Completed s u [] { s.sr with phase := .fast, acc := false, esc := false } 0) ∧
  encode .zivBegin = 0x60000000 ∧
  (∀ s u : State, s.sr.toWord = 0x15 → exec .zivBegin s = .next u → u.sr.toWord = 0x01)

/-- ZIV.BOUND in phase FAST: err = fma(|hi|, rel, abs) with the low word needed but not used, and PHASE becomes
BOUND; corner cases and example of R213. -/
def Obligations.BoundFormsTheErrorTerm : Prop :=
  (∀ (rd ra rb rc : Reg) (s : State), s.sr.phase = .fast → s.valid (.dh ra) = true →
    s.valid (.dl ra) = true → s.valid (.f rb) = true → s.valid (.f rc) = true →
    ∃ u, exec (.zivBound rd ra rb rc) s = .next u ∧
      Completed s u
        [(.f rd, ffma (fabs (s.component (.dh ra))) (s.component (.f rb)) (s.component (.f rc)))]
        { s.sr with phase := .bound } 0) ∧
  (∀ hi abs : F64, isInf hi = true → errBound hi 0 abs = qNaN) ∧
  (∀ hi rel abs : F64, isNan hi = true → errBound hi rel abs = qNaN) ∧
  errBound 0x3FD5555555555555 0x3B90000000000000 0x3A50000000000000 = 0x3B75555955555555

/-- ZIV.TEST in phase BOUND: upper and lower as R214 forms them; when they are IEEE-equal F[rd] gets upper and
SR ends ACC, DONE; otherwise nothing is written and SR ends ESC, ESCALATE; STATUS 0 either way. -/
def Obligations.TestAcceptsOrEscalates : Prop :=
  (∀ (rd ra rb : Reg) (s : State), s.sr.phase = .bound → s.valid (.dh ra) = true →
    s.valid (.dl ra) = true → s.valid (.f rb) = true →
    let hi := s.component (.dh ra)
    let lo := s.component (.dl ra)
    let err := s.component (.f rb)
    let upper := fadd hi (fadd lo err)
    let lower := fadd hi (fsub lo err)
    (feq upper lower = true → ∃ u, exec (.zivTest rd ra rb) s = .next u ∧
      Completed s u [(.f rd, upper)] { s.sr with phase := .done, acc := true } 0) ∧
    (feq upper lower = false → ∃ u, exec (.zivTest rd ra rb) s = .next u ∧
      Completed s u [] { s.sr with phase := .escalate, esc := true } 0)) ∧
  (∀ (x : DReg) (err : F64), isNan x.hi = true ∨ isNan x.lo = true ∨ isNan err = true →
    feq (zivUpper x err) (zivLower x err) = false)

/-- ZIV.FALLBACK in phase ESCALATE: the dyadic value rounded once to F[rd], OF set when it is an infinity,
PHASE DONE and ESC kept (R215). -/
def Obligations.FallbackReturnsTheRoundedDyadic : Prop :=
  ∀ (rd ra : Reg) (s : State), s.sr.phase = .escalate → s.valid (.qh ra) = true →
    s.valid (.ql ra) = true → s.valid (.qe ra) = true →
    let x := s.dyadic ra
    let r := rnQ (dyVal x) x.s
    ∃ u, exec (.zivFallback rd ra) s = .next u ∧
      Completed s u [(.f rd, r)] { s.sr with phase := .done, ovf := s.sr.ovf || isInf r } 0

/-- The acceptance guarantee of R216, for a rational true value v and with the inner additions of the test
exact (the point the rule leaves open): if err bounds the candidate's error and ZIV.TEST accepts, the word
written is RN64(v) up to the sign of a zero. -/
def Obligations.AcceptedResultIsCorrectlyRounded : Prop :=
  ∀ (rd ra rb : Reg) (s u : State) (v : ℚ), s.sr.phase = .bound → s.valid (.dh ra) = true →
    s.valid (.dl ra) = true → s.valid (.f rb) = true →
    let hi := s.component (.dh ra)
    let lo := s.component (.dl ra)
    let err := s.component (.f rb)
    isFinite hi = true → isFinite lo = true → isFinite err = true → 0 ≤ fval err →
    isFinite (fadd lo err) = true → fval (fadd lo err) = fval lo + fval err →
    isFinite (fsub lo err) = true → fval (fsub lo err) = fval lo - fval err →
    |v - (fval hi + fval lo)| ≤ fval err →
    exec (.zivTest rd ra rb) s = .next u → u.sr.acc = true → s.sr.acc = false →
    feq (u.component (.f rd)) (rnQ v false) = true

/-- R220 (a) over a step: from a state whose SR is legal, ESC is set only by a ZIV.TEST that rejected and ACC
only by one that accepted, so ZIV.FALLBACK completes only after a rejection in this call (ESC is 1). -/
def Obligations.FallbackNeedsARejection : Prop :=
  (∀ (rd ra : Reg) (s u : State), phaseInvariant s → exec (.zivFallback rd ra) s = .next u →
    (∃ rdata, u.output = s.output ++ [⟨0, rdata⟩]) → s.sr.esc = true ∧ s.sr.acc = false) ∧
  (∀ (i : Instr) (s u : State), exec i s = .next u → s.sr.esc = false → u.sr.esc = true →
    ∃ rd ra rb, i = .zivTest rd ra rb ∧ s.sr.phase = .bound ∧
      feq (zivUpper (s.dreg ra) (s.component (.f rb))) (zivLower (s.dreg ra) (s.component (.f rb))) =
        false) ∧
  (∀ (i : Instr) (s u : State), exec i s = .next u → s.sr.acc = false → u.sr.acc = true →
    ∃ rd ra rb, i = .zivTest rd ra rb ∧ s.sr.phase = .bound ∧
      feq (zivUpper (s.dreg ra) (s.component (.f rb))) (zivLower (s.dreg ra) (s.component (.f rb))) =
        true)

/-! ### Square root and rounding to an integer -/

/-- R99 and R103. fsqrt of a positive finite word is the square root of its value on the grid of R93, the
nearest multiple, the even one at a tie; a zero and +inf are returned unchanged; a NaN and every other negative
word give the canonical NaN. rint_away keeps NaN canonical, returns infinities, zeros and words of magnitude
2^52 or more unchanged, and gives any other word the integer nearest to its value, ties away from zero, with its
sign, on a zero result too. The examples of both rules. -/
def Obligations.RootsAndIntegersRoundOnce : Prop :=
  (∀ a : F64,
    (isNan a = true → fsqrt a = qNaN) ∧
    (isZero a = true → fsqrt a = a) ∧
    (isInf a = true → fsign a = false → fsqrt a = a) ∧
    (isZero a = false → fsign a = true → fsqrt a = qNaN) ∧
    (isFinite a = true → isZero a = false → fsign a = false →
      let y : ℝ := Real.sqrt (fval a : ℝ)
      let e : ℤ := max (Int.log 2 y) (-1022)
      isFinite (fsqrt a) = true ∧ fsign (fsqrt a) = false ∧
        ∃ n1 : ℕ, (fval (fsqrt a) : ℝ) = (n1 : ℝ) * (2 : ℝ) ^ (e - 52) ∧
          |y / (2 : ℝ) ^ (e - 52) - n1| ≤ 1 / 2 ∧
          (|y / (2 : ℝ) ^ (e - 52) - n1| = 1 / 2 → Even n1))) ∧
  (∀ a : F64,
    (isNan a = true → rintAway a = qNaN) ∧
    (isInf a = true ∨ isZero a = true → rintAway a = a) ∧
    (isFinite a = true → 2 ^ 52 ≤ |fval a| → rintAway a = a) ∧
    (isFinite a = true → |fval a| < 2 ^ 52 →
      isFinite (rintAway a) = true ∧ fsign (rintAway a) = fsign a ∧
        |fval (rintAway a)| = (⌊|fval a| + 1 / 2⌋ : ℤ))) ∧
  fsqrt 0x4000000000000000 = 0x3FF6A09E667F3BCD ∧ fsqrt 0xBFF0000000000000 = qNaN ∧
  rintAway 0x3FE0000000000000 = fone ∧ rintAway 0xBFE0000000000000 = 0xBFF0000000000000 ∧
  rintAway 0x4004000000000000 = 0x4008000000000000 ∧ rintAway 0xC004000000000000 = 0xC008000000000000 ∧
  rintAway 0x3FDFFFFFFFFFFFFF = 0
end

