-- ==== Sys2Proof/Laws/Binary64.lean ====
section
/-! SUPPORT. What the helpers of the binary64 datapath compute: the fields of a packed word, the value of a
word against its scaled integer, the floor of a logarithm, the integer square root, the choice of a
half-even rounding, and how a NaN operand ends each operation. -/

-- one theorem at a time: each concurrent one costs a thread and its stack
set_option Elab.async false

namespace Sys2Proof.Machine

/-! ### Fields and classes (R90, R91) -/

/-- The exponent field has 11 bits. -/
theorem fexp_lt (w : F64) : fexp w < 2048 := (w.extractLsb' 52 11).isLt
/-- The fraction has 52 bits. -/
theorem ffrac_lt (w : F64) : ffrac w < 2 ^ 52 := (w.extractLsb' 0 52).isLt

/-- The sign, as a number. -/
theorem fsign_toNat (w : F64) : (fsign w).toNat = w.toNat / 2 ^ 63 := by
  have : w.toNat < 2 ^ 64 := w.isLt
  simp only [fsign, BitVec.getLsbD, Nat.testBit_eq_decide_div_mod_eq]
  rcases Nat.lt_or_ge w.toNat (2 ^ 63) with h | h
  · rw [Nat.div_eq_of_lt h]; simp
  · have : w.toNat / 2 ^ 63 = 1 := by omega
    rw [this]; simp

/-- The exponent field, as a number. -/
theorem fexp_toNat (w : F64) : fexp w = w.toNat / 2 ^ 52 % 2 ^ 11 := by
  simp only [fexp, BitVec.extractLsb'_toNat, Nat.shiftRight_eq_div_pow]

/-- The fraction, as a number. -/
theorem ffrac_toNat (w : F64) : ffrac w = w.toNat % 2 ^ 52 := by
  simp only [ffrac, BitVec.extractLsb'_toNat, Nat.shiftRight_zero]

/-- A word is its three fields. -/
theorem fields_toNat (w : F64) :
    (fsign w).toNat * 2 ^ 63 + (fexp w * 2 ^ 52 + ffrac w) = w.toNat := by
  have : w.toNat < 2 ^ 64 := w.isLt
  rw [fsign_toNat, fexp_toNat, ffrac_toNat]
  omega

/-- A packed word, as a number. -/
theorem packWord_toNat (s : Bool) (b : Nat) (h : b < 2 ^ 63) :
    (packWord s b).toNat = s.toNat * 2 ^ 63 + b := by
  simp only [packWord, BitVec.toNat_append, BitVec.toNat_ofNat, BitVec.toNat_ofBool]
  rw [Nat.mod_eq_of_lt h, ← Nat.shiftLeft_add_eq_or_of_lt h, Nat.shiftLeft_eq]

/-- The sign of a packed word. -/
@[simp] theorem fsign_packWord (s : Bool) (b : Nat) : fsign (packWord s b) = s := by
  simp only [fsign, packWord, BitVec.getLsbD_append]
  simp

/-- The exponent field of a packed word. -/
theorem fexp_packWord (s : Bool) (b : Nat) (h : b < 2 ^ 63) : fexp (packWord s b) = b / 2 ^ 52 := by
  rw [fexp_toNat, packWord_toNat s b h]
  cases s <;> simp only [Bool.toNat_false, Bool.toNat_true] <;> omega

/-- The fraction of a packed word. -/
theorem ffrac_packWord (s : Bool) (b : Nat) (h : b < 2 ^ 63) : ffrac (packWord s b) = b % 2 ^ 52 := by
  rw [ffrac_toNat, packWord_toNat s b h]
  omega

/-- A word is the packing of its own fields. -/
theorem packWord_fields (w : F64) : packWord (fsign w) (fexp w * 2 ^ 52 + ffrac w) = w := by
  have h1 := fexp_lt w
  have h2 := ffrac_lt w
  apply BitVec.eq_of_toNat_eq
  rw [packWord_toNat _ _ (by omega), fields_toNat]

/-- Two words with the same fields are the same word. -/
theorem word_ext {a b : F64} (hs : fsign a = fsign b) (he : fexp a = fexp b) (hf : ffrac a = ffrac b) :
    a = b := by
  rw [← packWord_fields a, ← packWord_fields b, hs, he, hf]

/-- Every word is of exactly one of the three kinds. -/
theorem class_cases (w : F64) :
    (isNan w = true ∧ isInf w = false ∧ isFinite w = false) ∨
    (isNan w = false ∧ isInf w = true ∧ isFinite w = false) ∨
    (isNan w = false ∧ isInf w = false ∧ isFinite w = true) := by
  simp only [isNan, isInf, isFinite]
  by_cases h : fexp w = 2047 <;> by_cases h' : ffrac w = 0 <;> simp [h, h']

/-- A finite word is no NaN. -/
theorem isNan_of_finite {w : F64} (h : isFinite w = true) : isNan w = false := by
  rcases class_cases w with h' | h' | h' <;> simp_all
/-- A finite word is no infinity. -/
theorem isInf_of_finite {w : F64} (h : isFinite w = true) : isInf w = false := by
  rcases class_cases w with h' | h' | h' <;> simp_all
/-- A zero is finite. -/
theorem isFinite_of_isZero {w : F64} (h : isZero w = true) : isFinite w = true := by
  simp only [isZero, Bool.and_eq_true, beq_iff_eq] at h
  simp [isFinite, h.1]

@[simp] theorem isNan_qNaN : isNan qNaN = true := by decide
@[simp] theorem isNan_infOf (s : Bool) : isNan (infOf s) = false := by cases s <;> decide
@[simp] theorem isInf_infOf (s : Bool) : isInf (infOf s) = true := by cases s <;> decide
@[simp] theorem isNan_zeroOf (s : Bool) : isNan (zeroOf s) = false := by cases s <;> decide
@[simp] theorem isInf_zeroOf (s : Bool) : isInf (zeroOf s) = false := by cases s <;> decide
@[simp] theorem isZero_zeroOf (s : Bool) : isZero (zeroOf s) = true := by cases s <;> decide
@[simp] theorem fsign_zeroOf (s : Bool) : fsign (zeroOf s) = s := by cases s <;> decide
@[simp] theorem fsign_infOf (s : Bool) : fsign (infOf s) = s := by cases s <;> decide

/-! ### Values (R90) -/

/-- The magnitude of a word, as its scaled integer over 2^1074. -/
theorem scaledMag_eq (w : F64) :
    scaledMag w = if fexp w = 0 then ffrac w else (2 ^ 52 + ffrac w) * 2 ^ (fexp w - 1) := by
  simp only [scaledMag, Nat.shiftLeft_eq]

/-- The power of two the scaled integers are over. -/
theorem unitDen_eq : unitDen = 2 ^ 1074 := by simp only [unitDen, Nat.shiftLeft_eq, one_mul]

/-- The value of a word is its scaled integer over 2^1074. -/
theorem fval_eq_scaledVal (w : F64) : fval w = (scaledVal w : ℚ) * (2 : ℚ) ^ (-1074 : ℤ) := by
  have hm : (if fexp w = 0 then (ffrac w : ℚ) * (2 : ℚ) ^ (-1074 : ℤ)
      else ((2 : ℚ) ^ 52 + ffrac w) * (2 : ℚ) ^ ((fexp w : ℤ) - 1075)) =
      (scaledMag w : ℚ) * (2 : ℚ) ^ (-1074 : ℤ) := by
    rw [scaledMag_eq]
    split
    · rfl
    · rename_i h
      push_cast
      rw [mul_assoc, ← zpow_natCast (2 : ℚ) (fexp w - 1), ← zpow_add₀ (by norm_num : (2 : ℚ) ≠ 0)]
      congr 2
      have : 1 ≤ fexp w := by omega
      push_cast [Nat.cast_sub this]
      ring
  rw [fval, hm, scaledVal]
  cases fsign w <;> simp

/-- A finite word has value zero exactly when it is a zero. -/
theorem fval_eq_zero_iff (w : F64) : fval w = 0 ↔ isZero w = true := by
  have hp : (0 : ℚ) < (2 : ℚ) ^ (-1074 : ℤ) := by positivity
  rw [fval_eq_scaledVal, mul_eq_zero, or_iff_left (ne_of_gt hp)]
  have hz : scaledMag w = 0 ↔ isZero w = true := by
    rw [scaledMag_eq]
    by_cases h : fexp w = 0 <;> simp [isZero, h]
  rw [← hz, scaledVal]
  cases fsign w <;> simp

/-- Negation, with its mask as a power of two. -/
theorem fneg_eq (a : F64) : fneg a = a ^^^ BitVec.twoPow 64 63 := rfl
/-- Negation flips the sign. -/
theorem fsign_fneg (a : F64) : fsign (fneg a) = !fsign a := by
  simp [fsign, fneg]
/-- Negation keeps the exponent field. -/
theorem fexp_fneg (a : F64) : fexp (fneg a) = fexp a := by
  have : (fneg a).extractLsb' 52 11 = a.extractLsb' 52 11 := by
    apply BitVec.eq_of_getLsbD_eq
    intro n hn
    simp only [fneg_eq, BitVec.getLsbD_extractLsb', BitVec.getLsbD_xor, BitVec.getLsbD_twoPow]
    have : 63 ≠ 52 + n := by omega
    simp [this]
  simp [fexp, this]
/-- Negation keeps the fraction. -/
theorem ffrac_fneg (a : F64) : ffrac (fneg a) = ffrac a := by
  have : (fneg a).extractLsb' 0 52 = a.extractLsb' 0 52 := by
    apply BitVec.eq_of_getLsbD_eq
    intro n hn
    simp only [fneg_eq, BitVec.getLsbD_extractLsb', BitVec.getLsbD_xor, BitVec.getLsbD_twoPow]
    have : 63 ≠ n := by omega
    simp [this]
  simp [ffrac, this]

@[simp] theorem isNan_fneg (a : F64) : isNan (fneg a) = isNan a := by
  simp [isNan, fexp_fneg, ffrac_fneg]
@[simp] theorem isInf_fneg (a : F64) : isInf (fneg a) = isInf a := by
  simp [isInf, fexp_fneg, ffrac_fneg]
@[simp] theorem isFinite_fneg (a : F64) : isFinite (fneg a) = isFinite a := by
  simp [isFinite, fexp_fneg]
@[simp] theorem isZero_fneg (a : F64) : isZero (fneg a) = isZero a := by
  simp [isZero, fexp_fneg, ffrac_fneg]
/-- Negation negates the scaled integer. -/
theorem scaledVal_fneg (a : F64) : scaledVal (fneg a) = -scaledVal a := by
  have : scaledMag (fneg a) = scaledMag a := by simp [scaledMag, fexp_fneg, ffrac_fneg]
  simp only [scaledVal, fsign_fneg, this]
  cases fsign a <;> simp

/-! ### Rounding helpers (R92, R93) -/

/-- `floorLog2` brackets the ratio by two neighbouring powers of two, written without division. -/
theorem floorLog2_spec (num den : Nat) (hn : 0 < num) (hd : 0 < den) :
    let d := floorLog2 num den
    den * 2 ^ d.toNat ≤ num * 2 ^ (-d).toNat ∧
      num * 2 ^ (-(d + 1)).toNat < den * 2 ^ (d + 1).toNat := by
  have n1 := Nat.log2_self_le (n := num) (by omega)
  have n2 := Nat.lt_log2_self (n := num)
  have d1 := Nat.log2_self_le (n := den) (by omega)
  have d2 := Nat.lt_log2_self (n := den)
  generalize hx : num.log2 = x at n1 n2
  generalize hy : den.log2 = y at d1 d2
  have up : ∀ e : Int, e = (x : Int) - y + 1 → num * 2 ^ (-e).toNat < den * 2 ^ e.toNat := by
    intro e he
    calc num * 2 ^ (-e).toNat < 2 ^ (x + 1) * 2 ^ (-e).toNat :=
          Nat.mul_lt_mul_of_pos_right n2 (by positivity)
      _ = 2 ^ y * 2 ^ e.toNat := by rw [← pow_add, ← pow_add]; congr 1; omega
      _ ≤ den * 2 ^ e.toNat := Nat.mul_le_mul_right _ d1
  have low : ∀ e : Int, e = (x : Int) - y - 1 → den * 2 ^ e.toNat ≤ num * 2 ^ (-e).toNat := by
    intro e he
    calc den * 2 ^ e.toNat ≤ 2 ^ (y + 1) * 2 ^ e.toNat := Nat.mul_le_mul_right _ (by omega)
      _ = 2 ^ x * 2 ^ (-e).toNat := by rw [← pow_add, ← pow_add]; congr 1; omega
      _ ≤ num * 2 ^ (-e).toNat := Nat.mul_le_mul_right _ n1
  simp only [floorLog2, Nat.shiftLeft_eq, hx, hy]
  split
  · rename_i h
    exact ⟨h, up _ rfl⟩
  · rename_i h
    refine ⟨low _ rfl, ?_⟩
    have e : (x : Int) - y - 1 + 1 = (x : Int) - y := by omega
    rw [e]
    omega

/-- The digits decided so far: what `isqrtBits` returns is a root of `n` once it starts below one. -/
theorem isqrtBits_spec (bit n root : Nat) (h1 : root * root ≤ n)
    (h2 : n < (root + 2 ^ bit) * (root + 2 ^ bit)) :
    isqrtBits bit n root * isqrtBits bit n root ≤ n ∧
      n < (isqrtBits bit n root + 1) * (isqrtBits bit n root + 1) := by
  induction bit generalizing root with
  | zero => simpa [isqrtBits] using ⟨h1, by simpa using h2⟩
  | succ bit ih =>
    simp only [isqrtBits, Nat.shiftLeft_eq, one_mul]
    split
    · rename_i h
      refine ih _ h ?_
      have : root + 2 ^ bit + 2 ^ bit = root + 2 ^ (bit + 1) := by rw [pow_succ]; omega
      rwa [this]
    · rename_i h
      exact ih _ h1 (by omega)

/-- `isqrt n` is the floor of the square root of `n`. -/
theorem isqrt_spec (n : Nat) : isqrt n * isqrt n ≤ n ∧ n < (isqrt n + 1) * (isqrt n + 1) := by
  refine isqrtBits_spec _ n 0 (by omega) ?_
  have h := Nat.lt_log2_self (n := n)
  calc n < 2 ^ (n.log2 + 1) := h
    _ ≤ 2 ^ (n.log2 / 2 + 1 + (n.log2 / 2 + 1)) := Nat.pow_le_pow_right (by omega) (by omega)
    _ = _ := by rw [pow_add]; simp

/-- `roundHalfEven` on a quotient and its remainder: the integer nearest to the quotient, the even one at a
tie, all over the denominator. -/
theorem roundHalfEven_spec (n d : Nat) (hd : 0 < d) :
    let r := roundHalfEven (n / d) (compare (2 * (n % d)) d)
    2 * n ≤ 2 * r * d + d ∧ 2 * r * d ≤ 2 * n + d ∧
      (2 * n = 2 * r * d + d ∨ 2 * r * d = 2 * n + d → r % 2 = 0) := by
  have hm := Nat.div_add_mod n d
  have hl := Nat.mod_lt n hd
  generalize n / d = q at *
  generalize n % d = m at *
  have hc : d * q = q * d := Nat.mul_comm _ _
  have e1 : 2 * q * d = 2 * (q * d) := by ring
  have e2 : 2 * (q + 1) * d = 2 * (q * d) + 2 * d := by ring
  simp only [roundHalfEven]
  rcases lt_trichotomy (2 * m) d with h | h | h
  · rw [compare_lt_iff_lt.mpr h]
    dsimp only
    refine ⟨by omega, by omega, ?_⟩
    intro h'; omega
  · rw [compare_eq_iff_eq.mpr h]
    dsimp only
    split
    · refine ⟨by omega, by omega, fun _ => by assumption⟩
    · refine ⟨by omega, by omega, fun _ => by omega⟩
  · rw [compare_gt_iff_gt.mpr h]
    dsimp only
    refine ⟨by omega, by omega, ?_⟩
    intro h'; omega

/-! ### NaN operands (R94) -/

@[simp] theorem fadd_nan_left {a : F64} (b : F64) (h : isNan a = true) : fadd a b = qNaN := by
  simp [fadd, h]
@[simp] theorem fadd_nan_right (a : F64) {b : F64} (h : isNan b = true) : fadd a b = qNaN := by
  simp [fadd, h]
@[simp] theorem fsub_nan_left {a : F64} (b : F64) (h : isNan a = true) : fsub a b = qNaN := by
  simp [fsub, h]
@[simp] theorem fsub_nan_right (a : F64) {b : F64} (h : isNan b = true) : fsub a b = qNaN := by
  simp [fsub, h]
@[simp] theorem fmul_nan_left {a : F64} (b : F64) (h : isNan a = true) : fmul a b = qNaN := by
  simp [fmul, h]
@[simp] theorem fmul_nan_right (a : F64) {b : F64} (h : isNan b = true) : fmul a b = qNaN := by
  simp [fmul, h]
@[simp] theorem fdiv_nan_left {a : F64} (b : F64) (h : isNan a = true) : fdiv a b = qNaN := by
  simp [fdiv, h]
@[simp] theorem fdiv_nan_right (a : F64) {b : F64} (h : isNan b = true) : fdiv a b = qNaN := by
  simp [fdiv, h]
@[simp] theorem fsqrt_nan {a : F64} (h : isNan a = true) : fsqrt a = qNaN := by
  simp [fsqrt, h]
@[simp] theorem ffma_nan_1 {a : F64} (b c : F64) (h : isNan a = true) : ffma a b c = qNaN := by
  simp [ffma, h]
@[simp] theorem ffma_nan_2 (a : F64) {b : F64} (c : F64) (h : isNan b = true) : ffma a b c = qNaN := by
  simp [ffma, h]
@[simp] theorem ffma_nan_3 (a b : F64) {c : F64} (h : isNan c = true) : ffma a b c = qNaN := by
  simp [ffma, h]

/-- On finite operands the sum is one rounding of the sum of the scaled integers (R95). -/
theorem fadd_finite {a b : F64} (ha : isFinite a = true) (hb : isFinite b = true) :
    fadd a b = rn64 (scaledVal a + scaledVal b) unitDen (fsign a && fsign b) := by
  simp [fadd, isNan_of_finite ha, isNan_of_finite hb, isInf_of_finite ha, isInf_of_finite hb]
/-- On finite operands the product is one rounding of the product of the scaled integers (R97). -/
theorem fmul_finite {a b : F64} (ha : isFinite a = true) (hb : isFinite b = true) :
    fmul a b = rn64 (scaledVal a * scaledVal b) (unitDen * unitDen) (fsign a ^^ fsign b) := by
  simp [fmul, isNan_of_finite ha, isNan_of_finite hb, isInf_of_finite ha, isInf_of_finite hb]
/-- On finite operands the fused multiply-add is one rounding of the exact value (R100). -/
theorem ffma_finite {a b c : F64} (ha : isFinite a = true) (hb : isFinite b = true)
    (hc : isFinite c = true) :
    ffma a b c = rn64 (scaledVal a * scaledVal b + scaledVal c * unitDen) (unitDen * unitDen)
      ((fsign a ^^ fsign b) && fsign c) := by
  simp [ffma, isNan_of_finite ha, isNan_of_finite hb, isNan_of_finite hc, isInf_of_finite ha,
    isInf_of_finite hb, isInf_of_finite hc]

end Sys2Proof.Machine
end

