-- ==== Sys2Proof/Laws/State.lean ====
section
/-! SUPPORT. One lemma per field per update of State, so that no proof unfolds a record update, and the
register-file read-after-write laws. -/

namespace Sys2Proof.Machine

@[simp] theorem State.writeF_f (s : State) (r : Reg) (v : F64) : (s.writeF r v).f = rset s.f r v := rfl
@[simp] theorem State.writeF_d (s : State) (r : Reg) (v : F64) : (s.writeF r v).d = s.d := rfl
@[simp] theorem State.writeF_q (s : State) (r : Reg) (v : F64) : (s.writeF r v).q = s.q := rfl
@[simp] theorem State.writeF_k (s : State) (r : Reg) (v : F64) : (s.writeF r v).k = s.k := rfl
@[simp] theorem State.writeF_vf (s : State) (r : Reg) (v : F64) : (s.writeF r v).vf = rset s.vf r true := rfl
@[simp] theorem State.writeF_vdh (s : State) (r : Reg) (v : F64) : (s.writeF r v).vdh = s.vdh := rfl
@[simp] theorem State.writeF_vdl (s : State) (r : Reg) (v : F64) : (s.writeF r v).vdl = s.vdl := rfl
@[simp] theorem State.writeF_vqh (s : State) (r : Reg) (v : F64) : (s.writeF r v).vqh = s.vqh := rfl
@[simp] theorem State.writeF_vql (s : State) (r : Reg) (v : F64) : (s.writeF r v).vql = s.vql := rfl
@[simp] theorem State.writeF_vqe (s : State) (r : Reg) (v : F64) : (s.writeF r v).vqe = s.vqe := rfl
@[simp] theorem State.writeF_vk (s : State) (r : Reg) (v : F64) : (s.writeF r v).vk = s.vk := rfl
@[simp] theorem State.writeF_sr (s : State) (r : Reg) (v : F64) : (s.writeF r v).sr = s.sr := rfl
@[simp] theorem State.writeF_input (s : State) (r : Reg) (v : F64) : (s.writeF r v).input = s.input := rfl
@[simp] theorem State.writeF_wdata (s : State) (r : Reg) (v : F64) : (s.writeF r v).wdata = s.wdata := rfl
@[simp] theorem State.writeF_output (s : State) (r : Reg) (v : F64) : (s.writeF r v).output = s.output := rfl

@[simp] theorem State.writeD_f (s : State) (r : Reg) (v : DReg) : (s.writeD r v).f = s.f := rfl
@[simp] theorem State.writeD_d (s : State) (r : Reg) (v : DReg) : (s.writeD r v).d = rset s.d r v := rfl
@[simp] theorem State.writeD_q (s : State) (r : Reg) (v : DReg) : (s.writeD r v).q = s.q := rfl
@[simp] theorem State.writeD_k (s : State) (r : Reg) (v : DReg) : (s.writeD r v).k = s.k := rfl
@[simp] theorem State.writeD_vf (s : State) (r : Reg) (v : DReg) : (s.writeD r v).vf = s.vf := rfl
@[simp] theorem State.writeD_vdh (s : State) (r : Reg) (v : DReg) : (s.writeD r v).vdh = rset s.vdh r true := rfl
@[simp] theorem State.writeD_vdl (s : State) (r : Reg) (v : DReg) : (s.writeD r v).vdl = rset s.vdl r true := rfl
@[simp] theorem State.writeD_vqh (s : State) (r : Reg) (v : DReg) : (s.writeD r v).vqh = s.vqh := rfl
@[simp] theorem State.writeD_vql (s : State) (r : Reg) (v : DReg) : (s.writeD r v).vql = s.vql := rfl
@[simp] theorem State.writeD_vqe (s : State) (r : Reg) (v : DReg) : (s.writeD r v).vqe = s.vqe := rfl
@[simp] theorem State.writeD_vk (s : State) (r : Reg) (v : DReg) : (s.writeD r v).vk = s.vk := rfl
@[simp] theorem State.writeD_sr (s : State) (r : Reg) (v : DReg) : (s.writeD r v).sr = s.sr := rfl
@[simp] theorem State.writeD_input (s : State) (r : Reg) (v : DReg) : (s.writeD r v).input = s.input := rfl
@[simp] theorem State.writeD_wdata (s : State) (r : Reg) (v : DReg) : (s.writeD r v).wdata = s.wdata := rfl
@[simp] theorem State.writeD_output (s : State) (r : Reg) (v : DReg) : (s.writeD r v).output = s.output := rfl

@[simp] theorem State.writeDHi_f (s : State) (r : Reg) (h : F64) : (s.writeDHi r h).f = s.f := rfl
@[simp] theorem State.writeDHi_d (s : State) (r : Reg) (h : F64) : (s.writeDHi r h).d = rset s.d r { rget s.d r with hi := h } := rfl
@[simp] theorem State.writeDHi_q (s : State) (r : Reg) (h : F64) : (s.writeDHi r h).q = s.q := rfl
@[simp] theorem State.writeDHi_k (s : State) (r : Reg) (h : F64) : (s.writeDHi r h).k = s.k := rfl
@[simp] theorem State.writeDHi_vf (s : State) (r : Reg) (h : F64) : (s.writeDHi r h).vf = s.vf := rfl
@[simp] theorem State.writeDHi_vdh (s : State) (r : Reg) (h : F64) : (s.writeDHi r h).vdh = rset s.vdh r true := rfl
@[simp] theorem State.writeDHi_vdl (s : State) (r : Reg) (h : F64) : (s.writeDHi r h).vdl = s.vdl := rfl
@[simp] theorem State.writeDHi_vqh (s : State) (r : Reg) (h : F64) : (s.writeDHi r h).vqh = s.vqh := rfl
@[simp] theorem State.writeDHi_vql (s : State) (r : Reg) (h : F64) : (s.writeDHi r h).vql = s.vql := rfl
@[simp] theorem State.writeDHi_vqe (s : State) (r : Reg) (h : F64) : (s.writeDHi r h).vqe = s.vqe := rfl
@[simp] theorem State.writeDHi_vk (s : State) (r : Reg) (h : F64) : (s.writeDHi r h).vk = s.vk := rfl
@[simp] theorem State.writeDHi_sr (s : State) (r : Reg) (h : F64) : (s.writeDHi r h).sr = s.sr := rfl
@[simp] theorem State.writeDHi_input (s : State) (r : Reg) (h : F64) : (s.writeDHi r h).input = s.input := rfl
@[simp] theorem State.writeDHi_wdata (s : State) (r : Reg) (h : F64) : (s.writeDHi r h).wdata = s.wdata := rfl
@[simp] theorem State.writeDHi_output (s : State) (r : Reg) (h : F64) : (s.writeDHi r h).output = s.output := rfl

@[simp] theorem State.writeDLo_f (s : State) (r : Reg) (l : F64) : (s.writeDLo r l).f = s.f := rfl
@[simp] theorem State.writeDLo_d (s : State) (r : Reg) (l : F64) : (s.writeDLo r l).d = rset s.d r { rget s.d r with lo := l } := rfl
@[simp] theorem State.writeDLo_q (s : State) (r : Reg) (l : F64) : (s.writeDLo r l).q = s.q := rfl
@[simp] theorem State.writeDLo_k (s : State) (r : Reg) (l : F64) : (s.writeDLo r l).k = s.k := rfl
@[simp] theorem State.writeDLo_vf (s : State) (r : Reg) (l : F64) : (s.writeDLo r l).vf = s.vf := rfl
@[simp] theorem State.writeDLo_vdh (s : State) (r : Reg) (l : F64) : (s.writeDLo r l).vdh = s.vdh := rfl
@[simp] theorem State.writeDLo_vdl (s : State) (r : Reg) (l : F64) : (s.writeDLo r l).vdl = rset s.vdl r true := rfl
@[simp] theorem State.writeDLo_vqh (s : State) (r : Reg) (l : F64) : (s.writeDLo r l).vqh = s.vqh := rfl
@[simp] theorem State.writeDLo_vql (s : State) (r : Reg) (l : F64) : (s.writeDLo r l).vql = s.vql := rfl
@[simp] theorem State.writeDLo_vqe (s : State) (r : Reg) (l : F64) : (s.writeDLo r l).vqe = s.vqe := rfl
@[simp] theorem State.writeDLo_vk (s : State) (r : Reg) (l : F64) : (s.writeDLo r l).vk = s.vk := rfl
@[simp] theorem State.writeDLo_sr (s : State) (r : Reg) (l : F64) : (s.writeDLo r l).sr = s.sr := rfl
@[simp] theorem State.writeDLo_input (s : State) (r : Reg) (l : F64) : (s.writeDLo r l).input = s.input := rfl
@[simp] theorem State.writeDLo_wdata (s : State) (r : Reg) (l : F64) : (s.writeDLo r l).wdata = s.wdata := rfl
@[simp] theorem State.writeDLo_output (s : State) (r : Reg) (l : F64) : (s.writeDLo r l).output = s.output := rfl

@[simp] theorem State.writeQ_f (s : State) (r : Reg) (v : QReg) : (s.writeQ r v).f = s.f := rfl
@[simp] theorem State.writeQ_d (s : State) (r : Reg) (v : QReg) : (s.writeQ r v).d = s.d := rfl
@[simp] theorem State.writeQ_q (s : State) (r : Reg) (v : QReg) : (s.writeQ r v).q = rset s.q r v := rfl
@[simp] theorem State.writeQ_k (s : State) (r : Reg) (v : QReg) : (s.writeQ r v).k = s.k := rfl
@[simp] theorem State.writeQ_vf (s : State) (r : Reg) (v : QReg) : (s.writeQ r v).vf = s.vf := rfl
@[simp] theorem State.writeQ_vdh (s : State) (r : Reg) (v : QReg) : (s.writeQ r v).vdh = s.vdh := rfl
@[simp] theorem State.writeQ_vdl (s : State) (r : Reg) (v : QReg) : (s.writeQ r v).vdl = s.vdl := rfl
@[simp] theorem State.writeQ_vqh (s : State) (r : Reg) (v : QReg) : (s.writeQ r v).vqh = rset s.vqh r true := rfl
@[simp] theorem State.writeQ_vql (s : State) (r : Reg) (v : QReg) : (s.writeQ r v).vql = rset s.vql r true := rfl
@[simp] theorem State.writeQ_vqe (s : State) (r : Reg) (v : QReg) : (s.writeQ r v).vqe = rset s.vqe r true := rfl
@[simp] theorem State.writeQ_vk (s : State) (r : Reg) (v : QReg) : (s.writeQ r v).vk = s.vk := rfl
@[simp] theorem State.writeQ_sr (s : State) (r : Reg) (v : QReg) : (s.writeQ r v).sr = s.sr := rfl
@[simp] theorem State.writeQ_input (s : State) (r : Reg) (v : QReg) : (s.writeQ r v).input = s.input := rfl
@[simp] theorem State.writeQ_wdata (s : State) (r : Reg) (v : QReg) : (s.writeQ r v).wdata = s.wdata := rfl
@[simp] theorem State.writeQ_output (s : State) (r : Reg) (v : QReg) : (s.writeQ r v).output = s.output := rfl

@[simp] theorem State.writeQHi_f (s : State) (r : Reg) (h : Word) : (s.writeQHi r h).f = s.f := rfl
@[simp] theorem State.writeQHi_d (s : State) (r : Reg) (h : Word) : (s.writeQHi r h).d = s.d := rfl
@[simp] theorem State.writeQHi_q (s : State) (r : Reg) (h : Word) : (s.writeQHi r h).q = rset s.q r { rget s.q r with mant := h ++ (rget s.q r).mant.extractLsb' 0 64 } := rfl
@[simp] theorem State.writeQHi_k (s : State) (r : Reg) (h : Word) : (s.writeQHi r h).k = s.k := rfl
@[simp] theorem State.writeQHi_vf (s : State) (r : Reg) (h : Word) : (s.writeQHi r h).vf = s.vf := rfl
@[simp] theorem State.writeQHi_vdh (s : State) (r : Reg) (h : Word) : (s.writeQHi r h).vdh = s.vdh := rfl
@[simp] theorem State.writeQHi_vdl (s : State) (r : Reg) (h : Word) : (s.writeQHi r h).vdl = s.vdl := rfl
@[simp] theorem State.writeQHi_vqh (s : State) (r : Reg) (h : Word) : (s.writeQHi r h).vqh = rset s.vqh r true := rfl
@[simp] theorem State.writeQHi_vql (s : State) (r : Reg) (h : Word) : (s.writeQHi r h).vql = s.vql := rfl
@[simp] theorem State.writeQHi_vqe (s : State) (r : Reg) (h : Word) : (s.writeQHi r h).vqe = s.vqe := rfl
@[simp] theorem State.writeQHi_vk (s : State) (r : Reg) (h : Word) : (s.writeQHi r h).vk = s.vk := rfl
@[simp] theorem State.writeQHi_sr (s : State) (r : Reg) (h : Word) : (s.writeQHi r h).sr = s.sr := rfl
@[simp] theorem State.writeQHi_input (s : State) (r : Reg) (h : Word) : (s.writeQHi r h).input = s.input := rfl
@[simp] theorem State.writeQHi_wdata (s : State) (r : Reg) (h : Word) : (s.writeQHi r h).wdata = s.wdata := rfl
@[simp] theorem State.writeQHi_output (s : State) (r : Reg) (h : Word) : (s.writeQHi r h).output = s.output := rfl

@[simp] theorem State.writeQLo_f (s : State) (r : Reg) (l : Word) : (s.writeQLo r l).f = s.f := rfl
@[simp] theorem State.writeQLo_d (s : State) (r : Reg) (l : Word) : (s.writeQLo r l).d = s.d := rfl
@[simp] theorem State.writeQLo_q (s : State) (r : Reg) (l : Word) : (s.writeQLo r l).q = rset s.q r { rget s.q r with mant := (rget s.q r).mant.extractLsb' 64 64 ++ l } := rfl
@[simp] theorem State.writeQLo_k (s : State) (r : Reg) (l : Word) : (s.writeQLo r l).k = s.k := rfl
@[simp] theorem State.writeQLo_vf (s : State) (r : Reg) (l : Word) : (s.writeQLo r l).vf = s.vf := rfl
@[simp] theorem State.writeQLo_vdh (s : State) (r : Reg) (l : Word) : (s.writeQLo r l).vdh = s.vdh := rfl
@[simp] theorem State.writeQLo_vdl (s : State) (r : Reg) (l : Word) : (s.writeQLo r l).vdl = s.vdl := rfl
@[simp] theorem State.writeQLo_vqh (s : State) (r : Reg) (l : Word) : (s.writeQLo r l).vqh = s.vqh := rfl
@[simp] theorem State.writeQLo_vql (s : State) (r : Reg) (l : Word) : (s.writeQLo r l).vql = rset s.vql r true := rfl
@[simp] theorem State.writeQLo_vqe (s : State) (r : Reg) (l : Word) : (s.writeQLo r l).vqe = s.vqe := rfl
@[simp] theorem State.writeQLo_vk (s : State) (r : Reg) (l : Word) : (s.writeQLo r l).vk = s.vk := rfl
@[simp] theorem State.writeQLo_sr (s : State) (r : Reg) (l : Word) : (s.writeQLo r l).sr = s.sr := rfl
@[simp] theorem State.writeQLo_input (s : State) (r : Reg) (l : Word) : (s.writeQLo r l).input = s.input := rfl
@[simp] theorem State.writeQLo_wdata (s : State) (r : Reg) (l : Word) : (s.writeQLo r l).wdata = s.wdata := rfl
@[simp] theorem State.writeQLo_output (s : State) (r : Reg) (l : Word) : (s.writeQLo r l).output = s.output := rfl

@[simp] theorem State.writeQE_f (s : State) (r : Reg) (b : Bool) (e : BitVec 16) : (s.writeQE r b e).f = s.f := rfl
@[simp] theorem State.writeQE_d (s : State) (r : Reg) (b : Bool) (e : BitVec 16) : (s.writeQE r b e).d = s.d := rfl
@[simp] theorem State.writeQE_q (s : State) (r : Reg) (b : Bool) (e : BitVec 16) : (s.writeQE r b e).q = rset s.q r { rget s.q r with sign := b, exp := e } := rfl
@[simp] theorem State.writeQE_k (s : State) (r : Reg) (b : Bool) (e : BitVec 16) : (s.writeQE r b e).k = s.k := rfl
@[simp] theorem State.writeQE_vf (s : State) (r : Reg) (b : Bool) (e : BitVec 16) : (s.writeQE r b e).vf = s.vf := rfl
@[simp] theorem State.writeQE_vdh (s : State) (r : Reg) (b : Bool) (e : BitVec 16) : (s.writeQE r b e).vdh = s.vdh := rfl
@[simp] theorem State.writeQE_vdl (s : State) (r : Reg) (b : Bool) (e : BitVec 16) : (s.writeQE r b e).vdl = s.vdl := rfl
@[simp] theorem State.writeQE_vqh (s : State) (r : Reg) (b : Bool) (e : BitVec 16) : (s.writeQE r b e).vqh = s.vqh := rfl
@[simp] theorem State.writeQE_vql (s : State) (r : Reg) (b : Bool) (e : BitVec 16) : (s.writeQE r b e).vql = s.vql := rfl
@[simp] theorem State.writeQE_vqe (s : State) (r : Reg) (b : Bool) (e : BitVec 16) : (s.writeQE r b e).vqe = rset s.vqe r true := rfl
@[simp] theorem State.writeQE_vk (s : State) (r : Reg) (b : Bool) (e : BitVec 16) : (s.writeQE r b e).vk = s.vk := rfl
@[simp] theorem State.writeQE_sr (s : State) (r : Reg) (b : Bool) (e : BitVec 16) : (s.writeQE r b e).sr = s.sr := rfl
@[simp] theorem State.writeQE_input (s : State) (r : Reg) (b : Bool) (e : BitVec 16) : (s.writeQE r b e).input = s.input := rfl
@[simp] theorem State.writeQE_wdata (s : State) (r : Reg) (b : Bool) (e : BitVec 16) : (s.writeQE r b e).wdata = s.wdata := rfl
@[simp] theorem State.writeQE_output (s : State) (r : Reg) (b : Bool) (e : BitVec 16) : (s.writeQE r b e).output = s.output := rfl

@[simp] theorem State.writeK_f (s : State) (r : Reg) (v : Word) : (s.writeK r v).f = s.f := rfl
@[simp] theorem State.writeK_d (s : State) (r : Reg) (v : Word) : (s.writeK r v).d = s.d := rfl
@[simp] theorem State.writeK_q (s : State) (r : Reg) (v : Word) : (s.writeK r v).q = s.q := rfl
@[simp] theorem State.writeK_k (s : State) (r : Reg) (v : Word) : (s.writeK r v).k = rset s.k r v := rfl
@[simp] theorem State.writeK_vf (s : State) (r : Reg) (v : Word) : (s.writeK r v).vf = s.vf := rfl
@[simp] theorem State.writeK_vdh (s : State) (r : Reg) (v : Word) : (s.writeK r v).vdh = s.vdh := rfl
@[simp] theorem State.writeK_vdl (s : State) (r : Reg) (v : Word) : (s.writeK r v).vdl = s.vdl := rfl
@[simp] theorem State.writeK_vqh (s : State) (r : Reg) (v : Word) : (s.writeK r v).vqh = s.vqh := rfl
@[simp] theorem State.writeK_vql (s : State) (r : Reg) (v : Word) : (s.writeK r v).vql = s.vql := rfl
@[simp] theorem State.writeK_vqe (s : State) (r : Reg) (v : Word) : (s.writeK r v).vqe = s.vqe := rfl
@[simp] theorem State.writeK_vk (s : State) (r : Reg) (v : Word) : (s.writeK r v).vk = rset s.vk r true := rfl
@[simp] theorem State.writeK_sr (s : State) (r : Reg) (v : Word) : (s.writeK r v).sr = s.sr := rfl
@[simp] theorem State.writeK_input (s : State) (r : Reg) (v : Word) : (s.writeK r v).input = s.input := rfl
@[simp] theorem State.writeK_wdata (s : State) (r : Reg) (v : Word) : (s.writeK r v).wdata = s.wdata := rfl
@[simp] theorem State.writeK_output (s : State) (r : Reg) (v : Word) : (s.writeK r v).output = s.output := rfl

@[simp] theorem State.setSr_f (s : State) (x : Status) : (s.setSr x).f = s.f := rfl
@[simp] theorem State.setSr_d (s : State) (x : Status) : (s.setSr x).d = s.d := rfl
@[simp] theorem State.setSr_q (s : State) (x : Status) : (s.setSr x).q = s.q := rfl
@[simp] theorem State.setSr_k (s : State) (x : Status) : (s.setSr x).k = s.k := rfl
@[simp] theorem State.setSr_vf (s : State) (x : Status) : (s.setSr x).vf = s.vf := rfl
@[simp] theorem State.setSr_vdh (s : State) (x : Status) : (s.setSr x).vdh = s.vdh := rfl
@[simp] theorem State.setSr_vdl (s : State) (x : Status) : (s.setSr x).vdl = s.vdl := rfl
@[simp] theorem State.setSr_vqh (s : State) (x : Status) : (s.setSr x).vqh = s.vqh := rfl
@[simp] theorem State.setSr_vql (s : State) (x : Status) : (s.setSr x).vql = s.vql := rfl
@[simp] theorem State.setSr_vqe (s : State) (x : Status) : (s.setSr x).vqe = s.vqe := rfl
@[simp] theorem State.setSr_vk (s : State) (x : Status) : (s.setSr x).vk = s.vk := rfl
@[simp] theorem State.setSr_sr (s : State) (x : Status) : (s.setSr x).sr = x := rfl
@[simp] theorem State.setSr_input (s : State) (x : Status) : (s.setSr x).input = s.input := rfl
@[simp] theorem State.setSr_wdata (s : State) (x : Status) : (s.setSr x).wdata = s.wdata := rfl
@[simp] theorem State.setSr_output (s : State) (x : Status) : (s.setSr x).output = s.output := rfl

@[simp] theorem State.respond_f (s : State) (c : BitVec 4) (w : Word) : (s.respond c w).f = s.f := rfl
@[simp] theorem State.respond_d (s : State) (c : BitVec 4) (w : Word) : (s.respond c w).d = s.d := rfl
@[simp] theorem State.respond_q (s : State) (c : BitVec 4) (w : Word) : (s.respond c w).q = s.q := rfl
@[simp] theorem State.respond_k (s : State) (c : BitVec 4) (w : Word) : (s.respond c w).k = s.k := rfl
@[simp] theorem State.respond_vf (s : State) (c : BitVec 4) (w : Word) : (s.respond c w).vf = s.vf := rfl
@[simp] theorem State.respond_vdh (s : State) (c : BitVec 4) (w : Word) : (s.respond c w).vdh = s.vdh := rfl
@[simp] theorem State.respond_vdl (s : State) (c : BitVec 4) (w : Word) : (s.respond c w).vdl = s.vdl := rfl
@[simp] theorem State.respond_vqh (s : State) (c : BitVec 4) (w : Word) : (s.respond c w).vqh = s.vqh := rfl
@[simp] theorem State.respond_vql (s : State) (c : BitVec 4) (w : Word) : (s.respond c w).vql = s.vql := rfl
@[simp] theorem State.respond_vqe (s : State) (c : BitVec 4) (w : Word) : (s.respond c w).vqe = s.vqe := rfl
@[simp] theorem State.respond_vk (s : State) (c : BitVec 4) (w : Word) : (s.respond c w).vk = s.vk := rfl
@[simp] theorem State.respond_sr (s : State) (c : BitVec 4) (w : Word) : (s.respond c w).sr = s.sr := rfl
@[simp] theorem State.respond_input (s : State) (c : BitVec 4) (w : Word) : (s.respond c w).input = s.input := rfl
@[simp] theorem State.respond_wdata (s : State) (c : BitVec 4) (w : Word) : (s.respond c w).wdata = s.wdata := rfl
@[simp] theorem State.respond_output (s : State) (c : BitVec 4) (w : Word) : (s.respond c w).output = s.output ++ [{ status := c, rdata := w }] := rfl

@[simp] theorem State.raise_f (s : State) (x : CmdFault) : (s.raise x).f = s.f := rfl
@[simp] theorem State.raise_d (s : State) (x : CmdFault) : (s.raise x).d = s.d := rfl
@[simp] theorem State.raise_q (s : State) (x : CmdFault) : (s.raise x).q = s.q := rfl
@[simp] theorem State.raise_k (s : State) (x : CmdFault) : (s.raise x).k = s.k := rfl
@[simp] theorem State.raise_vf (s : State) (x : CmdFault) : (s.raise x).vf = s.vf := rfl
@[simp] theorem State.raise_vdh (s : State) (x : CmdFault) : (s.raise x).vdh = s.vdh := rfl
@[simp] theorem State.raise_vdl (s : State) (x : CmdFault) : (s.raise x).vdl = s.vdl := rfl
@[simp] theorem State.raise_vqh (s : State) (x : CmdFault) : (s.raise x).vqh = s.vqh := rfl
@[simp] theorem State.raise_vql (s : State) (x : CmdFault) : (s.raise x).vql = s.vql := rfl
@[simp] theorem State.raise_vqe (s : State) (x : CmdFault) : (s.raise x).vqe = s.vqe := rfl
@[simp] theorem State.raise_vk (s : State) (x : CmdFault) : (s.raise x).vk = s.vk := rfl
@[simp] theorem State.raise_sr (s : State) (x : CmdFault) : (s.raise x).sr = s.sr.record x := rfl
@[simp] theorem State.raise_input (s : State) (x : CmdFault) : (s.raise x).input = s.input := rfl
@[simp] theorem State.raise_wdata (s : State) (x : CmdFault) : (s.raise x).wdata = s.wdata := rfl
@[simp] theorem State.raise_output (s : State) (x : CmdFault) : (s.raise x).output = s.output ++ [{ status := x.code, rdata := 0 }] := rfl

/-! ### Register files -/

/-- Reading a register file after a write: the written register reads the new value, every other register
its old one. -/
@[simp] theorem rget_rset {α : Type} (file : RegFile α) (r r' : Reg) (x : α) :
    rget (rset file r x) r' = if r' = r then x else rget file r' := by
  unfold rget rset
  rw [Vector.getElem_set]
  by_cases h : r' = r
  · simp [h]
  · have : ¬ r.toNat = r'.toNat := fun e => h (BitVec.eq_of_toNat_eq e.symm)
    simp [h, this]

/-- Two register files that agree on every register are equal. -/
theorem regFile_ext {α : Type} {a b : RegFile α} (h : ∀ r : Reg, rget a r = rget b r) : a = b := by
  apply Vector.ext
  intro i hi
  have := h (BitVec.ofNat 4 i)
  unfold rget at this
  have e : (BitVec.ofNat 4 i).toNat = i := by simp; omega
  simpa [e] using this

/-- A register of a file that holds one value everywhere. -/
@[simp] theorem rget_replicate {α : Type} (x : α) (r : Reg) :
    rget (Vector.replicate 16 x) r = x := by
  unfold rget
  exact Vector.getElem_replicate ..

end Sys2Proof.Machine
end

