-- ==== Sys2Proof/Laws/Components.lean ====
section
/-! SUPPORT. What each write does to the 112 components and their valid bits (R25, R27): one law per
write. -/

-- one theorem at a time: each concurrent one costs a thread and its stack
set_option Elab.async false

namespace Sys2Proof.Machine

/-- The upper half of a concatenation of two 64-bit words. -/
@[simp] theorem upper_half_append (a b : BitVec 64) : (a ++ b).extractLsb' 64 64 = a := by
  ext i hi
  simp only [BitVec.getElem_extractLsb', BitVec.getLsbD_append]
  simp [hi]

/-- The lower half of a concatenation of two 64-bit words. -/
@[simp] theorem lower_half_append (a b : BitVec 64) : (a ++ b).extractLsb' 0 64 = b := by
  ext i hi
  simp only [BitVec.getElem_extractLsb', BitVec.getLsbD_append]
  simp [hi]

/-- The components after `writeF`. -/
@[simp] theorem component_writeF (s : State) (r : Reg) (v : F64) (cc : Component) :
    (s.writeF r v).component cc =
      if cc = .f r then v else s.component cc := by
  cases cc <;> simp [State.component]

/-- The valid bits after `writeF`. -/
@[simp] theorem valid_writeF (s : State) (r : Reg) (v : F64) (cc : Component) :
    (s.writeF r v).valid cc =
      if cc = .f r then true else s.valid cc := by
  cases cc <;> simp [State.valid]

/-- The components after `writeD`. -/
@[simp] theorem component_writeD (s : State) (r : Reg) (v : DReg) (cc : Component) :
    (s.writeD r v).component cc =
      if cc = .dh r then v.hi else if cc = .dl r then v.lo else s.component cc := by
  cases cc <;> simp [State.component] <;> split <;> simp_all

/-- The valid bits after `writeD`. -/
@[simp] theorem valid_writeD (s : State) (r : Reg) (v : DReg) (cc : Component) :
    (s.writeD r v).valid cc =
      if cc = .dh r then true else if cc = .dl r then true else s.valid cc := by
  cases cc <;> simp [State.valid]

/-- The components after `writeDHi`. -/
@[simp] theorem component_writeDHi (s : State) (r : Reg) (h : F64) (cc : Component) :
    (s.writeDHi r h).component cc =
      if cc = .dh r then h else s.component cc := by
  cases cc <;> simp [State.component] <;> split <;> simp_all

/-- The valid bits after `writeDHi`. -/
@[simp] theorem valid_writeDHi (s : State) (r : Reg) (h : F64) (cc : Component) :
    (s.writeDHi r h).valid cc =
      if cc = .dh r then true else s.valid cc := by
  cases cc <;> simp [State.valid]

/-- The components after `writeDLo`. -/
@[simp] theorem component_writeDLo (s : State) (r : Reg) (l : F64) (cc : Component) :
    (s.writeDLo r l).component cc =
      if cc = .dl r then l else s.component cc := by
  cases cc <;> simp [State.component] <;> split <;> simp_all

/-- The valid bits after `writeDLo`. -/
@[simp] theorem valid_writeDLo (s : State) (r : Reg) (l : F64) (cc : Component) :
    (s.writeDLo r l).valid cc =
      if cc = .dl r then true else s.valid cc := by
  cases cc <;> simp [State.valid]

/-- The components after `writeQ`. -/
@[simp] theorem component_writeQ (s : State) (r : Reg) (v : QReg) (cc : Component) :
    (s.writeQ r v).component cc =
      if cc = .qh r then v.mant.extractLsb' 64 64 else if cc = .ql r then v.mant.extractLsb' 0 64 else if cc = .qe r then 0#47 ++ BitVec.ofBool v.sign ++ v.exp else s.component cc := by
  cases cc <;> simp [State.component] <;> split <;> simp_all

/-- The valid bits after `writeQ`. -/
@[simp] theorem valid_writeQ (s : State) (r : Reg) (v : QReg) (cc : Component) :
    (s.writeQ r v).valid cc =
      if cc = .qh r then true else if cc = .ql r then true else if cc = .qe r then true else s.valid cc := by
  cases cc <;> simp [State.valid]

/-- The components after `writeQHi`. -/
@[simp] theorem component_writeQHi (s : State) (r : Reg) (h : Word) (cc : Component) :
    (s.writeQHi r h).component cc =
      if cc = .qh r then h else s.component cc := by
  cases cc <;> simp [State.component] <;> split <;> simp_all

/-- The valid bits after `writeQHi`. -/
@[simp] theorem valid_writeQHi (s : State) (r : Reg) (h : Word) (cc : Component) :
    (s.writeQHi r h).valid cc =
      if cc = .qh r then true else s.valid cc := by
  cases cc <;> simp [State.valid]

/-- The components after `writeQLo`. -/
@[simp] theorem component_writeQLo (s : State) (r : Reg) (l : Word) (cc : Component) :
    (s.writeQLo r l).component cc =
      if cc = .ql r then l else s.component cc := by
  cases cc <;> simp [State.component] <;> split <;> simp_all

/-- The valid bits after `writeQLo`. -/
@[simp] theorem valid_writeQLo (s : State) (r : Reg) (l : Word) (cc : Component) :
    (s.writeQLo r l).valid cc =
      if cc = .ql r then true else s.valid cc := by
  cases cc <;> simp [State.valid]

/-- The components after `writeQE`. -/
@[simp] theorem component_writeQE (s : State) (r : Reg) (b : Bool) (e : BitVec 16) (cc : Component) :
    (s.writeQE r b e).component cc =
      if cc = .qe r then 0#47 ++ BitVec.ofBool b ++ e else s.component cc := by
  cases cc <;> simp [State.component] <;> split <;> simp_all

/-- The valid bits after `writeQE`. -/
@[simp] theorem valid_writeQE (s : State) (r : Reg) (b : Bool) (e : BitVec 16) (cc : Component) :
    (s.writeQE r b e).valid cc =
      if cc = .qe r then true else s.valid cc := by
  cases cc <;> simp [State.valid]

/-- The components after `writeK`. -/
@[simp] theorem component_writeK (s : State) (r : Reg) (v : Word) (cc : Component) :
    (s.writeK r v).component cc =
      if cc = .k r then v else s.component cc := by
  cases cc <;> simp [State.component]

/-- The valid bits after `writeK`. -/
@[simp] theorem valid_writeK (s : State) (r : Reg) (v : Word) (cc : Component) :
    (s.writeK r v).valid cc =
      if cc = .k r then true else s.valid cc := by
  cases cc <;> simp [State.valid]

@[simp] theorem component_setSr (s : State) (x : Status) (cc : Component) :
    (s.setSr x).component cc = s.component cc := by
  cases cc <;> rfl

@[simp] theorem valid_setSr (s : State) (x : Status) (cc : Component) :
    (s.setSr x).valid cc = s.valid cc := by
  cases cc <;> rfl

@[simp] theorem component_respond (s : State) (c : BitVec 4) (w : Word) (cc : Component) :
    (s.respond c w).component cc = s.component cc := by
  cases cc <;> rfl

@[simp] theorem valid_respond (s : State) (c : BitVec 4) (w : Word) (cc : Component) :
    (s.respond c w).valid cc = s.valid cc := by
  cases cc <;> rfl

@[simp] theorem component_raise (s : State) (x : CmdFault) (cc : Component) :
    (s.raise x).component cc = s.component cc := by
  cases cc <;> rfl

@[simp] theorem valid_raise (s : State) (x : CmdFault) (cc : Component) :
    (s.raise x).valid cc = s.valid cc := by
  cases cc <;> rfl

end Sys2Proof.Machine
end

