-- ==== Sys2Proof/Laws/Endings.lean ====
section
/-! SUPPORT. What the shared operations can do, once each: reading an operand, raising a fault, ending a
command, changing SR. Proofs cite these instead of unfolding the operations. -/

-- one theorem at a time: each concurrent one costs a thread and its stack
set_option Elab.async false

namespace Sys2Proof.Machine

/-! ### Reading operands (R26) -/

/-- A guarded read succeeds exactly when its valid bit is 1, with the guarded value. -/
theorem needValid_ok_iff {α : Type} (b : Bool) (v w : α) :
    needValid b v = .ok w ↔ b = true ∧ v = w := by
  cases b <;> simp [needValid]

/-- A guarded read fails only with Uninit, exactly when its valid bit is 0. -/
theorem needValid_error_iff {α : Type} (b : Bool) (v : α) (x : CmdFault) :
    needValid b v = .error x ↔ b = false ∧ x = .uninit := by
  cases b <;> simp [needValid, eq_comm]

@[simp] theorem needValid_true {α : Type} (v : α) : needValid true v = .ok v := rfl
@[simp] theorem needValid_false {α : Type} (v : α) : needValid false v = .error .uninit := rfl

/-- Reading `F[r]`, in components. -/
theorem readF_eq (s : State) (r : Reg) :
    readF s r = needValid (s.valid (.f r)) (s.component (.f r)) := rfl

/-- Reading `K[r]`, in components. -/
theorem readK_eq (s : State) (r : Reg) :
    readK s r = needValid (s.valid (.k r)) (s.component (.k r)) := rfl

/-- Reading `D[r]`, in components. -/
theorem readD_eq (s : State) (r : Reg) :
    readD s r = needValid (s.valid (.dh r) && s.valid (.dl r))
      { hi := s.component (.dh r), lo := s.component (.dl r) } := rfl

/-- Reading `D[r].hi`, in components. -/
theorem readDHi_eq (s : State) (r : Reg) :
    readDHi s r = needValid (s.valid (.dh r)) (s.component (.dh r)) := rfl

/-- Reading `D[r].lo`, in components. -/
theorem readDLo_eq (s : State) (r : Reg) :
    readDLo s r = needValid (s.valid (.dl r)) (s.component (.dl r)) := rfl

/-- Reading `Q[r]`: the register itself, under its three valid bits. -/
theorem readQ_eq (s : State) (r : Reg) :
    readQ s r = needValid (s.valid (.qh r) && s.valid (.ql r) && s.valid (.qe r)) (rget s.q r) := rfl

/-- Reading the upper half of a mantissa, in components. -/
theorem readQHi_eq (s : State) (r : Reg) :
    readQHi s r = needValid (s.valid (.qh r)) (s.component (.qh r)) := rfl

/-- Reading the lower half of a mantissa, in components. -/
theorem readQLo_eq (s : State) (r : Reg) :
    readQLo s r = needValid (s.valid (.ql r)) (s.component (.ql r)) := rfl

/-- Reading sign and exponent, in components. -/
theorem readQE_eq (s : State) (r : Reg) :
    readQE s r = needValid (s.valid (.qe r)) (s.component (.qe r)) := rfl

/-- A mantissa is its two halves. -/
theorem mant_halves (m : BitVec 128) :
    (m.extractLsb' 64 64 ++ m.extractLsb' 0 64 : BitVec (64 + 64)) = m := by
  apply BitVec.eq_of_getLsbD_eq
  intro i hi
  simp only [BitVec.getLsbD_append, BitVec.getLsbD_extractLsb']
  by_cases h : i < 64
  · simp [h]
  · have e : 64 + (i - 64) = i := by omega
    simp [h, e]; omega

/-- Sign and exponent are the bits of the sign-and-exponent component. -/
theorem signExp_inj {b b' : Bool} {e e' : BitVec 16}
    (h : (0#47 ++ BitVec.ofBool b ++ e : BitVec (47 + 1 + 16)) = 0#47 ++ BitVec.ofBool b' ++ e') :
    b = b' ∧ e = e' := by
  have bit : ∀ i, (0#47 ++ BitVec.ofBool b ++ e : BitVec (47 + 1 + 16)).getLsbD i =
      (0#47 ++ BitVec.ofBool b' ++ e' : BitVec (47 + 1 + 16)).getLsbD i := fun i => by rw [h]
  constructor
  · have := bit 16
    simp only [BitVec.getLsbD_append] at this
    simpa using this
  · apply BitVec.eq_of_getLsbD_eq
    intro i hi
    have := bit i
    simp only [BitVec.getLsbD_append] at this
    simpa [hi] using this

/-- A Q register is determined by its three components. -/
theorem qreg_ext {s t : State} {r r' : Reg} (hh : s.component (.qh r) = t.component (.qh r'))
    (hl : s.component (.ql r) = t.component (.ql r')) (he : s.component (.qe r) = t.component (.qe r')) :
    rget s.q r = rget t.q r' := by
  have hm : (rget s.q r).mant = (rget t.q r').mant := by
    rw [← mant_halves (rget s.q r).mant, ← mant_halves (rget t.q r').mant]
    simp only [State.component] at hh hl
    rw [hh, hl]
  obtain ⟨hs, hx⟩ := signExp_inj he
  cases hq : rget s.q r; cases hq' : rget t.q r'
  simp_all

/-- A state is determined by its components, its valid bits, SR and the host's side. -/
theorem state_ext {s t : State} (hc : ∀ c, s.component c = t.component c)
    (hv : ∀ c, s.valid c = t.valid c) (hsr : s.sr = t.sr) (hi : s.input = t.input)
    (hw : s.wdata = t.wdata) (ho : s.output = t.output) : s = t := by
  have hf := regFile_ext (fun r => hc (.f r))
  have hk := regFile_ext (fun r => hc (.k r))
  have hd : s.d = t.d := regFile_ext (fun r => by
    have h1 := hc (.dh r); have h2 := hc (.dl r)
    cases h : rget s.d r; cases h' : rget t.d r
    simp_all [State.component])
  have hq : s.q = t.q := regFile_ext (fun r => qreg_ext (hc (.qh r)) (hc (.ql r)) (hc (.qe r)))
  have v1 := regFile_ext (fun r => hv (.f r))
  have v2 := regFile_ext (fun r => hv (.dh r))
  have v3 := regFile_ext (fun r => hv (.dl r))
  have v4 := regFile_ext (fun r => hv (.qh r))
  have v5 := regFile_ext (fun r => hv (.ql r))
  have v6 := regFile_ext (fun r => hv (.qe r))
  have v7 := regFile_ext (fun r => hv (.k r))
  cases s; cases t; simp_all

/-! ### SR (R30 to R33) -/

/-- Bit `n` of SR's word, field by field (R30). -/
theorem toWord_getLsbD (sr : Status) (n : Nat) :
    sr.toWord.getLsbD n =
      if n < 3 then sr.phase.code.getLsbD n
      else if n = 3 then sr.acc else if n = 4 then sr.esc else if n < 8 then false
      else if n = 8 then sr.ovf else if n = 9 then sr.ill else if n = 10 then sr.seq
      else if n = 11 then sr.uninit else if n = 12 then sr.dom else if n = 13 then sr.expr
      else false := by
  simp only [Status.toWord, BitVec.getLsbD_append, BitVec.getLsbD_ofBool, BitVec.getLsbD_zero]
  rcases Nat.lt_or_ge n 14 with h | h
  · interval_cases n <;> simp
  · obtain ⟨m, rfl⟩ : ∃ m, n = m + 14 := ⟨n - 14, by omega⟩
    simp

/-- Raising a fault sets bit 8 + STATUS of SR's word and no other (R260, R262). -/
theorem record_toWord (sr : Status) (x : CmdFault) :
    (sr.record x).toWord = sr.toWord ||| (1#64 <<< (8 + x.code.toNat)) := by
  apply BitVec.eq_of_getLsbD_eq
  intro n hn
  simp only [BitVec.getLsbD_or, toWord_getLsbD, BitVec.getLsbD_shiftLeft, BitVec.getLsbD_one]
  cases x <;> simp only [Status.record, CmdFault.code] <;> interval_cases n <;> simp

/-- Raising a fault keeps PHASE, ACC, ESC and OF (R262). -/
@[simp] theorem record_phase (sr : Status) (x : CmdFault) : (sr.record x).phase = sr.phase := by
  cases x <;> rfl
@[simp] theorem record_acc (sr : Status) (x : CmdFault) : (sr.record x).acc = sr.acc := by
  cases x <;> rfl
@[simp] theorem record_esc (sr : Status) (x : CmdFault) : (sr.record x).esc = sr.esc := by
  cases x <;> rfl
@[simp] theorem record_ovf (sr : Status) (x : CmdFault) : (sr.record x).ovf = sr.ovf := by
  cases x <;> rfl

/-! ### Ending a command (R260 to R262) -/

/-- Raising a fault is `Faulted`. -/
theorem faulted_raise (s : State) (x : CmdFault) : Faulted s (s.raise x) x :=
  ⟨fun c => by simp, by simpa using record_toWord s.sr x, by simp, by simp⟩

@[simp] theorem finish_ok (s t : State) (w : Word) : finish s (.ok (t, w)) = .next (t.respond 0 w) := rfl
@[simp] theorem finish_error (s : State) (x : CmdFault) : finish s (.error x) = .next (s.raise x) := rfl
@[simp] theorem finish0_ok (s t : State) : finish0 s (.ok t) = .next (t.respond 0 0) := rfl
@[simp] theorem finish0_error (s : State) (x : CmdFault) :
    finish0 s (.error x) = .next (s.raise x) := rfl

/-- The end of a command always is a next state. -/
theorem finish_next (s : State) (c : Except CmdFault (State × Word)) : ∃ t, finish s c = .next t := by
  cases c <;> exact ⟨_, rfl⟩

/-- What the end of a command can be: the computed state with STATUS 0, or the state before with a fault. -/
theorem finish_cases {s t : State} {c : Except CmdFault (State × Word)} (h : finish s c = .next t) :
    (∃ u w, c = .ok (u, w) ∧ t = u.respond 0 w) ∨ (∃ x, c = .error x ∧ t = s.raise x) := by
  rcases c with x | ⟨u, w⟩
  · exact .inr ⟨x, rfl, by simpa using h.symm⟩
  · exact .inl ⟨u, w, rfl, by simpa using h.symm⟩

/-- The same for a command that returns no data. -/
theorem finish0_cases {s t : State} {c : Except CmdFault State} (h : finish0 s c = .next t) :
    (∃ u, c = .ok u ∧ t = u.respond 0 0) ∨ (∃ x, c = .error x ∧ t = s.raise x) := by
  rcases c with x | u
  · exact .inr ⟨x, rfl, by simpa using h.symm⟩
  · exact .inl ⟨u, rfl, by simpa using h.symm⟩

/-! ### Completions of the single writes (R27) -/

/-- A command that wrote nothing and returned data. -/
theorem completed_none (s : State) (w : Word) : Completed s (s.respond 0 w) [] s.sr w :=
  ⟨by simp, by simp, by simp, by simp, by simp⟩

/-- A command that wrote one F register. -/
theorem completed_writeF (s : State) (r : Reg) (v : F64) (sr : Status) :
    Completed s (((s.writeF r v).setSr sr).respond 0 0) [(.f r, v)] sr 0 :=
  ⟨by simp, by simp +contextual, by simp, by simp, by simp⟩

/-- A command that wrote one D register. -/
theorem completed_writeD (s : State) (r : Reg) (v : DReg) (sr : Status) :
    Completed s (((s.writeD r v).setSr sr).respond 0 0) [(.dh r, v.hi), (.dl r, v.lo)] sr 0 :=
  ⟨by simp, by simp +contextual, by simp, by simp, by simp⟩

/-- A command that wrote one Q register. -/
theorem completed_writeQ (s : State) (r : Reg) (v : QReg) (sr : Status) :
    Completed s (((s.writeQ r v).setSr sr).respond 0 0) (qWrites r v) sr 0 :=
  ⟨by simp [qWrites], by simp +contextual [qWrites], by simp, by simp, by simp⟩

/-- A command that wrote one K register. -/
theorem completed_writeK (s : State) (r : Reg) (v : Word) (sr : Status) :
    Completed s (((s.writeK r v).setSr sr).respond 0 0) [(.k r, v)] sr 0 :=
  ⟨by simp, by simp +contextual, by simp, by simp, by simp⟩

/-- Storing SR as it is changes nothing. -/
@[simp] theorem setSr_self (s : State) : s.setSr s.sr = s := rfl

/-! ### Taking a transaction (R6, R7) -/

@[simp] theorem takeTransaction_nil {s : State} (h : s.input = []) : s.takeTransaction = none := by
  simp [State.takeTransaction, h]

@[simp] theorem takeTransaction_cons {s : State} {w : Cmd} {d : Word} {rest : List Transaction}
    (h : s.input = ⟨w, d⟩ :: rest) :
    s.takeTransaction = some (w, { s with input := rest, wdata := d }) := by
  simp [State.takeTransaction, h]

end Sys2Proof.Machine
end

