-- ==== Sys2Proof/Laws/Dyadic.lean ====
section
/-! SUPPORT. What the helpers of the Dyadic128 unit and the phase check can answer: one lemma per helper
that says all of it. -/

-- one theorem at a time: each concurrent one costs a thread and its stack
set_option Elab.async false

namespace Sys2Proof.Machine

/-! ### Triples and registers (R23, R151) -/

/-- A triple that fits a register survives being stored in one. -/
theorem dyOfReg_regOfDy {x : Dy} (h : dyFits x) : dyOfReg (regOfDy x) = x := by
  obtain ⟨hm, h1, h2⟩ := h
  cases x with
  | mk s e m =>
    simp only [dyOfReg, regOfDy, BitVec.toInt_ofInt, BitVec.toNat_ofNat, Dy.mk.injEq, true_and] at *
    exact ⟨by rw [Int.bmod_def]; omega, Nat.mod_eq_of_lt hm⟩

/-- A register is stored back as it was. -/
@[simp] theorem regOfDy_dyOfReg (q : QReg) : regOfDy (dyOfReg q) = q := by
  cases q; simp [regOfDy, dyOfReg]

/-- Every register holds a triple that fits. -/
theorem dyFits_dyOfReg (q : QReg) : dyFits (dyOfReg q) := by
  refine ⟨q.mant.isLt, ?_, ?_⟩
  · have := BitVec.le_toInt q.exp; simpa [dyOfReg] using this
  · have := BitVec.toInt_lt (x := q.exp); simp [dyOfReg] at *; omega

/-! ### Helpers (R154) -/

/-- Shifting a nonzero mantissa left by its leading zeros puts its top bit at bit 127. -/
theorem clz128_spec (m : Nat) (h0 : 0 < m) (h : m < 2 ^ 128) :
    clz128 m ≤ 127 ∧ 2 ^ 127 ≤ m * 2 ^ clz128 m ∧ m * 2 ^ clz128 m < 2 ^ 128 := by
  have h1 := Nat.log2_self_le (n := m) (by omega)
  have h2 := Nat.lt_log2_self (n := m)
  have hl : m.log2 < 128 := (Nat.log2_lt (by omega)).mpr h
  unfold clz128
  generalize m.log2 = l at *
  refine ⟨by omega, ?_, ?_⟩
  · calc 2 ^ 127 = 2 ^ l * 2 ^ (127 - l) := by rw [← pow_add]; congr 1; omega
      _ ≤ m * 2 ^ (127 - l) := Nat.mul_le_mul_right _ h1
  · calc m * 2 ^ (127 - l) < 2 ^ (l + 1) * 2 ^ (127 - l) :=
          Nat.mul_lt_mul_of_pos_right h2 (by positivity)
      _ = 2 ^ 128 := by rw [← pow_add]; congr 1; omega

/-- All `canon` can answer: the zero, the triple in range, or ExpRange out of range (R154). -/
theorem canon_cases (s : Bool) (e : Int) (m : Nat) :
    (m = 0 ∧ canon s e m = .ok { s := s, e := 0, m := 0 }) ∨
    (m ≠ 0 ∧ -32768 ≤ e ∧ e ≤ 32767 ∧ canon s e m = .ok { s := s, e := e, m := m }) ∨
    (m ≠ 0 ∧ (e < -32768 ∨ 32767 < e) ∧ canon s e m = .error .expRange) := by
  unfold canon
  by_cases h : m = 0
  · exact .inl ⟨h, by simp [h]⟩
  · by_cases h' : e < -32768 ∨ 32767 < e
    · exact .inr (.inr ⟨h, h', by simp [h, h']⟩)
    · exact .inr (.inl ⟨h, by omega, by omega, by simp [h, h']⟩)

/-- All `normalize` can answer: the zero, the shifted triple with bit 127 set and the exponent in range, or
ExpRange (R154). -/
theorem normalize_cases (s : Bool) (e : Int) (m : Nat) (hm : m < 2 ^ 128) :
    (m = 0 ∧ normalize s e m = .ok { s := s, e := 0, m := 0 }) ∨
    (∃ z : Nat, m ≠ 0 ∧ z = clz128 m ∧ z ≤ 127 ∧ 2 ^ 127 ≤ m * 2 ^ z ∧ m * 2 ^ z < 2 ^ 128 ∧
      ((-32768 ≤ e - z ∧ e - z ≤ 32767 ∧
          normalize s e m = .ok { s := s, e := e - z, m := m * 2 ^ z }) ∨
        ((e - z < -32768 ∨ 32767 < e - z) ∧ normalize s e m = .error .expRange))) := by
  by_cases h : m = 0
  · exact .inl ⟨h, by simp [normalize, h]⟩
  · obtain ⟨h1, h2, h3⟩ := clz128_spec m (by omega) hm
    refine .inr ⟨clz128 m, h, rfl, h1, h2, h3, ?_⟩
    have e' : normalize s e m = canon s (e - clz128 m) (m * 2 ^ clz128 m) := by
      simp [normalize, h, Nat.shiftLeft_eq]
    rw [e']
    rcases canon_cases s (e - clz128 m) (m * 2 ^ clz128 m) with c | c | c
    · omega
    · exact .inl ⟨c.2.1, c.2.2.1, c.2.2.2⟩
    · exact .inr ⟨c.2.1, c.2.2⟩

/-- What `normalize` answers fits a register and is normalized. -/
theorem normalize_ok {s : Bool} {e : Int} {m : Nat} {d : Dy} (hm : m < 2 ^ 128)
    (h : normalize s e m = .ok d) :
    dyFits d ∧ d.s = s ∧ (d.m = 0 → d.e = 0) ∧ (d.m = 0 ∨ 2 ^ 127 ≤ d.m) ∧ dyVal d = dyVal ⟨s, e, m⟩ := by
  rcases normalize_cases s e m hm with ⟨rfl, h'⟩ | ⟨z, h0, -, -, h2, h3, ⟨h4, h5, h'⟩ | ⟨-, h'⟩⟩
  · rw [h'] at h; cases h
    exact ⟨⟨by norm_num, by norm_num, by norm_num⟩, rfl, fun _ => rfl, .inl rfl, by simp [dyVal]⟩
  · rw [h'] at h; cases h
    refine ⟨⟨h3, h4, h5⟩, rfl, fun h => absurd h (by dsimp only; omega), .inr h2, ?_⟩
    simp only [dyVal]
    push_cast
    have : (2 : ℚ) ^ e = 2 ^ z * 2 ^ (e - z : ℤ) := by
      rw [← zpow_natCast, ← zpow_add₀ (by norm_num)]; congr 1; omega
    rw [this]
    ring
  · rw [h'] at h; cases h

/-- `normalize` raises ExpRange and no other fault. -/
theorem normalize_error {s : Bool} {e : Int} {m : Nat} {x : CmdFault} (hm : m < 2 ^ 128)
    (h : normalize s e m = .error x) : x = .expRange := by
  rcases normalize_cases s e m hm with ⟨-, h'⟩ | ⟨z, -, -, -, -, -, ⟨-, -, h'⟩ | ⟨-, h'⟩⟩ <;>
    rw [h'] at h <;> cases h
  rfl

/-- An aligned mantissa is the floor of the quotient, and no larger than the mantissa (R160). -/
theorem alignShift_eq (m : Nat) (n : Int) :
    alignShift m n = (if n < 128 then m / 2 ^ n.toNat else 0) ∧ alignShift m n ≤ m := by
  unfold alignShift
  split
  · exact ⟨Nat.shiftRight_eq_div_pow _ _, Nat.shiftRight_le _ _⟩
  · exact ⟨rfl, Nat.zero_le _⟩

/-! ### The phase check (R211) -/

@[simp] theorem requirePhase_pass {s : State} {p : Phase} (h : s.sr.phase = p) :
    requirePhase s p = .ok () := by simp [requirePhase, h]
@[simp] theorem requirePhase_fail {s : State} {p : Phase} (h : s.sr.phase ≠ p) :
    requirePhase s p = .error .sequence := by simp [requirePhase, h]

/-! ### The range reducer (R193, R195, R196) -/

/-- The word of a finite value by its fields is finite. -/
theorem isFinite_wordOfFinite (w : Config.FiniteWord) : isFinite (wordOfFinite w) = true := by
  have hb := w.biased.isLt
  have e : (wordOfFinite w).extractLsb' 52 11 = BitVec.ofNat 11 w.biased.val := by
    apply BitVec.eq_of_getLsbD_eq
    intro n hn
    simp only [wordOfFinite, BitVec.getLsbD_extractLsb', BitVec.getLsbD_append, BitVec.getLsbD_ofNat]
    simp [hn]
  have : fexp (wordOfFinite w) = w.biased.val := by
    rw [fexp, e, BitVec.toNat_ofNat]; omega
  simp only [isFinite, this, bne_iff_ne, ne_eq]
  omega

/-- The register of a normalized value by its fields is normalized. -/
theorem qNormalized_regOfNormal (x : Config.NormalDyadic) : qNormalized (regOfNormal x) := by
  unfold qNormalized regOfNormal
  cases x.nonzero
  · exact .inl rfl
  · refine .inr ?_
    simp only [if_true, BitVec.getLsbD_append]
    simp

end Sys2Proof.Machine
end

