-- ==== Sys2Proof/Laws/Encoding.lean ====
section
/-! SUPPORT. A command word and its six fields (spec/30_encoding.md R65): the word is its fields, the fields
of a built word are what it was built from, and a word is masked field by field. -/

-- one theorem at a time: each concurrent one costs a thread and its stack
set_option Elab.async false

namespace Sys2Proof

/-- The bits of a command word, field by field (R65). -/
theorem getLsbD_commandWord (op imm : BitVec 8) (rd ra rb rc : Reg) (n : Nat) :
    (commandWord op rd ra rb rc imm).getLsbD n =
      if n < 8 then imm.getLsbD n else if n < 12 then rc.getLsbD (n - 8)
      else if n < 16 then rb.getLsbD (n - 12) else if n < 20 then ra.getLsbD (n - 16)
      else if n < 24 then rd.getLsbD (n - 20) else op.getLsbD (n - 24) := by
  simp only [commandWord, BitVec.getLsbD_append]
  repeat' split
  all_goals congr 1 <;> omega

@[simp] theorem opOf_commandWord (op imm : BitVec 8) (rd ra rb rc : Reg) :
    opOf (commandWord op rd ra rb rc imm) = op := by
  apply BitVec.eq_of_getLsbD_eq
  intro n hn
  simp only [opOf, BitVec.getLsbD_extractLsb', getLsbD_commandWord]
  interval_cases n <;> simp

@[simp] theorem rdOf_commandWord (op imm : BitVec 8) (rd ra rb rc : Reg) :
    rdOf (commandWord op rd ra rb rc imm) = rd := by
  apply BitVec.eq_of_getLsbD_eq
  intro n hn
  simp only [rdOf, BitVec.getLsbD_extractLsb', getLsbD_commandWord]
  interval_cases n <;> simp

@[simp] theorem raOf_commandWord (op imm : BitVec 8) (rd ra rb rc : Reg) :
    raOf (commandWord op rd ra rb rc imm) = ra := by
  apply BitVec.eq_of_getLsbD_eq
  intro n hn
  simp only [raOf, BitVec.getLsbD_extractLsb', getLsbD_commandWord]
  interval_cases n <;> simp

@[simp] theorem rbOf_commandWord (op imm : BitVec 8) (rd ra rb rc : Reg) :
    rbOf (commandWord op rd ra rb rc imm) = rb := by
  apply BitVec.eq_of_getLsbD_eq
  intro n hn
  simp only [rbOf, BitVec.getLsbD_extractLsb', getLsbD_commandWord]
  interval_cases n <;> simp

@[simp] theorem rcOf_commandWord (op imm : BitVec 8) (rd ra rb rc : Reg) :
    rcOf (commandWord op rd ra rb rc imm) = rc := by
  apply BitVec.eq_of_getLsbD_eq
  intro n hn
  simp only [rcOf, BitVec.getLsbD_extractLsb', getLsbD_commandWord]
  interval_cases n <;> simp

@[simp] theorem immOf_commandWord (op imm : BitVec 8) (rd ra rb rc : Reg) :
    immOf (commandWord op rd ra rb rc imm) = imm := by
  apply BitVec.eq_of_getLsbD_eq
  intro n hn
  simp only [immOf, BitVec.getLsbD_extractLsb', getLsbD_commandWord]
  interval_cases n <;> simp

/-- A command word is its six fields (R65). -/
theorem commandWord_fields (w : Cmd) :
    commandWord (opOf w) (rdOf w) (raOf w) (rbOf w) (rcOf w) (immOf w) = w := by
  apply BitVec.eq_of_getLsbD_eq
  intro n hn
  rw [getLsbD_commandWord]
  simp only [opOf, rdOf, raOf, rbOf, rcOf, immOf, BitVec.getLsbD_extractLsb']
  interval_cases n <;> simp

/-- Masking acts field by field. -/
theorem and_commandWord (op op' imm imm' : BitVec 8) (rd ra rb rc rd' ra' rb' rc' : Reg) :
    commandWord op rd ra rb rc imm &&& commandWord op' rd' ra' rb' rc' imm' =
      commandWord (op &&& op') (rd &&& rd') (ra &&& ra') (rb &&& rb') (rc &&& rc')
        (imm &&& imm') := by
  apply BitVec.eq_of_getLsbD_eq
  intro n hn
  simp only [BitVec.getLsbD_and, getLsbD_commandWord]
  repeat' split
  all_goals rfl

/-- Two command words are equal exactly when their fields are. -/
theorem commandWord_inj {op op' imm imm' : BitVec 8} {rd ra rb rc rd' ra' rb' rc' : Reg} :
    commandWord op rd ra rb rc imm = commandWord op' rd' ra' rb' rc' imm' ↔
      op = op' ∧ rd = rd' ∧ ra = ra' ∧ rb = rb' ∧ rc = rc' ∧ imm = imm' := by
  constructor
  · intro h
    have h1 := congrArg opOf h
    have h2 := congrArg rdOf h
    have h3 := congrArg raOf h
    have h4 := congrArg rbOf h
    have h5 := congrArg rcOf h
    have h6 := congrArg immOf h
    simp only [opOf_commandWord, rdOf_commandWord, raOf_commandWord, rbOf_commandWord,
      rcOf_commandWord, immOf_commandWord] at h1 h2 h3 h4 h5 h6
    exact ⟨h1, h2, h3, h4, h5, h6⟩
  · rintro ⟨rfl, rfl, rfl, rfl, rfl, rfl⟩; rfl

/-- Each format's mask by fields: a field is compared in full or not at all, but for LDCD's index bit 7
(R66, R75). -/
theorem mask_fields (f : Format) : f.mask = match f with
    | .z => commandWord 0xFF 15 15 15 15 255
    | .d => commandWord 0xFF 0 15 15 15 255
    | .a => commandWord 0xFF 15 0 15 15 255
    | .di => commandWord 0xFF 0 15 15 15 0
    | .diPair => commandWord 0xFF 0 15 15 15 128
    | .r2 => commandWord 0xFF 0 0 15 15 255
    | .r3 => commandWord 0xFF 0 0 0 15 255
    | .r4 => commandWord 0xFF 0 0 0 0 255
    | .rk => commandWord 0xFF 0 0 15 0 255
    | .ri => commandWord 0xFF 0 0 15 15 0 := by
  cases f <;> decide

/-- The match word of a command: its opcode over zeros (R70). -/
theorem matchWord_fields (i : Instr) : i.matchWord = commandWord i.opcode 0 0 0 0 0 := by
  apply BitVec.eq_of_getLsbD_eq
  intro n hn
  simp only [getLsbD_commandWord, Instr.matchWord, BitVec.getLsbD_append]
  interval_cases n <;> simp

/-- Ten bits-and-ones facts the masked fields reduce to. -/
@[simp] theorem reg_and_ones (r : Reg) : r &&& 15 = r := by revert r; decide
@[simp] theorem byte_and_ones (b : BitVec 8) : b &&& 0xFF = b := by
  apply BitVec.eq_of_getLsbD_eq
  intro n hn
  interval_cases n <;> simp

/-- An index is below 128 exactly when its bit 7 is 0 (R75). -/
theorem pair_index_iff (b : BitVec 8) : b.toNat < 128 ↔ b &&& 128 = 0 := by revert b; decide

end Sys2Proof
end

