-- ==== Sys2Proof/Laws/PerInstr.lean ====
section
/-! SUPPORT. A statement about every command as syntax, one lemma per command: the word the encoder writes,
masked by the command's format, is the command's match word (spec/30_encoding.md R66, R70, R73). -/

-- one theorem at a time: each concurrent one costs a thread and its stack
set_option Elab.async false

namespace Sys2Proof.Laws.EncodedMask

/-- The encoder leaves every unused field zero and writes the command's own opcode (R66, R70, R73, R75). -/
def Statement (i : Instr) : Prop :=
  i.wellFormed = true → encode i &&& i.format.mask = i.matchWord

theorem nop : Statement (.nop) := by
  intro _
  rw [matchWord_fields, mask_fields]
  simp [encode, Instr.format, and_commandWord, Instr.opcode]

theorem mtf (rd : Reg) : Statement (.mtf rd) := by
  intro _
  rw [matchWord_fields, mask_fields]
  simp [encode, Instr.format, and_commandWord, Instr.opcode]

theorem mff (ra : Reg) : Statement (.mff ra) := by
  intro _
  rw [matchWord_fields, mask_fields]
  simp [encode, Instr.format, and_commandWord, Instr.opcode]

theorem mtdh (rd : Reg) : Statement (.mtdh rd) := by
  intro _
  rw [matchWord_fields, mask_fields]
  simp [encode, Instr.format, and_commandWord, Instr.opcode]

theorem mtdl (rd : Reg) : Statement (.mtdl rd) := by
  intro _
  rw [matchWord_fields, mask_fields]
  simp [encode, Instr.format, and_commandWord, Instr.opcode]

theorem mfdh (ra : Reg) : Statement (.mfdh ra) := by
  intro _
  rw [matchWord_fields, mask_fields]
  simp [encode, Instr.format, and_commandWord, Instr.opcode]

theorem mfdl (ra : Reg) : Statement (.mfdl ra) := by
  intro _
  rw [matchWord_fields, mask_fields]
  simp [encode, Instr.format, and_commandWord, Instr.opcode]

theorem mtqh (rd : Reg) : Statement (.mtqh rd) := by
  intro _
  rw [matchWord_fields, mask_fields]
  simp [encode, Instr.format, and_commandWord, Instr.opcode]

theorem mtql (rd : Reg) : Statement (.mtql rd) := by
  intro _
  rw [matchWord_fields, mask_fields]
  simp [encode, Instr.format, and_commandWord, Instr.opcode]

theorem mtqe (rd : Reg) : Statement (.mtqe rd) := by
  intro _
  rw [matchWord_fields, mask_fields]
  simp [encode, Instr.format, and_commandWord, Instr.opcode]

theorem mfqh (ra : Reg) : Statement (.mfqh ra) := by
  intro _
  rw [matchWord_fields, mask_fields]
  simp [encode, Instr.format, and_commandWord, Instr.opcode]

theorem mfql (ra : Reg) : Statement (.mfql ra) := by
  intro _
  rw [matchWord_fields, mask_fields]
  simp [encode, Instr.format, and_commandWord, Instr.opcode]

theorem mfqe (ra : Reg) : Statement (.mfqe ra) := by
  intro _
  rw [matchWord_fields, mask_fields]
  simp [encode, Instr.format, and_commandWord, Instr.opcode]

theorem mtk (rd : Reg) : Statement (.mtk rd) := by
  intro _
  rw [matchWord_fields, mask_fields]
  simp [encode, Instr.format, and_commandWord, Instr.opcode]

theorem mfk (ra : Reg) : Statement (.mfk ra) := by
  intro _
  rw [matchWord_fields, mask_fields]
  simp [encode, Instr.format, and_commandWord, Instr.opcode]

theorem mfsr : Statement (.mfsr) := by
  intro _
  rw [matchWord_fields, mask_fields]
  simp [encode, Instr.format, and_commandWord, Instr.opcode]

theorem mfcfg : Statement (.mfcfg) := by
  intro _
  rw [matchWord_fields, mask_fields]
  simp [encode, Instr.format, and_commandWord, Instr.opcode]

theorem ldc (rd : Reg) (imm8 : BitVec 8) : Statement (.ldc rd imm8) := by
  intro _
  rw [matchWord_fields, mask_fields]
  simp [encode, Instr.format, and_commandWord, Instr.opcode]

theorem ldcd (rd : Reg) (imm8 : BitVec 8) : Statement (.ldcd rd imm8) := by
  intro h
  have h' : imm8 &&& 128 = 0 := (pair_index_iff imm8).mp (by simpa [Instr.wellFormed] using h)
  rw [matchWord_fields, mask_fields]
  simp only [encode, Instr.format, and_commandWord, commandWord_inj]
  simp only [Instr.opcode]
  exact ⟨by decide, by simp, by decide, by decide, by decide, h'⟩

theorem ddPack (rd ra rb : Reg) : Statement (.ddPack rd ra rb) := by
  intro _
  rw [matchWord_fields, mask_fields]
  simp [encode, Instr.format, and_commandWord, Instr.opcode]

theorem ddHi (rd ra : Reg) : Statement (.ddHi rd ra) := by
  intro _
  rw [matchWord_fields, mask_fields]
  simp [encode, Instr.format, and_commandWord, Instr.opcode]

theorem ddLo (rd ra : Reg) : Statement (.ddLo rd ra) := by
  intro _
  rw [matchWord_fields, mask_fields]
  simp [encode, Instr.format, and_commandWord, Instr.opcode]

theorem ddXadd (rd ra rb : Reg) : Statement (.ddXadd rd ra rb) := by
  intro _
  rw [matchWord_fields, mask_fields]
  simp [encode, Instr.format, and_commandWord, Instr.opcode]

theorem ddXsub (rd ra rb : Reg) : Statement (.ddXsub rd ra rb) := by
  intro _
  rw [matchWord_fields, mask_fields]
  simp [encode, Instr.format, and_commandWord, Instr.opcode]

theorem ddFxadd (rd ra rb : Reg) : Statement (.ddFxadd rd ra rb) := by
  intro _
  rw [matchWord_fields, mask_fields]
  simp [encode, Instr.format, and_commandWord, Instr.opcode]

theorem ddXmul (rd ra rb : Reg) : Statement (.ddXmul rd ra rb) := by
  intro _
  rw [matchWord_fields, mask_fields]
  simp [encode, Instr.format, and_commandWord, Instr.opcode]

theorem ddAdd (rd ra rb : Reg) : Statement (.ddAdd rd ra rb) := by
  intro _
  rw [matchWord_fields, mask_fields]
  simp [encode, Instr.format, and_commandWord, Instr.opcode]

theorem ddSub (rd ra rb : Reg) : Statement (.ddSub rd ra rb) := by
  intro _
  rw [matchWord_fields, mask_fields]
  simp [encode, Instr.format, and_commandWord, Instr.opcode]

theorem ddMul (rd ra rb : Reg) : Statement (.ddMul rd ra rb) := by
  intro _
  rw [matchWord_fields, mask_fields]
  simp [encode, Instr.format, and_commandWord, Instr.opcode]

theorem ddQmul (rd ra rb : Reg) : Statement (.ddQmul rd ra rb) := by
  intro _
  rw [matchWord_fields, mask_fields]
  simp [encode, Instr.format, and_commandWord, Instr.opcode]

theorem ddMulf (rd ra rb : Reg) : Statement (.ddMulf rd ra rb) := by
  intro _
  rw [matchWord_fields, mask_fields]
  simp [encode, Instr.format, and_commandWord, Instr.opcode]

theorem ddDiv (rd ra rb : Reg) : Statement (.ddDiv rd ra rb) := by
  intro _
  rw [matchWord_fields, mask_fields]
  simp [encode, Instr.format, and_commandWord, Instr.opcode]

theorem ddSqrt (rd ra : Reg) : Statement (.ddSqrt rd ra) := by
  intro _
  rw [matchWord_fields, mask_fields]
  simp [encode, Instr.format, and_commandWord, Instr.opcode]

theorem ddRecip (rd ra : Reg) : Statement (.ddRecip rd ra) := by
  intro _
  rw [matchWord_fields, mask_fields]
  simp [encode, Instr.format, and_commandWord, Instr.opcode]

theorem dyFromf (rd ra : Reg) : Statement (.dyFromf rd ra) := by
  intro _
  rw [matchWord_fields, mask_fields]
  simp [encode, Instr.format, and_commandWord, Instr.opcode]

theorem dyTof (rd ra : Reg) : Statement (.dyTof rd ra) := by
  intro _
  rw [matchWord_fields, mask_fields]
  simp [encode, Instr.format, and_commandWord, Instr.opcode]

theorem dyNorm (rd ra : Reg) : Statement (.dyNorm rd ra) := by
  intro _
  rw [matchWord_fields, mask_fields]
  simp [encode, Instr.format, and_commandWord, Instr.opcode]

theorem dyAdd (rd ra rb : Reg) : Statement (.dyAdd rd ra rb) := by
  intro _
  rw [matchWord_fields, mask_fields]
  simp [encode, Instr.format, and_commandWord, Instr.opcode]

theorem dyMul (rd ra rb : Reg) : Statement (.dyMul rd ra rb) := by
  intro _
  rw [matchWord_fields, mask_fields]
  simp [encode, Instr.format, and_commandWord, Instr.opcode]

theorem dyNeg (rd ra : Reg) : Statement (.dyNeg rd ra) := by
  intro _
  rw [matchWord_fields, mask_fields]
  simp [encode, Instr.format, and_commandWord, Instr.opcode]

theorem dyRecip (rd ra : Reg) : Statement (.dyRecip rd ra) := by
  intro _
  rw [matchWord_fields, mask_fields]
  simp [encode, Instr.format, and_commandWord, Instr.opcode]

theorem dyRecipf (rd ra : Reg) : Statement (.dyRecipf rd ra) := by
  intro _
  rw [matchWord_fields, mask_fields]
  simp [encode, Instr.format, and_commandWord, Instr.opcode]

theorem dyDiv (rd ra rb : Reg) : Statement (.dyDiv rd ra rb) := by
  intro _
  rw [matchWord_fields, mask_fields]
  simp [encode, Instr.format, and_commandWord, Instr.opcode]

theorem dyRnd (rd ra : Reg) : Statement (.dyRnd rd ra) := by
  intro _
  rw [matchWord_fields, mask_fields]
  simp [encode, Instr.format, and_commandWord, Instr.opcode]

theorem rrSmall (rd ra rc : Reg) : Statement (.rrSmall rd ra rc) := by
  intro _
  rw [matchWord_fields, mask_fields]
  simp [encode, Instr.format, and_commandWord, Instr.opcode]

theorem rrLarge (rd ra rc : Reg) : Statement (.rrLarge rd ra rc) := by
  intro _
  rw [matchWord_fields, mask_fields]
  simp [encode, Instr.format, and_commandWord, Instr.opcode]

theorem rrLargeq (rd ra rc : Reg) : Statement (.rrLargeq rd ra rc) := by
  intro _
  rw [matchWord_fields, mask_fields]
  simp [encode, Instr.format, and_commandWord, Instr.opcode]

theorem rrIdx (rd ra : Reg) (imm8 : BitVec 8) : Statement (.rrIdx rd ra imm8) := by
  intro _
  rw [matchWord_fields, mask_fields]
  simp [encode, Instr.format, and_commandWord, Instr.opcode]

theorem zivBegin : Statement (.zivBegin) := by
  intro _
  rw [matchWord_fields, mask_fields]
  simp [encode, Instr.format, and_commandWord, Instr.opcode]

theorem zivBound (rd ra rb rc : Reg) : Statement (.zivBound rd ra rb rc) := by
  intro _
  rw [matchWord_fields, mask_fields]
  simp [encode, Instr.format, and_commandWord, Instr.opcode]

theorem zivTest (rd ra rb : Reg) : Statement (.zivTest rd ra rb) := by
  intro _
  rw [matchWord_fields, mask_fields]
  simp [encode, Instr.format, and_commandWord, Instr.opcode]

theorem zivFallback (rd ra : Reg) : Statement (.zivFallback rd ra) := by
  intro _
  rw [matchWord_fields, mask_fields]
  simp [encode, Instr.format, and_commandWord, Instr.opcode]

end Sys2Proof.Laws.EncodedMask
end

