-- ==== Sys2Proof/Tests/Slice0.lean ====
section
/-! SUPPORT. Tests of the model: every expected result is copied from spec/95_test_vectors.md (its identifier
stands in the docstring) or from the rule named; then one witness theorem for each obligation that has
hypotheses. -/

-- one theorem at a time: each concurrent one costs a thread and its stack
set_option Elab.async false

namespace Sys2Proof.Tests

open Sys2Proof.Machine

/-! ### Helpers -/

/-- The state a command leaves. -/
def after (i : Instr) (s : State) : State :=
  match exec i s with
  | .next t => t
  | .fault _ => s
  | .refused _ => s

/-- The state a step leaves. -/
def stepped (s : State) : State :=
  match step s with
  | .next t => t
  | .fault _ => s
  | .refused _ => s

/-- The last response, SR and nothing else. -/
def answer (s : State) : Option Response × Word := (s.output.getLast?, s.sr.toWord)

/-- F1 and F2 written. -/
def fs (a b : F64) : State := (State.reset.writeF 1 a).writeF 2 b
/-- D1 and D2 written. -/
def ds (x y : DReg) : State := (State.reset.writeD 1 x).writeD 2 y
/-- Q1 and Q2 written with triples. -/
def qs (x y : Dy) : State := (State.reset.writeQ 1 (regOfDy x)).writeQ 2 (regOfDy y)
/-- SR with a phase and its ACC and ESC, no sticky bit. -/
def inPhase (p : Phase) (a e : Bool) (s : State) : State :=
  s.setSr { Status.reset with phase := p, acc := a, esc := e }
/-- The data word at hand. -/
def withData (w : Word) (s : State) : State := { s with wdata := w }

/-- The candidate values of 95_test_vectors section 4. -/
def piDD : DReg := ⟨0x400921FB54442D18, 0x3CA1A62633145C07⟩
def eDD : DReg := ⟨0x4005BF0A8B145769, 0x3CA4D57EE2B1013A⟩
/-- H, ONES and ONE of section 5. -/
def hDy : Nat := 0x80000000000000000000000000000000
def onesDy : Nat := 0xFFFFFFFFFFFFFFFFFFFFFFFFFFFFFFFF
def oneDy : Dy := ⟨false, -127, hDy⟩

/-! ### Well-formedness and decoding -/

/-- R75: the pair index of LDCD is at most 127. -/
theorem test_illformed_ldcd_refused : (Instr.ldcd 0 0x80).wellFormed = false := by decide
theorem test_wellformed_ldcd_127 : (Instr.ldcd 0 0x7F).wellFormed = true := by decide

/- Each word below is `match` of its row of the opcode table with rd = 3, ra = 10, rb = 5, rc = 12 and
imm8 = 0x56 put at the bit places of R65, where the row has the field. -/

theorem test_decode_transfer :
    decode 0x00000000 = .ok (.nop) ∧
    decode 0x01300000 = .ok (.mtf 3) ∧
    decode 0x020A0000 = .ok (.mff 10) ∧
    decode 0x03300000 = .ok (.mtdh 3) ∧
    decode 0x04300000 = .ok (.mtdl 3) ∧
    decode 0x050A0000 = .ok (.mfdh 10) ∧
    decode 0x060A0000 = .ok (.mfdl 10) ∧
    decode 0x07300000 = .ok (.mtqh 3) ∧
    decode 0x08300000 = .ok (.mtql 3) ∧
    decode 0x09300000 = .ok (.mtqe 3) ∧
    decode 0x0A0A0000 = .ok (.mfqh 10) ∧
    decode 0x0B0A0000 = .ok (.mfql 10) ∧
    decode 0x0C0A0000 = .ok (.mfqe 10) ∧
    decode 0x0D300000 = .ok (.mtk 3) ∧
    decode 0x0E0A0000 = .ok (.mfk 10) ∧
    decode 0x0F000000 = .ok (.mfsr) ∧
    decode 0x10000000 = .ok (.mfcfg) := by decide

theorem test_decode_load :
    decode 0x11300056 = .ok (.ldc 3 0x56) ∧
    decode 0x12300056 = .ok (.ldcd 3 0x56) ∧
    decode 0x133A5000 = .ok (.ddPack 3 10 5) ∧
    decode 0x143A0000 = .ok (.ddHi 3 10) ∧
    decode 0x153A0000 = .ok (.ddLo 3 10) := by decide

theorem test_decode_exact_transform :
    decode 0x203A5000 = .ok (.ddXadd 3 10 5) ∧
    decode 0x213A5000 = .ok (.ddXsub 3 10 5) ∧
    decode 0x223A5000 = .ok (.ddFxadd 3 10 5) ∧
    decode 0x233A5000 = .ok (.ddXmul 3 10 5) := by decide

theorem test_decode_double_double :
    decode 0x303A5000 = .ok (.ddAdd 3 10 5) ∧
    decode 0x313A5000 = .ok (.ddSub 3 10 5) ∧
    decode 0x323A5000 = .ok (.ddMul 3 10 5) ∧
    decode 0x333A5000 = .ok (.ddQmul 3 10 5) ∧
    decode 0x343A5000 = .ok (.ddMulf 3 10 5) ∧
    decode 0x353A5000 = .ok (.ddDiv 3 10 5) ∧
    decode 0x363A0000 = .ok (.ddSqrt 3 10) ∧
    decode 0x373A0000 = .ok (.ddRecip 3 10) := by decide

theorem test_decode_dyadic :
    decode 0x403A0000 = .ok (.dyFromf 3 10) ∧
    decode 0x413A0000 = .ok (.dyTof 3 10) ∧
    decode 0x423A0000 = .ok (.dyNorm 3 10) ∧
    decode 0x433A5000 = .ok (.dyAdd 3 10 5) ∧
    decode 0x443A5000 = .ok (.dyMul 3 10 5) ∧
    decode 0x453A0000 = .ok (.dyNeg 3 10) ∧
    decode 0x463A0000 = .ok (.dyRecip 3 10) ∧
    decode 0x473A0000 = .ok (.dyRecipf 3 10) ∧
    decode 0x483A5000 = .ok (.dyDiv 3 10 5) ∧
    decode 0x493A0000 = .ok (.dyRnd 3 10) := by decide

theorem test_decode_range_reducer :
    decode 0x503A0C00 = .ok (.rrSmall 3 10 12) ∧
    decode 0x513A0C00 = .ok (.rrLarge 3 10 12) ∧
    decode 0x523A0C00 = .ok (.rrLargeq 3 10 12) ∧
    decode 0x533A0056 = .ok (.rrIdx 3 10 0x56) := by decide

theorem test_decode_escalation :
    decode 0x60000000 = .ok (.zivBegin) ∧
    decode 0x613A5C00 = .ok (.zivBound 3 10 5 12) ∧
    decode 0x623A5000 = .ok (.zivTest 3 10 5) ∧
    decode 0x633A0000 = .ok (.zivFallback 3 10) := by decide

/-- T-X2, T-X3, T-X4, T-X9: words that are no command. -/
theorem test_decode_illegal :
    decode 0x16000000 = .error (.reservedOpcode 0x16) ∧ decode 0xFF000000 = .error (.reservedOpcode 0xFF) ∧
    decode 0x00000001 = .error (.unusedFieldNotZero 0x00) ∧
    decode 0x12000080 = .error (.unusedFieldNotZero 0x12) ∧
    decode 0x30312001 = .error (.unusedFieldNotZero 0x30) ∧
    decode 0x36210100 = .error (.unusedFieldNotZero 0x36) := by decide

/-- R54: bytes are little-endian; R76: one length only. -/
theorem test_decode_bytes :
    decodeBytes [0x00, 0x20, 0x31, 0x30] = .ok (.ddAdd 3 1 2) ∧
    decodeBytes [0x30, 0x31, 0x20] = .error (.notOneWord 3) ∧
    decodeTableWord 32 0x53200040 = some (.rrIdx 2 0 64) := by decide

/-! ### Transfer, load and status commands -/

theorem test_nop : answer (after .nop State.reset) = (some ⟨0, 0⟩, 0) := by decide +kernel
/-- P1, line 1. -/
theorem test_mtf : (after (.mtf 0) (withData 0x4008000000000000 State.reset)).component (.f 0) =
    0x4008000000000000 := by decide +kernel
/-- T-X10: no canonicalization. -/
theorem test_mff : answer (after (.mff 1) (fs 0x7FF8000000000001 0)) =
    (some ⟨0, 0x7FF8000000000001⟩, 0) := by decide +kernel
/-- T-X1: from reset every register is unwritten. -/
theorem test_mff_unwritten : answer (after (.mff 0) State.reset) = (some ⟨3, 0⟩, 0x0800) := by
  decide +kernel
/-- T-X8: the high word alone becomes valid. -/
theorem test_mtdh : let s := after (.mtdh 1) (withData 5 State.reset)
    (s.valid (.dh 1), s.valid (.dl 1), s.component (.dh 1)) = (true, false, 5) := by decide +kernel
theorem test_mtdl : let s := after (.mtdl 1) (withData 5 (ds piDD eDD))
    s.dreg 1 = ⟨0x400921FB54442D18, 5⟩ := by decide +kernel
theorem test_mfdh : answer (after (.mfdh 1) (ds piDD eDD)) = (some ⟨0, 0x400921FB54442D18⟩, 0) := by
  decide +kernel
theorem test_mfdl : answer (after (.mfdl 2) (ds piDD eDD)) = (some ⟨0, 0x3CA4D57EE2B1013A⟩, 0) := by
  decide +kernel
theorem test_mtqh : (after (.mtqh 1) (withData 7 (qs ⟨true, -1, onesDy⟩ oneDy))).dyadic 1 =
    ⟨true, -1, 0x0000000000000007FFFFFFFFFFFFFFFF⟩ := by decide +kernel
theorem test_mtql : (after (.mtql 1) (withData 7 (qs ⟨true, -1, onesDy⟩ oneDy))).dyadic 1 =
    ⟨true, -1, 0xFFFFFFFFFFFFFFFF0000000000000007⟩ := by decide +kernel
/-- P5, lines 11 to 13: `0x8044` is exponent -32700; bits above 16 are ignored (R240). -/
theorem test_mtqe : (after (.mtqe 1) (withData 0xFFFFFFFFFFFE8044 (qs ⟨true, 9, 1⟩ oneDy))).dyadic 1 =
    ⟨false, -32700, 1⟩ := by decide +kernel
/-- P4, lines 18 to 20. -/
theorem test_mfqh : answer (after (.mfqh 1) (qs ⟨false, -127, 0x80000000000004000000000008000000⟩ oneDy)) =
    (some ⟨0, 0x8000000000000400⟩, 0) := by decide +kernel
theorem test_mfql : answer (after (.mfql 1) (qs ⟨false, -127, 0x80000000000004000000000008000000⟩ oneDy)) =
    (some ⟨0, 0x0000000008000000⟩, 0) := by decide +kernel
theorem test_mfqe : answer (after (.mfqe 1) (qs ⟨true, -127, 1⟩ oneDy)) =
    (some ⟨0, 0x000000000001FF81⟩, 0) := by decide +kernel
theorem test_mtk : (after (.mtk 15) (withData 0x197 State.reset)).component (.k 15) = 0x197 := by
  decide +kernel
theorem test_mfk : answer (after (.mfk 15) (State.reset.writeK 15 0x197)) = (some ⟨0, 0x197⟩, 0) := by
  decide +kernel
/-- P5, line 17: PHASE in the low bits, five sticky bits. -/
theorem test_mfsr : answer (after .mfsr (State.reset.setSr ⟨.fast, false, false, false, true, true, true,
    true, true⟩)) = (some ⟨0, 0x3E01⟩, 0x3E01) := by decide +kernel
/-- P6, line 21. -/
theorem test_mfcfg : answer (after .mfcfg State.reset) = (some ⟨0, 0x0000010000801007⟩, 0) := by
  decide +kernel
/-- P2, line 5. -/
theorem test_ldc : (after (.ldc 1 1) State.reset).component (.f 1) = 0xBF9921FB54400000 := by
  decide +kernel
/-- R248 with R52: pair 1 is words 3 (high) and 2 (low). -/
theorem test_ldcd : (after (.ldcd 2 1) State.reset).dreg 2 =
    ⟨0xBB43198A2E037073, 0xBD70B4611A600000⟩ := by decide +kernel
/-- P1, line 3. -/
theorem test_dd_pack : (after (.ddPack 1 1 2) (fs 0x4008000000000000 0x8000000000000000)).dreg 1 =
    ⟨0x4008000000000000, 0x8000000000000000⟩ := by decide +kernel
theorem test_dd_hi : (after (.ddHi 0 1) (ds piDD eDD)).component (.f 0) = 0x400921FB54442D18 := by
  decide +kernel
theorem test_dd_lo : (after (.ddLo 0 1) (ds piDD eDD)).component (.f 0) = 0x3CA1A62633145C07 := by
  decide +kernel

/-! ### The double-double unit -/

/-- T-DP4. -/
theorem test_dd_xadd : (after (.ddXadd 3 1 2) (fs 0x3FB999999999999A 0x3FC999999999999A)).dreg 3 =
    ⟨0x3FD3333333333334, 0xBC80000000000000⟩ := by decide +kernel
/-- T-DP3: the precondition violated loses the low word in DD.XADD. -/
theorem test_dd_xadd_unordered : (after (.ddXadd 3 1 2) (fs 0x3C30000000000000 fone)).dreg 3 =
    ⟨fone, 0⟩ := by decide +kernel
/-- T-DP9, T-DP12. -/
theorem test_dd_xsub : (after (.ddXsub 3 1 2) (fs fone 0x3C90000000000000)).dreg 3 =
    ⟨fone, 0xBC90000000000000⟩ := by decide +kernel
/-- T-DP3, second half. -/
theorem test_dd_fxadd : (after (.ddFxadd 3 1 2) (fs 0x3C30000000000000 fone)).dreg 3 =
    ⟨fone, 0x3C30000000000000⟩ := by decide +kernel
/-- T-DP8. -/
theorem test_dd_fxadd_overflow : (after (.ddFxadd 3 1 2) (fs 0x7FEFFFFFFFFFFFFF 0x7FEFFFFFFFFFFFFF)).dreg 3 =
    ⟨infOf false, qNaN⟩ := by decide +kernel
/-- T-DP14, T-DP18. -/
theorem test_dd_xmul : (after (.ddXmul 3 1 1) (fs 0x3FB999999999999A 0)).dreg 3 =
    ⟨0x3F847AE147AE147C, 0xBC2EB851EB851EB8⟩ := by decide +kernel
theorem test_dd_xmul_overflow : (after (.ddXmul 3 1 1) (fs 0x6974E718D7D7625A 0)).dreg 3 =
    ⟨infOf false, infOf true⟩ := by decide +kernel
/-- T-DC1; the destination is a source. -/
theorem test_dd_add : (after (.ddAdd 1 1 2) (ds piDD eDD)).dreg 1 =
    ⟨0x40177082EFAC4241, 0xBCA9845AEA3AA2BF⟩ := by decide +kernel
/-- T-DC5. -/
theorem test_dd_sub : (after (.ddSub 3 1 2) (ds piDD eDD)).dreg 3 =
    ⟨0x3FDB1786497EAD78, 0xBC797AC57CE52998⟩ := by decide +kernel
/-- T-DC8. -/
theorem test_dd_mul : (after (.ddMul 3 1 2) (ds piDD eDD)).dreg 3 =
    ⟨0x402114580B45D475, 0xBCC867BDEA1974BC⟩ := by decide +kernel
/-- T-DC12. -/
theorem test_dd_qmul : (after (.ddQmul 3 1 2) (ds piDD eDD)).dreg 3 =
    ⟨0x402114580B45D474, 0x3CD3CC210AF345A2⟩ := by decide +kernel
/-- T-DC14. -/
theorem test_dd_mulf :
    (after (.ddMulf 3 1 1) ((ds ⟨0x3FD5555555555555, 0x3C75555555555555⟩ eDD).writeF 1
      0x4008000000000000)).dreg 3 = ⟨fone, 0xB930000000000000⟩ := by decide +kernel
/-- T-DC15, T-DC17. -/
theorem test_dd_div : (after (.ddDiv 3 1 2) (ds piDD eDD)).dreg 3 =
    ⟨0x3FF27DDBF6271DBE, 0xBC7023C476CC3362⟩ := by decide +kernel
theorem test_dd_div_zero : (after (.ddDiv 3 1 2) (ds ⟨fone, 0⟩ ⟨0, 0⟩)).dreg 3 = ⟨qNaN, qNaN⟩ := by
  decide +kernel
/-- T-DC18, T-DC20. -/
theorem test_dd_sqrt : (after (.ddSqrt 3 1) (ds piDD eDD)).dreg 3 =
    ⟨0x3FFC5BF891B4EF6B, 0xBC9618F13EB7CA88⟩ := by decide +kernel
theorem test_dd_sqrt_subnormal : (after (.ddSqrt 3 1) (ds ⟨1, 0⟩ eDD)).dreg 3 =
    ⟨0x1E60000000000000, 0⟩ := by decide +kernel
/-- T-DC21. -/
theorem test_dd_recip : (after (.ddRecip 3 1) (ds piDD eDD)).dreg 3 =
    ⟨0x3FD45F306DC9C883, 0xBC76B01EC5417057⟩ := by decide +kernel

/-! ### The Dyadic128 unit -/

/-- T-Q2. -/
theorem test_dy_fromf : (after (.dyFromf 3 1) (fs 0x3FB999999999999A 0)).dyadic 3 =
    ⟨false, -131, 0xCCCCCCCCCCCCD0000000000000000000⟩ := by decide +kernel
/-- T-X6. -/
theorem test_dy_fromf_nan : let s := after (.dyFromf 0 1) (fs qNaN 0)
    (answer s, s.valid (.qh 0)) = ((some ⟨4, 0⟩, 0x1000), false) := by decide +kernel
/-- T-Q11: a tie goes to the even word. -/
theorem test_dy_tof_tie :
    (after (.dyTof 0 1) (qs ⟨false, -127, 0x80000000000004000000000000000000⟩ oneDy)).component (.f 0) =
      fone := by decide +kernel
/-- T-Q17: the overflow tie sets OF. -/
theorem test_dy_tof_overflow :
    let s := after (.dyTof 0 1) (qs ⟨true, 896, 0xFFFFFFFFFFFFFC000000000000000000⟩ oneDy)
    (s.component (.f 0), answer s) = (infOf true, (some ⟨0, 0⟩, 0x0100)) := by decide +kernel
/-- T-Q31. -/
theorem test_dy_norm : (after (.dyNorm 3 1) (qs ⟨true, 10, 0x00000000000000FF0000000000000000⟩ oneDy)).dyadic 3 =
    ⟨true, -46, 0xFF000000000000000000000000000000⟩ := by decide +kernel
/-- T-X7. -/
theorem test_dy_norm_range : let s := after (.dyNorm 3 1) (qs ⟨false, -32700, 1⟩ oneDy)
    (answer s, s.valid (.qe 3)) = ((some ⟨5, 0⟩, 0x2000), false) := by decide +kernel
/-- T-Q44: the shifted-out bit is dropped before the subtraction. -/
theorem test_dy_add : (after (.dyAdd 3 1 2) (qs oneDy ⟨true, -128, onesDy⟩)).dyadic 3 =
    ⟨false, -254, hDy⟩ := by decide +kernel
/-- T-Q51. -/
theorem test_dy_add_range : answer (after (.dyAdd 3 1 2) (qs ⟨false, 32767, onesDy⟩ ⟨false, 32767, onesDy⟩)) =
    (some ⟨5, 0⟩, 0x2000) := by decide +kernel
/-- T-Q63. -/
theorem test_dy_mul : (after (.dyMul 3 1 1) (qs ⟨false, -127, onesDy⟩ oneDy)).dyadic 3 =
    ⟨false, -126, 0xFFFFFFFFFFFFFFFFFFFFFFFFFFFFFFFE⟩ := by decide +kernel
/-- T-Q69. -/
theorem test_dy_neg : (after (.dyNeg 3 1) (qs ⟨false, 3, 5⟩ oneDy)).dyadic 3 = ⟨true, 3, 5⟩ := by
  decide +kernel
/-- T-Q76. -/
theorem test_dy_recip : (after (.dyRecip 3 1) (qs ⟨false, 0, 4⟩ oneDy)).dyadic 3 =
    ⟨false, -129, hDy⟩ := by decide +kernel
/-- T-Q71. -/
theorem test_dy_recipf : (after (.dyRecipf 3 1) (fs 0x3FB999999999999A 0)).dyadic 3 =
    ⟨false, -124, 0x9FFFFFFFFFFFFD8000000000000A0000⟩ := by decide +kernel
/-- T-Q75: the seed overflows. -/
theorem test_dy_recipf_domain : answer (after (.dyRecipf 3 1) (fs 1 0)) = (some ⟨4, 0⟩, 0x1000) := by
  decide +kernel
/-- T-Q77. -/
theorem test_dy_div :
    (after (.dyDiv 3 1 2) (qs oneDy ⟨false, -126, 0xC0000000000000000000000000000000⟩)).dyadic 3 =
      ⟨false, -129, 0xAAAAAAAAAAAAAAAAAAAAAAAAAAAAAAAC⟩ := by decide +kernel
/-- T-Q86. -/
theorem test_dy_rnd : (after (.dyRnd 3 1) (qs ⟨true, -1, 1⟩ oneDy)).dyadic 3 = ⟨true, -127, hDy⟩ := by
  decide +kernel
/-- T-Q85. -/
theorem test_dy_rnd_below_half : (after (.dyRnd 3 1) (qs ⟨false, -129, onesDy⟩ oneDy)).dyadic 3 =
    ⟨false, 0, 0⟩ := by decide +kernel

/-! ### The range reducer -/

/-- T-RR2. -/
theorem test_rr_small : let s := after (.rrSmall 3 1 4) (fs 0xBFF0000000000000 0)
    (s.dreg 3, s.component (.k 4)) =
      (⟨0x3F79C501FBACE38D, 0x3C0CE0F17215E8D0⟩, 0xFFFFFFFFFFFFFFD7) := by decide +kernel
/-- T-RR12, T-RR13: the last operand before Domain, and the first with it. -/
theorem test_rr_small_domain :
    answer (after (.rrSmall 3 1 4) (fs 0x438921FB54442D17 0)) = (some ⟨0, 0⟩, 0) ∧
    answer (after (.rrSmall 3 1 4) (fs 0x438921FB54442D18 0)) = (some ⟨4, 0⟩, 0x1000) := by
  decide +kernel
/-- R195, R196: a NaN or an infinity is Domain before the parameter function is asked. -/
theorem test_rr_large_domain : answer (after (.rrLarge 3 1 4) (fs (infOf true) 0)) =
    (some ⟨4, 0⟩, 0x1000) := by decide +kernel
theorem test_rr_largeq_domain : answer (after (.rrLargeq 3 1 4) (fs qNaN 0)) =
    (some ⟨4, 0⟩, 0x1000) := by decide +kernel
/-- On a finite word both complete and write all their destinations. -/
theorem test_rr_large_completes : let s := after (.rrLarge 3 1 4) (fs fone 0)
    (s.valid (.dh 3), s.valid (.dl 3), s.valid (.k 4), answer s) =
      (true, true, true, (some ⟨0, 0⟩, 0)) := by decide +kernel
theorem test_rr_largeq_completes : let s := after (.rrLargeq 3 1 4) (fs fone 0)
    (s.valid (.qh 3), s.valid (.ql 3), s.valid (.qe 3), s.valid (.k 4), answer s) =
      (true, true, true, true, (some ⟨0, 0⟩, 0)) := by decide +kernel
/-- T-RR21, T-RR22. -/
theorem test_rr_idx : (after (.rrIdx 1 0 0x40) (State.reset.writeK 0 (-41))).component (.k 1) = 23 := by
  decide +kernel
theorem test_rr_idx_top : (after (.rrIdx 1 0 0xFF) (State.reset.writeK 0 0x7FFFFFFFFFFFFFFF)).component
    (.k 1) = 254 := by decide +kernel

/-! ### The escalation mux -/

/-- R212's example: SR 0x15 becomes 0x01. -/
theorem test_ziv_begin : answer (after .zivBegin (inPhase .done false true State.reset)) =
    (some ⟨0, 0⟩, 0x01) := by decide +kernel
/-- T-Z8: the error term is formed from the magnitude of hi. -/
theorem test_ziv_bound :
    let s := after (.zivBound 4 1 2 3) (inPhase .fast false false
      (((ds ⟨0xC000000000000000, 0x3C30000000000000⟩ eDD).writeF 2 0x3B90000000000000).writeF 3
        0x3A50000000000000))
    (s.component (.f 4), answer s) = (0x3BA0000080000000, (some ⟨0, 0⟩, 0x02)) := by decide +kernel
/-- T-Z1. -/
theorem test_ziv_test_accepts :
    let s := after (.zivTest 5 1 4) (inPhase .bound false false
      ((ds ⟨0x3FD5555555555555, 0x3C75555555555555⟩ eDD).writeF 4 0x3B75555955555555))
    (s.component (.f 5), answer s) = (0x3FD5555555555555, (some ⟨0, 0⟩, 0x0D)) := by decide +kernel
/-- T-Z2. -/
theorem test_ziv_test_rejects :
    let s := after (.zivTest 5 1 4) (inPhase .bound false false
      ((ds ⟨fone, 0x3CA0000000000000⟩ eDD).writeF 4 0x3AF0000000000000))
    (s.valid (.f 5), answer s) = (false, (some ⟨0, 0⟩, 0x14)) := by decide +kernel
/-- P4, line 21. -/
theorem test_ziv_fallback :
    let s := after (.zivFallback 5 1) (inPhase .escalate false true
      (qs ⟨false, -127, 0x80000000000004000000000008000000⟩ oneDy))
    (s.component (.f 5), answer s) = (0x3FF0000000000001, (some ⟨0, 0⟩, 0x15)) := by decide +kernel
/-- T-X5: Sequence before Uninit, by a whole step from reset. -/
theorem test_step_sequence : answer (stepped (State.reset.withFetchWord 32 0x62514000)) =
    (some ⟨2, 0⟩, 0x0400) := by decide +kernel
/-- T-X2. -/
theorem test_step_illegal : answer (stepped (State.reset.withFetchWord 32 0x16000000)) =
    (some ⟨1, 0⟩, 0x0200) := by decide +kernel
/-- Examples of R77. -/
theorem test_assembly : assembly (.rrIdx 2 0 64) = "RR.IDX K2, K0, 64" ∧
    assembly (.zivBound 4 1 2 3) = "ZIV.BOUND F4, D1, F2, F3" := by decide +kernel

/-- An outcome is a next state that passes a check, by evaluating the check. -/
def passes (o : Result) (p : State → Bool) : Bool :=
  match o with
  | .next u => p u
  | .fault _ => false
  | .refused _ => false

theorem next_of_passes {o : Result} {p : State → Bool} (h : passes o p = true) :
    ∃ u, o = .next u ∧ p u = true := by
  cases o with
  | next u => exact ⟨u, rfl, h⟩
  | fault r => cases h
  | refused r => cases h

/-! ### Witnesses: for each obligation with hypotheses, a concrete case that meets them all -/

/-- A state whose next transaction is one word. -/
def sent (w : Cmd) : State := { State.reset with input := [⟨w, 0⟩] }
/-- D1, D2, F1 to F4 written; F0, F5 on, D0, D3 on not. -/
def written : State := ((((ds piDD eDD).writeF 1 fone).writeF 2 ftwo).writeF 3 0).writeF 4 0

theorem fval_zero : fval 0 = 0 := (fval_eq_zero_iff 0).mpr (by decide)
/-- The value of a normal word by its fields. -/
theorem fval_normal {w : F64} {s : Bool} {e f : Nat} (hs : fsign w = s) (he : fexp w = e)
    (hf : ffrac w = f) (h0 : e ≠ 0) :
    fval w = (if s then -1 else 1) * (((2 : ℚ) ^ 52 + f) * (2 : ℚ) ^ ((e : ℤ) - 1075)) := by
  simp [fval, hs, he, hf, h0]
theorem fval_one : fval fone = 1 := by
  rw [fval_normal (s := false) (e := 1023) (f := 0) (by decide) (by decide) (by decide) (by decide)]
  norm_num
/-- 2^-80 and its negation. -/
theorem fval_tiny : fval 0x3AF0000000000000 = (2 : ℚ) ^ (-80 : ℤ) := by
  rw [fval_normal (s := false) (e := 943) (f := 0) (by decide) (by decide) (by decide) (by decide)]
  norm_num
theorem fval_neg_tiny : fval 0xBAF0000000000000 = -(2 : ℚ) ^ (-80 : ℤ) := by
  rw [fval_normal (s := true) (e := 943) (f := 0) (by decide) (by decide) (by decide) (by decide)]
  norm_num

theorem witness_DecodeOfEncodeIsTheCommand :
    (Instr.ldcd 15 0x7F).wellFormed = true ∧ (Instr.zivBound 15 15 15 15).wellFormed = true := by decide

theorem witness_EncodeOfDecodeIsTheWord : decode 0x12F0007F = .ok (.ldcd 15 0x7F) := by decide

theorem no_command (w : Cmd) (r : IllegalReason) (h : decode w = .error r) (i : Instr) :
    decode w ≠ .ok i := by rw [h]; simp

theorem witness_DecodingIsTheMaskAndMatchTable :
    ((Instr.ldcd 15 0x7F).wellFormed = true ∧ opOf 0x12F0007F = (Instr.ldcd 15 0x7F).opcode ∧
      0x12F0007F &&& (Instr.ldcd 15 0x7F).format.mask = (Instr.ldcd 15 0x7F).matchWord ∧
      encode (.ldcd 15 0x7F) &&& ~~~(Instr.ldcd 15 0x7F).format.mask =
        0x12F0007F &&& ~~~(Instr.ldcd 15 0x7F).format.mask) ∧
    ((sent 0x12000080).input = [⟨0x12000080, 0⟩] ∧ ∀ i, decode 0x12000080 ≠ .ok i) ∧
    (Instr.mtf 1).opcode = (Instr.mtf 2).opcode :=
  ⟨by decide, ⟨rfl, no_command _ (.unusedFieldNotZero 0x12) (by decide)⟩, by decide⟩

/-- Both ends of each reserved range. -/
theorem witness_ReservedOpcodesAreIllegal :
    (sent 0x16000000).input = [⟨0x16000000, 0⟩] ∧
    ([0x16, 0x1F, 0x24, 0x2F, 0x38, 0x3F, 0x4A, 0x4F, 0x54, 0x5F, 0x64, 0xFF].all fun op : Nat =>
      let n := (opOf (BitVec.ofNat 32 (op * 2 ^ 24))).toNat
      (0x16 ≤ n && n ≤ 0x1F) || (0x24 ≤ n && n ≤ 0x2F) || (0x38 ≤ n && n ≤ 0x3F) ||
        (0x4A ≤ n && n ≤ 0x4F) || (0x54 ≤ n && n ≤ 0x5F) || 0x64 ≤ n) = true := by decide

theorem witness_StepRunsTheDecodedCommand :
    ((sent 0x0F000000).input = ⟨0x0F000000, 0⟩ :: [] ∧ decode 0x0F000000 = .ok .mfsr) ∧
    State.reset.input = [] ∧ Instr.mfsr.wellFormed = true := by decide

theorem witness_EveryTransactionGetsOneResponse :
    (sent 0x0F000000).input = ⟨0x0F000000, 0⟩ :: [] ∧ ∃ t, step (sent 0x0F000000) = .next t :=
  ⟨rfl, _, rfl⟩

theorem witness_FaultsDoNothingElse :
    (∃ t, exec .mfsr State.reset = .next t) ∧ ∃ t, exec (.mff 0) State.reset = .next t :=
  ⟨⟨_, rfl⟩, _, rfl⟩

/-- One fault of each kind a decoded command can raise. -/
theorem witness_OnlyTheListedCommandsRaiseEachFault :
    (exec (.zivTest 5 1 4) State.reset = .next (State.reset.raise .sequence) ∧
      Faulted State.reset (State.reset.raise .sequence) .sequence) ∧
    (exec (.mff 0) State.reset = .next (State.reset.raise .uninit) ∧
      Faulted State.reset (State.reset.raise .uninit) .uninit) ∧
    (exec (.dyFromf 0 1) (fs qNaN 0) = .next ((fs qNaN 0).raise .domain) ∧
      Faulted (fs qNaN 0) ((fs qNaN 0).raise .domain) .domain) ∧
    (exec (.dyNorm 3 1) (qs ⟨false, -32700, 1⟩ oneDy) =
        .next ((qs ⟨false, -32700, 1⟩ oneDy).raise .expRange) ∧
      Faulted (qs ⟨false, -32700, 1⟩ oneDy) ((qs ⟨false, -32700, 1⟩ oneDy).raise .expRange) .expRange) :=
  ⟨⟨rfl, faulted_raise _ _⟩, ⟨rfl, faulted_raise _ _⟩, ⟨rfl, faulted_raise _ _⟩, rfl, faulted_raise _ _⟩

/-- All six legal values of SR[4:0]; from each a step is taken. -/
theorem witness_StepKeepsThePhaseInvariant :
    (phaseInvariant (inPhase .idle false false (sent 0x60000000)) ∧
      phaseInvariant (inPhase .fast false false (sent 0x60000000)) ∧
      phaseInvariant (inPhase .bound false false (sent 0x60000000)) ∧
      phaseInvariant (inPhase .done true false (sent 0x60000000)) ∧
      phaseInvariant (inPhase .escalate false true (sent 0x60000000)) ∧
      phaseInvariant (inPhase .done false true (sent 0x60000000))) ∧
    ∃ t, step (inPhase .escalate false true (sent 0x60000000)) = .next t := by
  refine ⟨?_, _, rfl⟩
  unfold phaseInvariant srLegal
  decide

/-- Every sticky bit set, and a step from there; the ends of the unnamed ranges. -/
theorem witness_StickyBitsStaySet :
    (let s := (sent 0x60000000).setSr ⟨.idle, false, false, true, true, true, true, true, true⟩
     (∃ t, step s = .next t) ∧ s.sr.toWord.getLsbD 8 = true ∧ s.sr.toWord.getLsbD 13 = true) ∧
    (∃ t, Sys2Proof.core.run 1 (sent 0x60000000) = .next t ∧ faultFree t) ∧
    (5 ≤ 5 ∧ 5 ≤ 7) ∧ (5 ≤ 7 ∧ 7 ≤ 7) ∧ 14 ≤ 14 :=
  ⟨⟨⟨_, rfl⟩, by decide, by decide⟩, ⟨_, rfl, by unfold faultFree; decide⟩, by decide⟩

theorem witness_ValidBitsStaySet :
    (∃ t, step (fs fone 0) = .next t) ∧ (fs fone 0).valid (.f 1) = true := ⟨⟨_, rfl⟩, by decide +kernel⟩

/-- Two different states that agree on what is valid. -/
theorem witness_UnwrittenContentsAreUnobservable :
    AgreeOnValid State.reset { State.reset with f := Vector.replicate 16 1 } ∧
    State.reset ≠ { State.reset with f := Vector.replicate 16 1 } := by
  refine ⟨⟨fun c => by cases c <;> rfl, fun c h => ?_, rfl, rfl, rfl, rfl⟩, by decide +kernel⟩
  cases c <;> simp [State.valid, State.reset] at h

/-- A completing command of no special kind, and one whose fault changes bit 11. -/
theorem witness_OnlyDestinationsChange :
    ((∃ t, exec (.mtf 1) State.reset = .next t) ∧ Component.f 0 ∉ destsOf (.mtf 1) ∧
      isZiv (.mtf 1) = false ∧ mnemonicOf (.mtf 1) ∉ ["ZIV.BEGIN", "ZIV.TEST"] ∧
      mnemonicOf (.mtf 1) ∉ ["DY.TOF", "ZIV.FALLBACK"]) ∧
    (exec (.mff 0) State.reset = .next (State.reset.raise .uninit) ∧ 9 ≤ 11 ∧ 11 ≤ 13 ∧
      (State.reset.raise .uninit).sr.toWord.getLsbD 11 ≠ State.reset.sr.toWord.getLsbD 11) :=
  ⟨⟨⟨_, rfl⟩, by decide, by decide, by decide, by decide⟩, rfl, by decide, by decide, by decide⟩

/-- Without a phase, and in the phase FAST with the last source unwritten; and an Uninit raised. -/
theorem witness_UnwrittenSourceRaisesUninit :
    (Component.f 0 ∈ sourcesOf (.mff 0) ∧ State.reset.valid (.f 0) = false ∧
      ∀ p, phaseOf (.mff 0) = some p → State.reset.sr.phase = p) ∧
    (Component.f 5 ∈ sourcesOf (.zivBound 4 1 2 5) ∧
      (inPhase .fast false false written).valid (.f 5) = false ∧
      ∀ p, phaseOf (.zivBound 4 1 2 5) = some p → (inPhase .fast false false written).sr.phase = p) ∧
    (exec (.mff 0) State.reset = .next (State.reset.raise .uninit) ∧
      Faulted State.reset (State.reset.raise .uninit) .uninit) :=
  ⟨⟨by decide, by decide +kernel, by simp [phaseOf]⟩,
    ⟨by decide, by decide +kernel, by intro p h; cases h; rfl⟩, rfl, faulted_raise _ _⟩

theorem witness_OutOfPhaseCommandRaisesSequence :
    State.reset.sr.phase ≠ .fast ∧ State.reset.sr.phase ≠ .bound ∧ State.reset.sr.phase ≠ .escalate ∧
    exec (.zivTest 5 1 4) State.reset = .next (State.reset.raise .sequence) ∧
    Faulted State.reset (State.reset.raise .sequence) .sequence :=
  ⟨by decide, by decide, by decide, rfl, faulted_raise _ _⟩

theorem witness_PhaseMattersOnlyToTheMux :
    isZiv (.mff 0) = false ∧ Instr.mff 0 ≠ .mfsr ∧ ∃ t, exec (.mff 0) State.reset = .next t :=
  ⟨by decide, by decide, _, rfl⟩

theorem witness_NopAndTheControlRegisterReads :
    (sent 0x00000001).input = ⟨0x00000001, 0⟩ :: [] ∧ opOf 0x00000001 = 0x00 ∧
    BitVec.extractLsb' 0 24 (0x00000001 : Cmd) ≠ 0 ∧ opOf 0x0F800000 = 0x0F ∧
    BitVec.extractLsb' 0 24 (0x0F800000 : Cmd) ≠ 0 ∧ opOf 0x10000100 = 0x10 ∧
    BitVec.extractLsb' 0 24 (0x10000100 : Cmd) ≠ 0 := by decide

theorem witness_MoveFromCommandsReturnTheComponent :
    (fs fone 0).valid (.f 1) = true ∧ (State.reset.writeDHi 1 0).valid (.dh 1) = true ∧
    (State.reset.writeDLo 1 0).valid (.dl 1) = true ∧ (State.reset.writeQHi 1 0).valid (.qh 1) = true ∧
    (State.reset.writeQLo 1 0).valid (.ql 1) = true ∧
    (State.reset.writeQE 1 true 0).valid (.qe 1) = true ∧
    (State.reset.writeK 1 0).valid (.k 1) = true := by decide +kernel

/-- The last pair index, and the first that is none. -/
theorem witness_RomLoadsCopyTheWords : (127#8).toNat < 128 ∧ 128 ≤ (128#8).toNat := by decide

theorem witness_PackAndUnpackMoveWords :
    ((fs fone 0).valid (.f 1) = true ∧ (fs fone 0).valid (.f 2) = true) ∧
    (State.reset.writeDHi 1 0).valid (.dh 1) = true ∧
    (State.reset.writeDLo 1 0).valid (.dl 1) = true := by decide +kernel

theorem witness_ExactTransformsRunTheirSequences :
    (fs fone 0).valid (.f 1) = true ∧ (fs fone 0).valid (.f 2) = true := by decide +kernel

theorem witness_DoubleDoubleAddAndSub :
    (written.valid (.dh 1) = true ∧ written.valid (.dl 1) = true ∧ written.valid (.dh 2) = true ∧
      written.valid (.dl 2) = true) ∧
    (∃ c ∈ [Component.dh 1, .dl 1, .dh 3, .dl 3], written.valid c = false) ∧
    ((sent 0x30312001).input = ⟨0x30312001, 0⟩ :: [] ∧ opOf 0x30312001 = 0x30 ∧
      BitVec.extractLsb' 0 12 (0x30312001 : Cmd) ≠ 0 ∧ opOf 0x31312800 = 0x31 ∧
      BitVec.extractLsb' 0 12 (0x31312800 : Cmd) ≠ 0) ∧
    isInf (infOf true) = true ∧ isFinite piDD.hi = true ∧ isFinite piDD.lo = true :=
  ⟨by decide +kernel, ⟨.dh 3, by decide, by decide +kernel⟩, by decide, by decide, by decide, by decide⟩

theorem witness_DoubleDoubleProducts :
    written.valid (.dh 1) = true ∧ written.valid (.dl 1) = true ∧ written.valid (.dh 2) = true ∧
    written.valid (.dl 2) = true ∧ written.valid (.f 1) = true := by decide +kernel

theorem witness_DoubleDoubleQuotientsAndRoots :
    written.valid (.dh 1) = true ∧ written.valid (.dl 1) = true ∧ written.valid (.dh 2) = true ∧
    written.valid (.dl 2) = true := by decide +kernel

theorem witness_NanAndInfinityThroughTheComposites :
    isNan qNaN = true ∧ isInf (infOf true) = true ∧ isZero qNaN = false := by decide

/-- The magnitudes may be equal. -/
theorem witness_OrderedExactAddLosesNothing :
    isFinite fone = true ∧ isFinite fone = true ∧ |fval fone| ≤ |fval fone| ∧
    isFinite (fadd fone fone) = true ∧ isFinite (fsub fone fone) = true :=
  ⟨by decide, by decide, le_refl _, by decide +kernel, by decide +kernel⟩

/-- The hypotheses at the corner where the claim fails (log 16): all hold, and lo is a NaN. -/
theorem witness_FullExactAddAsClaimed :
    isFinite 0xFCA8000000000000 = true ∧ isFinite 0x7FEFFFFFFFFFFFFF = true ∧
    isFinite (fadd 0xFCA8000000000000 0x7FEFFFFFFFFFFFFF) = true ∧
    isNan (twoSum 0xFCA8000000000000 0x7FEFFFFFFFFFFFFF).lo = true := by decide +kernel

theorem witness_ExactMultiplyLosesNothing :
    (isFinite 0 = true ∧ isFinite fone = true ∧ isFinite (fmul 0 fone) = true ∧
      fval 0 * fval fone = 0) ∧
    (isFinite fone = true ∧ isFinite (fmul fone fone) = true ∧
      (2 : ℚ) ^ (-969 : ℤ) ≤ |fval fone * fval fone|) := by
  refine ⟨⟨by decide, by decide, by decide +kernel, by rw [fval_zero, zero_mul]⟩,
    by decide, by decide +kernel, ?_⟩
  rw [fval_one, one_mul, abs_one]
  exact zpow_le_one_of_nonpos₀ (by norm_num) (by norm_num)

/-- A zero, a value below the overflow threshold, and the threshold itself. -/
theorem witness_RoundingIsNearestEven :
    0 < 3 ∧ ((0 : ℤ) : ℚ) / (3 : ℕ) = 0 ∧ ((1 : ℤ) : ℚ) / (3 : ℕ) ≠ 0 ∧
    |((1 : ℤ) : ℚ) / (3 : ℕ)| < ((2 : ℚ) ^ 54 - 1) * (2 : ℚ) ^ 970 ∧
    ((2 : ℚ) ^ 54 - 1) * (2 : ℚ) ^ 970 ≤ |(((2 ^ 54 - 1) * 2 ^ 970 : ℤ) : ℚ) / (1 : ℕ)| := by
  have h : (1 : ℚ) ≤ 2 ^ 970 := one_le_pow₀ (by norm_num)
  refine ⟨by decide, by norm_num, by norm_num, ?_, ?_⟩
  · have h2 : |((1 : ℤ) : ℚ) / (3 : ℕ)| < 1 := by norm_num [abs_of_pos]
    exact h2.trans_le (one_le_mul_of_one_le_of_one_le (by norm_num) h)
  · have e : (((2 ^ 54 - 1) * 2 ^ 970 : ℤ) : ℚ) / (1 : ℕ) = ((2 : ℚ) ^ 54 - 1) * (2 : ℚ) ^ 970 := by
      rw [Nat.cast_one, div_one, Int.cast_mul, Int.cast_sub, Int.cast_pow, Int.cast_pow, Int.cast_one,
        Int.cast_ofNat]
    exact e ▸ le_abs_self _

/-- Finite operands with a nonzero divisor; each kind of special operand. -/
theorem witness_OperationsRoundTheExactResultOnce :
    (isFinite fone = true ∧ isFinite 0 = true ∧ fval fone ≠ 0) ∧
    (isNan qNaN = true ∧ isNan fone = false ∧ isNan 0 = false ∧ isNan (infOf true) = false) ∧
    (isInf (infOf true) = true ∧ isInf fone = false ∧ isInf 0 = false) ∧
    (isZero 0 = true ∧ isZero fone = false ∧ isZero (infOf true) = false) :=
  ⟨⟨by decide, by decide, by rw [fval_one]; norm_num⟩, by decide, by decide, by decide⟩

theorem witness_ArithmeticNansAreCanonical :
    isNan (fadd qNaN 0) = true ∧ isNan (fsub (infOf false) (infOf false)) = true ∧
    isNan (fmul (infOf false) 0) = true ∧ isNan (fdiv 0 0) = true ∧ isNan (fsqrt (fneg fone)) = true ∧
    isNan (ffma (infOf false) fone (infOf true)) = true ∧ isNan (rintAway 0x7FF0000000000001) = true := by
  decide +kernel

theorem witness_ComparisonIsIeeeEquality :
    isNan qNaN = true ∧ (isFinite 0 = true ∧ isFinite 0x8000000000000000 = true) ∧
    (isNan fone = false ∧ isNan (infOf true) = false ∧ isInf (infOf true) = true) := by decide

theorem witness_DyadicConstructionIsExact :
    ((fs fone qNaN).valid (.f 1) = true ∧ isFinite ((fs fone qNaN).component (.f 1)) = true) ∧
    ((fs fone qNaN).valid (.f 2) = true ∧ isFinite ((fs fone qNaN).component (.f 2)) = false) := by
  decide +kernel

theorem qs_valid (x y : Dy) (c : Component)
    (hc : c ∈ [Component.qh 1, .ql 1, .qe 1, .qh 2, .ql 2, .qe 2]) : (qs x y).valid c = true := by
  simp only [List.mem_cons, List.not_mem_nil, or_false] at hc
  rcases hc with rfl | rfl | rfl | rfl | rfl | rfl <;> simp [qs]

theorem witness_DyadicConversionRoundsOnce :
    (qs oneDy oneDy).valid (.qh 1) = true ∧ (qs oneDy oneDy).valid (.ql 1) = true ∧
    (qs oneDy oneDy).valid (.qe 1) = true := by decide +kernel

theorem witness_RoundTripIsExact : isFinite 0x8000000000000001 = true := by decide

theorem witness_DyadicResultsAreNormalized :
    Instr.dyNorm 3 1 ∈ [Instr.dyFromf 3 1, .dyNorm 3 1, .dyAdd 3 1 0, .dyMul 3 1 0, .dyRecip 3 1,
      .dyRecipf 3 1, .dyDiv 3 1 0, .dyRnd 3 1] ∧
    ∃ u, exec (.dyNorm 3 1) (qs ⟨false, 0, 1⟩ oneDy) = .next u ∧
      (∃ rdata, u.output = (qs ⟨false, 0, 1⟩ oneDy).output ++ [⟨0, rdata⟩]) ∧
    ∃ u, exec (.dyNeg 3 1) (qs ⟨false, 0, 1⟩ oneDy) = .next u ∧
      ∃ rdata, u.output = (qs ⟨false, 0, 1⟩ oneDy).output ++ [⟨0, rdata⟩] :=
  ⟨by decide, _, rfl, ⟨0, rfl⟩, _, rfl, 0, rfl⟩

/-- A zero mantissa, the least exponent that normalizes, and the one below it. -/
theorem witness_NormalizeKeepsTheValue :
    (qs oneDy oneDy).valid (.qh 1) = true ∧
    ((qs ⟨false, -32768, 0⟩ oneDy).dyadic 1).m = 0 ∧
    (qs ⟨false, -32641, 1⟩ oneDy).dyadic 1 = ⟨false, -32641, 1⟩ ∧ (-32768 : ℤ) ≤ -32641 - (127 - Nat.log 2 1) ∧
    (qs ⟨false, -32642, 1⟩ oneDy).dyadic 1 = ⟨false, -32642, 1⟩ ∧ (1 ≠ 0) ∧
    (-32642 : ℤ) - (127 - Nat.log 2 1) < -32768 :=
  ⟨by decide +kernel, by decide +kernel, by decide +kernel, by norm_num, by decide +kernel, by norm_num, by norm_num⟩

/-- Operands whose sum is in range, and whose sum is not. -/
theorem witness_DyadicAddFollowsItsPseudocode :
    (∀ c ∈ [Component.qh 1, .ql 1, .qe 1, .qh 2, .ql 2, .qe 2], (qs oneDy oneDy).valid c = true) ∧
    (canon false (-127 + 1) ((hDy + hDy) / 2) = .ok ⟨false, -126, hDy⟩ ∧ 2 ^ 128 ≤ hDy + hDy) ∧
    (canon false (32767 + 1) ((onesDy + onesDy) / 2) = .error .expRange ∧ 2 ^ 128 ≤ onesDy + onesDy) :=
  ⟨qs_valid _ _, by decide, by decide⟩

/-- A product whose high half is zero; the largest exponent that fits; the next one. -/
theorem witness_DyadicMulKeepsTheHighHalf :
    (∀ c ∈ [Component.qh 1, .ql 1, .qe 1, .qh 2, .ql 2, .qe 2], (qs oneDy oneDy).valid c = true) ∧
    1 * 1 / 2 ^ 128 = 0 ∧
    (let m := onesDy * onesDy / 2 ^ 128
     m ≠ 0 ∧ (127 - m.log2 = 0) ∧ (16383 : ℤ) + 16256 + 128 - 0 = 32767 ∧
       32767 < (16384 : ℤ) + 16256 + 128 - 0) := by
  refine ⟨qs_valid _ _, by decide, by decide⟩

theorem witness_DyadicSumAndProductAreClose :
    (∃ u, exec (.dyAdd 3 1 2) (qs oneDy oneDy) = .next u ∧
      ∃ rdata, u.output = (qs oneDy oneDy).output ++ [⟨0, rdata⟩]) ∧
    (∃ u, exec (.dyMul 3 1 2) (qs oneDy oneDy) = .next u ∧
      ∃ rdata, u.output = (qs oneDy oneDy).output ++ [⟨0, rdata⟩]) ∧
    (rget (qs oneDy oneDy).q 1).mant.getLsbD 127 = true ∧
    (rget (qs oneDy oneDy).q 2).mant.getLsbD 127 = true :=
  ⟨⟨_, rfl, 0, rfl⟩, ⟨_, rfl, 0, rfl⟩, by decide +kernel, by decide +kernel⟩

theorem witness_NegateFlipsTheSignOnly :
    (qs ⟨true, 5, 0⟩ oneDy).valid (.qh 1) = true ∧ (qs ⟨true, 5, 0⟩ oneDy).valid (.ql 1) = true ∧
    (qs ⟨true, 5, 0⟩ oneDy).valid (.qe 1) = true := by decide +kernel

/-- With a seed: 4 unnormalized, and 2^-1023, whose seed is near the top; without one: a zero, 2^-1074,
2^1024. -/
theorem witness_ReciprocalRunsThreeNewtonSteps :
    ((qs ⟨false, 0, 4⟩ oneDy).valid (.qh 1) = true ∧
      (let seedless : Dy → Bool := fun x =>
        x.m == 0 || isZero (fastAsF64 x).1 || isInf (fastAsF64 x).1 || isInf (fdiv fone (fastAsF64 x).1)
       seedless ⟨false, 0, 4⟩ = false ∧ seedless ⟨false, -1150, hDy⟩ = false ∧
       seedless ⟨false, 5, 0⟩ = true ∧ seedless ⟨false, -1201, hDy⟩ = true ∧
       seedless ⟨false, 897, hDy⟩ = true)) ∧
    ((fs fone qNaN).valid (.f 1) = true ∧ fromF64 fone = .ok oneDy) ∧
    ((fs fone qNaN).valid (.f 2) = true ∧ isFinite ((fs fone qNaN).component (.f 2)) = false) := by
  decide +kernel

theorem witness_DyadicDivisionMultipliesByTheReciprocal :
    (∀ c ∈ [Component.qh 1, .ql 1, .qe 1, .qh 2, .ql 2, .qe 2], (qs oneDy oneDy).valid c = true) ∧
    (reciprocal 3 oneDy = .ok oneDy ∧ quickMul oneDy oneDy = .ok oneDy) ∧
    (∃ r, reciprocal 3 ⟨false, -128, hDy⟩ = .ok r ∧ quickMul ⟨false, 32767, hDy⟩ r = .error .expRange) ∧
    reciprocal 3 ⟨false, -1201, hDy⟩ = .error .domain ∧ (⟨false, 5, 0⟩ : Dy).m = 0 :=
  ⟨qs_valid _ _, by decide +kernel, ⟨⟨false, -126, hDy⟩, by decide +kernel⟩, by decide +kernel, rfl⟩

theorem witness_RoundToIntegerIsTiesAway :
    (qs ⟨true, -1, 1⟩ oneDy).valid (.qh 1) = true ∧ (qs ⟨true, -1, 1⟩ oneDy).valid (.ql 1) = true ∧
    (qs ⟨true, -1, 1⟩ oneDy).valid (.qe 1) = true := by decide +kernel

/-- The greatest operand whose k fits, the next one, and a product below 2^52 (T-RR12, T-RR13). -/
theorem witness_SmallReductionRunsItsSequence :
    (fs 0x438921FB54442D17 0x438921FB54442D18).valid (.f 1) = true ∧
    (let kd := rintAway (fmul 0x438921FB54442D17 0x40445F306DC9C883)
     isFinite kd = true ∧ |fval kd| < 2 ^ 63) ∧
    (let kd := rintAway (fmul 0x438921FB54442D18 0x40445F306DC9C883)
     ¬ (isFinite kd = true ∧ |fval kd| < 2 ^ 63)) ∧
    |fval (fmul 0 0x40445F306DC9C883)| < 2 ^ 52 ∧
    2 ^ 52 ≤ |fval (fmul 0x438921FB54442D17 0x40445F306DC9C883)| := by
  have h1 : rintAway (fmul 0x438921FB54442D17 0x40445F306DC9C883) = 0x43DFFFFFFFFFFFFF := by
    decide +kernel
  have h2 : rintAway (fmul 0x438921FB54442D18 0x40445F306DC9C883) = 0x43E0000000000000 := by
    decide +kernel
  have h3 : fmul 0 0x40445F306DC9C883 = 0 := by decide +kernel
  have h4 : fmul 0x438921FB54442D17 0x40445F306DC9C883 = 0x43DFFFFFFFFFFFFF := by decide +kernel
  refine ⟨by decide +kernel, ?_, ?_, ?_, ?_⟩
  · dsimp only
    rw [h1]
    refine ⟨by decide, ?_⟩
    rw [fval_normal (s := false) (e := 1085) (f := 2 ^ 52 - 1) (by decide) (by decide) (by decide)
      (by decide)]
    norm_num
  · dsimp only
    rw [h2]
    rintro ⟨-, h⟩
    rw [fval_normal (s := false) (e := 1086) (f := 0) (by decide) (by decide) (by decide)
      (by decide)] at h
    norm_num at h
  · rw [h3, fval_zero]
    norm_num
  · rw [h4, fval_normal (s := false) (e := 1085) (f := 2 ^ 52 - 1) (by decide) (by decide) (by decide)
      (by decide)]
    norm_num

/-- Some bound meets the small path's contract: there are finitely many operands. -/
theorem smallContract_exists : ∃ bound, smallContract bound := by
  obtain ⟨b, hb⟩ := (Set.finite_range fun x : F64 =>
    |(fval x : ℝ) - ((f64ToInt (smallKd x)).toInt : ℝ) * Real.pi / 128
      - (ddVal (smallResidual x (smallKd x)) : ℝ)|).bddAbove
  exact ⟨b, fun x _ _ => hb ⟨x, rfl⟩⟩

theorem witness_SmallReductionLeavesAShortResidual :
    (fs fone 0).valid (.f 1) = true ∧ isFinite ((fs fone 0).component (.f 1)) = true ∧
    |fval ((fs fone 0).component (.f 1))| < 2 ^ 16 ∧ ∃ bound, smallContract bound := by
  have h : (fs fone 0).component (.f 1) = fone := by decide +kernel
  refine ⟨by decide +kernel, by rw [h]; decide, ?_, smallContract_exists⟩
  rw [h, fval_one]
  norm_num

/-- Some bound meets the contract of `rr_large`, whatever that function is. -/
theorem largeContract_exists : ∃ bound, largeContract bound := by
  let v : F64 → ℝ := fun x =>
    (ddVal { hi := wordOfFinite (Config.rrLarge x).hi, lo := wordOfFinite (Config.rrLarge x).lo } : ℝ)
  obtain ⟨b, hb⟩ := (Set.finite_range fun x : F64 =>
    |(fval x : ℝ) - (((Config.rrLarge x).k.toInt : ℤ) : ℝ) * Real.pi / 128 - v x|).bddAbove
  obtain ⟨c, hc⟩ := (Set.finite_range fun x : F64 => |v x|).bddAbove
  refine ⟨max b c, fun x _ => ⟨⟨_, rfl, (hb ⟨x, rfl⟩).trans (le_max_left _ _)⟩, ?_⟩⟩
  have h1 : |v x| ≤ c := hc ⟨x, rfl⟩
  have h2 := le_max_right b c
  have h3 := Real.pi_pos
  show |v x| ≤ _
  linarith

/-- Some bound meets the contract of `rr_large_q`. -/
theorem largeQContract_exists : ∃ bound, largeQContract bound := by
  let v : F64 → ℝ := fun x => (qVal (regOfNormal (Config.rrLargeQ x).q) : ℝ)
  obtain ⟨b, hb⟩ := (Set.finite_range fun x : F64 =>
    |(fval x : ℝ) - (((Config.rrLargeQ x).k.toInt : ℤ) : ℝ) * Real.pi / 128 - v x|).bddAbove
  obtain ⟨c, hc⟩ := (Set.finite_range fun x : F64 => |v x|).bddAbove
  refine ⟨max b c, fun x _ => ⟨⟨_, rfl, (hb ⟨x, rfl⟩).trans (le_max_left _ _)⟩, ?_⟩⟩
  have h1 : |v x| ≤ c := hc ⟨x, rfl⟩
  have h2 := le_max_right b c
  have h3 := Real.pi_pos
  show |v x| ≤ _
  linarith

theorem witness_LargeReductionKeepsItsContract :
    ((fs fone qNaN).valid (.f 1) = true ∧ isFinite ((fs fone qNaN).component (.f 1)) = true ∧
      (fs fone qNaN).valid (.f 2) = true ∧ isFinite ((fs fone qNaN).component (.f 2)) = false) ∧
    ∃ bound, largeContract bound := ⟨by decide +kernel, largeContract_exists⟩

theorem witness_LargeDyadicReductionKeepsItsContract :
    ((fs fone qNaN).valid (.f 1) = true ∧ isFinite ((fs fone qNaN).component (.f 1)) = true ∧
      (fs fone qNaN).valid (.f 2) = true ∧ isFinite ((fs fone qNaN).component (.f 2)) = false) ∧
    ∃ bound, largeQContract bound := ⟨by decide +kernel, largeQContract_exists⟩

theorem witness_IndexFoldIsTheRemainder :
    (State.reset.writeK 1 0).valid (.k 1) = true ∧ State.reset.valid (.k 1) = false ∧
    (sent 0x53200140).input = ⟨0x53200140, 0⟩ :: [] ∧ opOf 0x53200140 = 0x53 ∧
    BitVec.extractLsb' 8 8 (0x53200140 : Cmd) ≠ 0 := by decide +kernel

theorem witness_BeginStartsACall :
    (inPhase .done false true State.reset).sr.toWord = 0x15 ∧
    ∃ u, exec .zivBegin (inPhase .done false true State.reset) = .next u := ⟨by decide, _, rfl⟩

theorem witness_BoundFormsTheErrorTerm :
    (let s := inPhase .fast false false written
     s.sr.phase = .fast ∧ s.valid (.dh 1) = true ∧ s.valid (.dl 1) = true ∧ s.valid (.f 2) = true ∧
       s.valid (.f 3) = true) ∧ isInf (infOf true) = true ∧ isNan qNaN = true := by decide +kernel

/-- A candidate that is accepted, one that is rejected, and a NaN. -/
theorem witness_TestAcceptsOrEscalates :
    (let s := inPhase .bound false false written
     s.sr.phase = .bound ∧ s.valid (.dh 1) = true ∧ s.valid (.dl 1) = true ∧ s.valid (.f 4) = true) ∧
    feq (fadd fone (fadd 0 0)) (fadd fone (fsub 0 0)) = true ∧
    feq (fadd fone (fadd 0 fone)) (fadd fone (fsub 0 fone)) = false ∧ isNan qNaN = true := by
  decide +kernel

theorem witness_FallbackReturnsTheRoundedDyadic :
    let s := inPhase .escalate false true (qs oneDy oneDy)
    s.sr.phase = .escalate ∧ s.valid (.qh 1) = true ∧ s.valid (.ql 1) = true ∧ s.valid (.qe 1) = true := by
  decide +kernel

/-- The candidate (1, 0) with the error bound 2^-80 and the true value 1. -/
theorem witness_AcceptedResultIsCorrectlyRounded :
    let s := inPhase .bound false false ((ds ⟨fone, 0⟩ eDD).writeF 4 0x3AF0000000000000)
    let hi := s.component (.dh 1)
    let lo := s.component (.dl 1)
    let err := s.component (.f 4)
    (s.sr.phase = .bound ∧ s.valid (.dh 1) = true ∧ s.valid (.dl 1) = true ∧ s.valid (.f 4) = true) ∧
    (isFinite hi = true ∧ isFinite lo = true ∧ isFinite err = true ∧ 0 ≤ fval err) ∧
    (isFinite (fadd lo err) = true ∧ fval (fadd lo err) = fval lo + fval err) ∧
    (isFinite (fsub lo err) = true ∧ fval (fsub lo err) = fval lo - fval err) ∧
    |(1 : ℚ) - (fval hi + fval lo)| ≤ fval err ∧
    s.sr.acc = false ∧ ∃ u, exec (.zivTest 5 1 4) s = .next u ∧ u.sr.acc = true := by
  intro s hi lo err
  have e1 : hi = fone := by decide +kernel
  have e2 : lo = 0 := by decide +kernel
  have e3 : err = 0x3AF0000000000000 := by decide +kernel
  have e4 : fadd 0 0x3AF0000000000000 = 0x3AF0000000000000 := by decide +kernel
  have e5 : fsub 0 0x3AF0000000000000 = 0xBAF0000000000000 := by decide +kernel
  have pos : (0 : ℚ) ≤ (2 : ℚ) ^ (-80 : ℤ) := by positivity
  rw [e1, e2, e3, e4, e5, fval_zero, fval_one, fval_tiny, fval_neg_tiny]
  refine ⟨by decide +kernel, ⟨by decide, by decide, by decide, pos⟩, ⟨by decide, by ring⟩,
    ⟨by decide, by ring⟩, ?_, by decide, next_of_passes (p := fun u => u.sr.acc) (by decide +kernel)⟩
  simp

theorem witness_FallbackNeedsARejection :
    (let s := inPhase .escalate false true (qs oneDy oneDy)
     phaseInvariant s ∧ ∃ u, exec (.zivFallback 5 1) s = .next u ∧
       ∃ rdata, u.output = s.output ++ [⟨0, rdata⟩]) ∧
    (let s := inPhase .bound false false ((ds ⟨fone, 0⟩ eDD).writeF 4 fone)
     s.sr.esc = false ∧ ∃ u, exec (.zivTest 5 1 4) s = .next u ∧ u.sr.esc = true) ∧
    (let s := inPhase .bound false false ((ds ⟨fone, 0⟩ eDD).writeF 4 0)
     s.sr.acc = false ∧ ∃ u, exec (.zivTest 5 1 4) s = .next u ∧ u.sr.acc = true) := by
  refine ⟨⟨?_, _, rfl, 0, rfl⟩,
    ⟨by decide, next_of_passes (p := fun u => u.sr.esc) (by decide +kernel)⟩, by decide,
    next_of_passes (p := fun u => u.sr.acc) (by decide +kernel)⟩
  unfold phaseInvariant srLegal
  decide

/-- Each kind of operand: NaN, zero, infinity, negative, positive; below 2^52 and 2^52 itself. -/
theorem witness_RootsAndIntegersRoundOnce :
    (isNan qNaN = true ∧ isZero 0x8000000000000000 = true ∧
      (isInf (infOf false) = true ∧ fsign (infOf false) = false) ∧
      (isZero (infOf true) = false ∧ fsign (infOf true) = true) ∧
      (isFinite fone = true ∧ isZero fone = false ∧ fsign fone = false)) ∧
    |fval fone| < 2 ^ 52 ∧
    (isFinite 0x4330000000000000 = true ∧ 2 ^ 52 ≤ |fval 0x4330000000000000|) := by
  refine ⟨by decide, by rw [fval_one]; norm_num, by decide, ?_⟩
  rw [fval_normal (s := false) (e := 1075) (f := 0) (by decide) (by decide) (by decide) (by decide)]
  norm_num

end Sys2Proof.Tests
end

/-! What a command, a step and a run can do, once each, and the sticky bits of SR
(spec/10_state.md R30, R33). -/

namespace Sys2Proof.Machine

/-! ### What a command can do (R27, R30, R262) -/

/-- The SR a command can leave when it completes, from the SR it found: only the ZIV commands and DY.TOF
change it, each as its own rule says and only from its own phase (R30, R157, R211 to R215). -/
inductive SrAfter (sr : Status) : Instr → Status → Prop
  | kept {i : Instr} (hi : isZiv i = false) : SrAfter sr i sr
  | converted (rd ra : Reg) (o : Bool) : SrAfter sr (.dyTof rd ra) (sr.noteOverflow o)
  | begun : SrAfter sr .zivBegin sr.beginCall
  | bounded (rd ra rb rc : Reg) (hp : sr.phase = .fast) : SrAfter sr (.zivBound rd ra rb rc) sr.bounded
  | accepted (rd ra rb : Reg) (hp : sr.phase = .bound) : SrAfter sr (.zivTest rd ra rb) sr.testing.accepted
  | rejected (rd ra rb : Reg) (hp : sr.phase = .bound) : SrAfter sr (.zivTest rd ra rb) sr.testing.rejected
  | returned (rd ra : Reg) (o : Bool) (hp : sr.phase = .escalate) :
      SrAfter sr (.zivFallback rd ra) (sr.noteOverflow o).returned

/-- The two ways the command `i` ends from `s`: complete, with destinations of its own written and an SR of
its own, or the state before with one fault raised. -/
inductive CommandEnds (i : Instr) (s : State) : Result → Prop
  | completes {t : State} {writes : List (Component × Word)} {sr : Status} {rdata : Word}
      (hc : Completed s t writes sr rdata) (hd : writes.map Prod.fst ⊆ destsOf i)
      (hsr : SrAfter s.sr i sr) : CommandEnds i s (.next t)
  | faults (x : CmdFault) : CommandEnds i s (.next (s.raise x))

/-- A D register and a K register written by one command (R193, R195). -/
theorem completed_writeD_writeK (s : State) (rd rc : Reg) (v : DReg) (k : Word) :
    Completed s (((s.writeD rd v).writeK rc k).respond 0 0)
      [(.dh rd, v.hi), (.dl rd, v.lo), (.k rc, k)] s.sr 0 :=
  ⟨by simp, by simp +contextual, by simp, by simp, by simp⟩

/-- A Q register and a K register written by one command (R196). -/
theorem completed_writeQ_writeK (s : State) (rd rc : Reg) (v : QReg) (k : Word) :
    Completed s (((s.writeQ rd v).writeK rc k).respond 0 0) (qWrites rd v ++ [(.k rc, k)]) s.sr 0 :=
  ⟨by simp [qWrites], by simp +contextual [qWrites], by simp, by simp, by simp⟩

section Endings
variable {i : Instr} {s : State}

/-- A read or a check in front of a command's end: if it faults, the command faults. -/
theorem CommandEnds.bind0 {α : Type} {m : Except CmdFault α} {k : α → Except CmdFault State}
    (h : ∀ a, CommandEnds i s (finish0 s (k a))) : CommandEnds i s (finish0 s (m >>= k)) := by
  cases m with
  | error x => exact .faults x
  | ok a => exact h a

/-- A phase check in front of a command's end: what follows runs in that phase. -/
theorem CommandEnds.inPhase {p : Phase} {k : Unit → Except CmdFault State}
    (h : s.sr.phase = p → CommandEnds i s (finish0 s (k ()))) :
    CommandEnds i s (finish0 s (requirePhase s p >>= k)) := by
  by_cases hp : s.sr.phase = p
  · rw [requirePhase_pass hp]; exact h hp
  · rw [requirePhase_fail hp]; exact .faults _

/-- A command that returns data and changes nothing. -/
theorem CommandEnds.returns (hz : isZiv i = false) (w : Word) :
    CommandEnds i s (finish s (.ok (s, w))) :=
  .completes (completed_none s w) (List.nil_subset _) (.kept hz)

/-- A move-from command: one guarded read, then its data returned. -/
theorem CommandEnds.moveFrom (hz : isZiv i = false) (m : Except CmdFault Word) :
    CommandEnds i s (finish s (m >>= fun v => pure (s, v))) := by
  cases m with
  | error x => exact .faults x
  | ok v => exact .returns hz v

/-- A command that wrote one F register, with the SR it leaves. -/
theorem CommandEnds.writeF_setSr {rd : Reg} (hd : destsOf i = [.f rd]) {sr : Status}
    (hsr : SrAfter s.sr i sr) (v : F64) :
    CommandEnds i s (finish0 s (.ok ((s.writeF rd v).setSr sr))) :=
  .completes (completed_writeF s rd v sr) (by simp [hd]) hsr

/-- A command that wrote nothing, with the SR it leaves. -/
theorem CommandEnds.setSr {sr : Status} (hsr : SrAfter s.sr i sr) :
    CommandEnds i s (finish0 s (.ok (s.setSr sr))) :=
  .completes (writes := []) (rdata := 0) ⟨by simp, by simp, rfl, rfl, rfl, rfl⟩ (List.nil_subset _) hsr

/-- A command that wrote one F register and kept SR. -/
theorem CommandEnds.writeF {rd : Reg} (hz : isZiv i = false) (hd : destsOf i = [.f rd]) (v : F64) :
    CommandEnds i s (finish0 s (.ok (s.writeF rd v))) :=
  .writeF_setSr hd (.kept hz) v

/-- A command that wrote one D register. -/
theorem CommandEnds.writeD {rd : Reg} (hz : isZiv i = false) (hd : destsOf i = [.dh rd, .dl rd])
    (v : DReg) : CommandEnds i s (finish0 s (.ok (s.writeD rd v))) :=
  .completes (completed_writeD s rd v s.sr) (by simp [hd]) (.kept hz)

/-- A command that wrote one Q register. -/
theorem CommandEnds.writeQ {rd : Reg} (hz : isZiv i = false) (hd : destsOf i = [.qh rd, .ql rd, .qe rd])
    (v : QReg) : CommandEnds i s (finish0 s (.ok (s.writeQ rd v))) :=
  .completes (completed_writeQ s rd v s.sr) (by simp [hd, qWrites]) (.kept hz)

/-- A command that wrote one K register. -/
theorem CommandEnds.writeK {rd : Reg} (hz : isZiv i = false) (hd : destsOf i = [.k rd]) (v : Word) :
    CommandEnds i s (finish0 s (.ok (s.writeK rd v))) :=
  .completes (completed_writeK s rd v s.sr) (by simp [hd]) (.kept hz)

/-- One component written by a command that keeps SR, whatever the write is. -/
theorem CommandEnds.writeOne {u : State} {c : Component} (hz : isZiv i = false)
    (hd : destsOf i = [c]) (w : Word)
    (hcomp : ∀ c', u.component c' = if c' = c then w else s.component c')
    (hval : ∀ c', u.valid c' = if c' = c then true else s.valid c')
    (hsr : u.sr = s.sr) (hout : u.output = s.output) (hp : u.input = s.input ∧ u.wdata = s.wdata) :
    CommandEnds i s (finish0 s (.ok u)) :=
  .completes (t := u.respond 0 0) (writes := [(c, w)]) (rdata := 0)
    ⟨by simp [hcomp, hval], by simp +contextual [hcomp, hval], hsr, by simp [hout], hp⟩
    (by simp [hd]) (.kept hz)

/-- A command of the double-double unit on two D registers. -/
theorem CommandEnds.ddBinary {rd : Reg} (hz : isZiv i = false) (hd : destsOf i = [.dh rd, .dl rd])
    (op : DReg → DReg → DReg) (ra rb : Reg) : CommandEnds i s (ddBinary op rd ra rb s) :=
  .bind0 fun _ => .bind0 fun _ => .writeD hz hd _

/-- A command of the double-double unit on one D register. -/
theorem CommandEnds.ddUnary {rd : Reg} (hz : isZiv i = false) (hd : destsOf i = [.dh rd, .dl rd])
    (op : DReg → DReg) (ra : Reg) : CommandEnds i s (ddUnary op rd ra s) :=
  .bind0 fun _ => .writeD hz hd _

/-- A command of the double-double unit on two F registers. -/
theorem CommandEnds.ddFromWords {rd : Reg} (hz : isZiv i = false) (hd : destsOf i = [.dh rd, .dl rd])
    (op : F64 → F64 → DReg) (ra rb : Reg) : CommandEnds i s (ddFromWords op rd ra rb s) :=
  .bind0 fun _ => .bind0 fun _ => .writeD hz hd _

/-- A command of the Dyadic128 unit on one Q register. -/
theorem CommandEnds.dyUnary {rd : Reg} (hz : isZiv i = false)
    (hd : destsOf i = [.qh rd, .ql rd, .qe rd]) (op : Dy → Except CmdFault Dy) (ra : Reg) :
    CommandEnds i s (dyUnary op rd ra s) :=
  .bind0 fun _ => .bind0 fun _ => .writeQ hz hd _

/-- A command of the Dyadic128 unit on two Q registers. -/
theorem CommandEnds.dyBinary {rd : Reg} (hz : isZiv i = false)
    (hd : destsOf i = [.qh rd, .ql rd, .qe rd]) (op : Dy → Dy → Except CmdFault Dy) (ra rb : Reg) :
    CommandEnds i s (dyBinary op rd ra rb s) :=
  .bind0 fun _ => .bind0 fun _ => .bind0 fun _ => .writeQ hz hd _

end Endings

/-- LDCD checks its pair index, not a source (R248). -/
theorem execLdcd_ends (rd : Reg) (imm8 : BitVec 8) (s : State) :
    CommandEnds (.ldcd rd imm8) s (execLdcd rd imm8 s) := by
  unfold execLdcd
  split
  · exact .writeD rfl rfl _
  · exact .faults _

/-- RR.SMALL refuses a quotient with no 64-bit integer (R193). -/
theorem execRrSmall_ends (rd ra rc : Reg) (s : State) :
    CommandEnds (.rrSmall rd ra rc) s (execRrSmall rd ra rc s) := by
  refine .bind0 fun x => ?_
  dsimp only
  split
  · exact .completes (completed_writeD_writeK s rd rc _ _) (by simp [destsOf]) (.kept rfl)
  · exact .faults _

/-- RR.LARGE refuses a NaN or an infinity (R195). -/
theorem execRrLarge_ends (rd ra rc : Reg) (s : State) :
    CommandEnds (.rrLarge rd ra rc) s (execRrLarge rd ra rc s) := by
  refine .bind0 fun x => ?_
  dsimp only
  split
  · exact .faults _
  · exact .completes (completed_writeD_writeK s rd rc _ _) (by simp [destsOf]) (.kept rfl)

/-- RR.LARGEQ refuses a NaN or an infinity (R196). -/
theorem execRrLargeq_ends (rd ra rc : Reg) (s : State) :
    CommandEnds (.rrLargeq rd ra rc) s (execRrLargeq rd ra rc s) := by
  refine .bind0 fun x => ?_
  dsimp only
  split
  · exact .faults _
  · exact .completes (completed_writeQ_writeK s rd rc _ _) (by simp [destsOf, qWrites]) (.kept rfl)

/-- ZIV.TEST writes its destination when it accepts and nothing when it rejects (R214). -/
theorem execZivTest_ends (rd ra rb : Reg) (s : State) :
    CommandEnds (.zivTest rd ra rb) s (execZivTest rd ra rb s) := by
  refine .inPhase fun hp => .bind0 fun x => .bind0 fun err => ?_
  dsimp only
  split
  · exact .writeF_setSr rfl (.accepted rd ra rb hp) _
  · exact .setSr (.rejected rd ra rb hp)

/-- What a command can do, for every command in every state (R27, R30, R262). -/
theorem exec_ends (i : Instr) (s : State) : CommandEnds i s (exec i s) := by
  cases i with
  | nop => exact .setSr (.kept rfl)
  | mtf rd => exact .writeF rfl rfl _
  | mtdh rd =>
    exact .writeOne rfl rfl _ (component_writeDHi s rd _) (valid_writeDHi s rd _) rfl rfl ⟨rfl, rfl⟩
  | mtdl rd =>
    exact .writeOne rfl rfl _ (component_writeDLo s rd _) (valid_writeDLo s rd _) rfl rfl ⟨rfl, rfl⟩
  | mtqh rd =>
    exact .writeOne rfl rfl _ (component_writeQHi s rd _) (valid_writeQHi s rd _) rfl rfl ⟨rfl, rfl⟩
  | mtql rd =>
    exact .writeOne rfl rfl _ (component_writeQLo s rd _) (valid_writeQLo s rd _) rfl rfl ⟨rfl, rfl⟩
  | mtqe rd =>
    exact .writeOne rfl rfl _ (component_writeQE s rd _ _) (valid_writeQE s rd _ _) rfl rfl ⟨rfl, rfl⟩
  | mtk rd => exact .writeK rfl rfl _
  | mff ra | mfdh ra | mfdl ra | mfqh ra | mfql ra | mfqe ra | mfk ra => exact .moveFrom rfl _
  | mfsr | mfcfg => exact .returns rfl _
  | ldc rd imm8 => exact .writeF rfl rfl _
  | ldcd rd imm8 => exact execLdcd_ends rd imm8 s
  | ddPack rd ra rb => exact .bind0 fun _ => .bind0 fun _ => .writeD rfl rfl _
  | ddHi rd ra | ddLo rd ra => exact .bind0 fun _ => .writeF rfl rfl _
  | ddXadd rd ra rb | ddXsub rd ra rb | ddFxadd rd ra rb | ddXmul rd ra rb =>
    exact .ddFromWords rfl rfl _ ra rb
  | ddAdd rd ra rb | ddSub rd ra rb | ddMul rd ra rb | ddQmul rd ra rb | ddDiv rd ra rb =>
    exact .ddBinary rfl rfl _ ra rb
  | ddMulf rd ra rb => exact .bind0 fun _ => .bind0 fun _ => .writeD rfl rfl _
  | ddSqrt rd ra | ddRecip rd ra => exact .ddUnary rfl rfl _ ra
  | dyFromf rd ra => exact .bind0 fun _ => .bind0 fun _ => .writeQ rfl rfl _
  | dyTof rd ra => exact .bind0 fun _ => .writeF_setSr rfl (.converted rd ra _) _
  | dyNorm rd ra => exact .dyUnary rfl rfl (fun a => normalize a.s a.e a.m) ra
  | dyRecip rd ra | dyRnd rd ra => exact .dyUnary rfl rfl _ ra
  | dyAdd rd ra rb | dyMul rd ra rb | dyDiv rd ra rb => exact .dyBinary rfl rfl _ ra rb
  | dyNeg rd ra => exact .bind0 fun _ => .writeQ rfl rfl _
  | dyRecipf rd ra => exact .bind0 fun _ => .bind0 fun _ => .bind0 fun _ => .writeQ rfl rfl _
  | rrSmall rd ra rc => exact execRrSmall_ends rd ra rc s
  | rrLarge rd ra rc => exact execRrLarge_ends rd ra rc s
  | rrLargeq rd ra rc => exact execRrLargeq_ends rd ra rc s
  | rrIdx rd ra imm8 => exact .bind0 fun _ => .writeK rfl rfl _
  | zivBegin => exact .setSr .begun
  | zivBound rd ra rb rc =>
    exact .inPhase fun hp => .bind0 fun _ => .bind0 fun _ => .bind0 fun _ =>
      .writeF_setSr rfl (.bounded rd ra rb rc hp) _
  | zivTest rd ra rb => exact execZivTest_ends rd ra rb s
  | zivFallback rd ra =>
    exact .inPhase fun hp => .bind0 fun _ => .writeF_setSr rfl (.returned rd ra _ hp) _

/-! ### What a step and a run can do (R7, R33) -/

/-- All a step can do: wait unchanged when the host has sent nothing, or take the next transaction and end
it as the command its word decodes to does, or raise Illegal on a word that is no command. -/
theorem step_cases {s t : State} (h : step s = .next t) :
    (s.takeTransaction = none ∧ t = s) ∨
    ∃ cmd u, s.takeTransaction = some (cmd, u) ∧
      ((∃ i, decode cmd = .ok i ∧ CommandEnds i u (.next t)) ∨
        ∃ e, decode cmd = .error e ∧ t = u.raise .illegal) := by
  unfold step at h
  split at h
  next hn => cases h; exact .inl ⟨hn, rfl⟩
  next cmd u hu =>
    refine .inr ⟨cmd, u, hu, ?_⟩
    split at h
    next i hi => exact .inl ⟨i, hi, h ▸ exec_ends i u⟩
    next e he => cases h; exact .inr ⟨e, he, rfl⟩

/-- Taking a transaction changes the host's side only. -/
theorem takeTransaction_keeps {s u : State} {cmd : Cmd} (h : s.takeTransaction = some (cmd, u)) :
    u.sr = s.sr ∧ u.output = s.output := by
  unfold State.takeTransaction at h
  split at h
  · cases h
  · cases h; exact ⟨rfl, rfl⟩

/-- What every step of a machine relates, its runs relate, when the relation is reflexive and
transitive. -/
theorem run_of_step (M : Host.Core) {R : M.State → M.State → Prop} (refl : ∀ s, R s s)
    (trans : ∀ {s u t}, R s u → R u t → R s t) (hstep : ∀ {s t}, M.step s = .next t → R s t)
    (n : Nat) (s t : M.State) (h : M.run n s = .next t) : R s t := by
  induction n generalizing s with
  | zero => cases h; exact refl _
  | succ n ih =>
    rw [Host.Core.run] at h
    split at h
    next u hu => exact trans (hstep hu) (ih u h)
    all_goals cases h

/-! ### The sticky bits of SR (R33) -/

/-- A completing command leaves the five fault bits as they are. -/
theorem SrAfter.faultBits {sr sr' : Status} {i : Instr} (h : SrAfter sr i sr') :
    sr'.ill = sr.ill ∧ sr'.seq = sr.seq ∧ sr'.uninit = sr.uninit ∧ sr'.dom = sr.dom ∧
      sr'.expr = sr.expr := by
  cases h <;> exact ⟨rfl, rfl, rfl, rfl, rfl⟩

/-- A completing command never clears OF. -/
theorem SrAfter.ovf {sr sr' : Status} {i : Instr} (h : SrAfter sr i sr') (ho : sr.ovf = true) :
    sr'.ovf = true := by
  cases h <;> simp [Status.noteOverflow, Status.beginCall, Status.bounded, Status.testing,
    Status.accepted, Status.rejected, Status.returned, ho]

/-- Every bit of 8 to 13 that is 1 in `sr` is 1 in `sr'`: the order R33 keeps SR ascending in. -/
def StickyLe (sr sr' : Status) : Prop :=
  ∀ n, 8 ≤ n → n ≤ 13 → sr.toWord.getLsbD n = true → sr'.toWord.getLsbD n = true

/-- A completing command clears no sticky bit. -/
theorem SrAfter.stickyLe {sr sr' : Status} {i : Instr} (h : SrAfter sr i sr') : StickyLe sr sr' := by
  obtain ⟨hill, hseq, huninit, hdom, hexpr⟩ := h.faultBits
  intro n h8 h13
  rw [toWord_getLsbD, toWord_getLsbD, hill, hseq, huninit, hdom, hexpr]
  rcases h8.eq_or_lt with rfl | h9
  · exact h.ovf
  · interval_cases n <;> exact id

/-- Raising a fault clears no bit. -/
theorem stickyLe_record (sr : Status) (x : CmdFault) : StickyLe sr (sr.record x) := by
  intro n _ _ hn
  rw [record_toWord, BitVec.getLsbD_or, hn, Bool.true_or]

/-- SR[13:9] = 0, bit by bit. -/
theorem faultFree_iff (s : State) :
    faultFree s ↔ ∀ n, 9 ≤ n → n ≤ 13 → s.sr.toWord.getLsbD n = false := by
  constructor
  · intro h n h9 h13
    have bit := congrArg (·.getLsbD (n - 9)) h
    rw [BitVec.getLsbD_extractLsb', Nat.add_sub_cancel' h9] at bit
    simpa [show n - 9 < 5 by omega] using bit
  · intro h
    apply BitVec.eq_of_getLsbD_eq
    intro m hm
    rw [BitVec.getLsbD_extractLsb', h (9 + m) (by omega) (by omega)]
    simp

/-- Raising a fault sets a bit of 13:9. -/
theorem not_faultFree_raise (s : State) (x : CmdFault) : ¬ faultFree (s.raise x) := by
  intro h
  have hcode : 1 ≤ x.code.toNat ∧ x.code.toNat ≤ 5 := by cases x <;> decide
  have hbit := (faultFree_iff _).mp h (8 + x.code.toNat) (by omega) (by omega)
  rw [State.raise_sr, record_toWord, BitVec.getLsbD_or, BitVec.getLsbD_shiftLeft] at hbit
  simp at hbit
  omega

/-- A machine that is fault-free now was fault-free before, when no sticky bit was cleared. -/
theorem StickyLe.faultFree {s t : State} (h : StickyLe s.sr t.sr) (ht : faultFree t) : faultFree s := by
  rw [faultFree_iff] at *
  intro n h9 h13
  by_contra hn
  have := h n (by omega) h13 (by simpa using hn)
  rw [ht n h9 h13] at this
  cases this

/-- From `s` to `t` sticky bits stay set, and if `t` is fault-free then every response in between has
STATUS 0 (R33). -/
structure FaultsAreRecorded (s t : State) : Prop where
  sticky : StickyLe s.sr t.sr
  responses : faultFree t → ∃ rs : List Response, t.output = s.output ++ rs ∧ ∀ r ∈ rs, r.status = 0

theorem FaultsAreRecorded.refl (s : State) : FaultsAreRecorded s s :=
  ⟨fun _ _ _ hn => hn, fun _ => ⟨[], by simp⟩⟩

theorem FaultsAreRecorded.trans {s u t : State} (h : FaultsAreRecorded s u)
    (h' : FaultsAreRecorded u t) : FaultsAreRecorded s t where
  sticky n h8 h13 hn := h'.sticky n h8 h13 (h.sticky n h8 h13 hn)
  responses ht := by
    obtain ⟨rs, hrs, h0⟩ := h.responses (h'.sticky.faultFree ht)
    obtain ⟨rs', hrs', h0'⟩ := h'.responses ht
    refine ⟨rs ++ rs', by rw [hrs', hrs, List.append_assoc], fun r hr => ?_⟩
    exact (List.mem_append.mp hr).elim (h0 r) (h0' r)

/-- A fault is recorded: the bit it sets is one of SR[13:9]. -/
theorem FaultsAreRecorded.raise (s : State) (x : CmdFault) : FaultsAreRecorded s (s.raise x) :=
  ⟨stickyLe_record s.sr x, fun h => absurd h (not_faultFree_raise s x)⟩

/-- However a command ends, a fault of it is recorded. -/
theorem CommandEnds.faultsAreRecorded {i : Instr} {s t : State} (h : CommandEnds i s (.next t)) :
    FaultsAreRecorded s t := by
  cases h with
  | completes hc _ hsr =>
    exact ⟨hc.status ▸ hsr.stickyLe, fun _ => ⟨_, hc.response, by simp⟩⟩
  | faults x => exact .raise s x

/-- A fault of one step is recorded. -/
theorem step_faultsAreRecorded {s t : State} (h : step s = .next t) : FaultsAreRecorded s t := by
  rcases step_cases h with ⟨-, rfl⟩ | ⟨cmd, u, hu, hend⟩
  · exact .refl _
  · obtain ⟨hsr, hout⟩ := takeTransaction_keeps hu
    have hut : FaultsAreRecorded u t := by
      rcases hend with ⟨i, -, hi⟩ | ⟨-, -, rfl⟩
      · exact hi.faultsAreRecorded
      · exact .raise u _
    exact ⟨hsr ▸ hut.sticky, hout ▸ hut.responses⟩

/-- The bits R30 names "(none)" are 0. -/
theorem toWord_unnamed (sr : Status) (n : Nat) (h : (5 ≤ n ∧ n ≤ 7) ∨ 14 ≤ n) :
    sr.toWord.getLsbD n = false := by
  rw [toWord_getLsbD]
  rcases h with ⟨h5, h7⟩ | h14
  · interval_cases n <;> rfl
  · repeat rw [if_neg (by omega)]

/-- Settles O12: sticky bits stay set over a step because a completion keeps them and a fault only adds one;
a run keeps that step by step, so a fault anywhere in it would show at its end. -/
theorem stickyBitsStaySet : Obligations.StickyBitsStaySet :=
  ⟨fun _ _ n h => (step_faultsAreRecorded h).sticky n,
    fun n s t h => (run_of_step Sys2Proof.core .refl .trans step_faultsAreRecorded n s t h).responses,
    toWord_unnamed⟩

end Sys2Proof.Machine

/-! The decoder as the mask and match table: a word is read as the command whose encoding it is, and as no
other (spec/30_encoding.md R65, R66, R70, R72, R73, R75). -/

namespace Sys2Proof

/-! ### The word a format reads (R65, R66) -/

/-- The word with opcode `op` whose fields of format `f` are those of `w` and whose other bits are zero. -/
def Format.wordOf (f : Format) (op : BitVec 8) (w : Cmd) : Cmd :=
  match f with
  | .z => commandWord op 0 0 0 0 0
  | .d => commandWord op (rdOf w) 0 0 0 0
  | .a => commandWord op 0 (raOf w) 0 0 0
  | .di | .diPair => commandWord op (rdOf w) 0 0 0 (immOf w)
  | .r2 => commandWord op (rdOf w) (raOf w) 0 0 0
  | .r3 => commandWord op (rdOf w) (raOf w) (rbOf w) 0 0
  | .r4 => commandWord op (rdOf w) (raOf w) (rbOf w) (rcOf w) 0
  | .rk => commandWord op (rdOf w) (raOf w) 0 (rcOf w) 0
  | .ri => commandWord op (rdOf w) (raOf w) 0 0 (immOf w)

/-- A word whose masked bits are an opcode over zeros is that opcode and its format's fields. -/
theorem wordOf_eq_of_masked {w : Cmd} {f : Format} {op : BitVec 8}
    (h : w &&& f.mask = commandWord op 0 0 0 0 0) : f.wordOf op w = w := by
  rw [← commandWord_fields w, mask_fields] at h
  conv_rhs => rw [← commandWord_fields w]
  cases f <;>
    simp only [and_commandWord, commandWord_inj, reg_and_ones, byte_and_ones] at h <;>
    simp [Format.wordOf, h]

/-- A word that LDCD's mask lets through has a pair index below 128 (R75). -/
theorem immOf_lt_of_masked_diPair {w : Cmd} {op : BitVec 8}
    (h : w &&& Format.diPair.mask = commandWord op 0 0 0 0 0) : (immOf w).toNat < 128 := by
  rw [← commandWord_fields w, mask_fields] at h
  simp only [and_commandWord, commandWord_inj] at h
  obtain ⟨-, -, -, -, -, himm⟩ := h
  exact (pair_index_iff _).mpr himm

/-! ### The encoder against the table (R70, R72) -/

/-- A command's word, masked, is its match word. -/
theorem encode_and_mask : ∀ i : Instr, i.wellFormed = true → encode i &&& i.format.mask = i.matchWord :=
  open Laws.EncodedMask in fun
  | .nop => nop
  | .mtf rd => mtf rd
  | .mff ra => mff ra
  | .mtdh rd => mtdh rd
  | .mtdl rd => mtdl rd
  | .mfdh ra => mfdh ra
  | .mfdl ra => mfdl ra
  | .mtqh rd => mtqh rd
  | .mtql rd => mtql rd
  | .mtqe rd => mtqe rd
  | .mfqh ra => mfqh ra
  | .mfql ra => mfql ra
  | .mfqe ra => mfqe ra
  | .mtk rd => mtk rd
  | .mfk ra => mfk ra
  | .mfsr => mfsr
  | .mfcfg => mfcfg
  | .ldc rd imm8 => ldc rd imm8
  | .ldcd rd imm8 => ldcd rd imm8
  | .ddPack rd ra rb => ddPack rd ra rb
  | .ddHi rd ra => ddHi rd ra
  | .ddLo rd ra => ddLo rd ra
  | .ddXadd rd ra rb => ddXadd rd ra rb
  | .ddXsub rd ra rb => ddXsub rd ra rb
  | .ddFxadd rd ra rb => ddFxadd rd ra rb
  | .ddXmul rd ra rb => ddXmul rd ra rb
  | .ddAdd rd ra rb => ddAdd rd ra rb
  | .ddSub rd ra rb => ddSub rd ra rb
  | .ddMul rd ra rb => ddMul rd ra rb
  | .ddQmul rd ra rb => ddQmul rd ra rb
  | .ddMulf rd ra rb => ddMulf rd ra rb
  | .ddDiv rd ra rb => ddDiv rd ra rb
  | .ddSqrt rd ra => ddSqrt rd ra
  | .ddRecip rd ra => ddRecip rd ra
  | .dyFromf rd ra => dyFromf rd ra
  | .dyTof rd ra => dyTof rd ra
  | .dyNorm rd ra => dyNorm rd ra
  | .dyAdd rd ra rb => dyAdd rd ra rb
  | .dyMul rd ra rb => dyMul rd ra rb
  | .dyNeg rd ra => dyNeg rd ra
  | .dyRecip rd ra => dyRecip rd ra
  | .dyRecipf rd ra => dyRecipf rd ra
  | .dyDiv rd ra rb => dyDiv rd ra rb
  | .dyRnd rd ra => dyRnd rd ra
  | .rrSmall rd ra rc => rrSmall rd ra rc
  | .rrLarge rd ra rc => rrLarge rd ra rc
  | .rrLargeq rd ra rc => rrLargeq rd ra rc
  | .rrIdx rd ra imm8 => rrIdx rd ra imm8
  | .zivBegin => zivBegin
  | .zivBound rd ra rb rc => zivBound rd ra rb rc
  | .zivTest rd ra rb => zivTest rd ra rb
  | .zivFallback rd ra => zivFallback rd ra

/-- A command's word carries its opcode. -/
theorem opOf_encode (i : Instr) : opOf (encode i) = i.opcode := by
  cases i <;> exact opOf_commandWord _ _ _ _ _ _

/-! ### The decoder against the encoder (R72, R73) -/

/-- A row's verdict is its command exactly on the words its mask lets through. -/
theorem legal_eq_ok_iff {w m : Cmd} {f : Format} {i j : Instr} :
    legal w f m j = .ok i ↔ w &&& f.mask = m ∧ j = i := by
  unfold legal
  split <;> simp [*]

/-- The row of a well-formed command accepts the word of that command, and reads the command from it. -/
theorem legal_encode {i j : Instr} {f : Format} {m : Cmd} (hi : i.wellFormed = true)
    (hf : i.format = f) (hm : i.matchWord = m) (hj : j = i) : legal (encode i) f m j = .ok i := by
  subst hf hm
  exact legal_eq_ok_iff.mpr ⟨encode_and_mask i hi, hj⟩

/-- Every well-formed command is what its word decodes to. -/
theorem decode_encode (i : Instr) (hi : i.wellFormed = true) : decode (encode i) = .ok i := by
  rw [decode, opOf_encode]
  cases i <;> exact legal_encode hi rfl (by rw [Instr.matchWord, Instr.opcode]; rfl) (by simp [encode])

/-- `w` is the word of the well-formed command `i`. -/
def IsWordOf (w : Cmd) (i : Instr) : Prop := i.wellFormed = true ∧ encode i = w

/-- A row whose command `j` takes its fields from `w` accepts only words of `j`. -/
theorem isWordOf_of_legal {w m : Cmd} {f : Format} {op : BitVec 8} {i j : Instr}
    (h : legal w f m j = .ok i) (he : encode j = f.wordOf op w) (hm : m = commandWord op 0 0 0 0 0)
    (hj : w &&& f.mask = m → j.wellFormed = true) : IsWordOf w i := by
  obtain ⟨hmask, rfl⟩ := legal_eq_ok_iff.mp h
  exact ⟨hj hmask, he.trans (wordOf_eq_of_masked (hmask.trans hm))⟩

/-- A word decodes only to a command it is the word of; LDCD's row is the one that also checks its operand. -/
theorem isWordOf_of_decode {w : Cmd} {i : Instr} (h : decode w = .ok i) : IsWordOf w i := by
  unfold decode at h
  split at h
  case h_53 => cases h
  case h_19 =>
    exact isWordOf_of_legal h rfl (by decide) fun hmask =>
      decide_eq_true (immOf_lt_of_masked_diPair (op := 0x12) (hmask.trans (by decide)))
  all_goals exact isWordOf_of_legal h rfl (by decide) fun _ => rfl

/-- A word decodes to a command exactly when it is the word of it. -/
theorem decode_eq_ok_iff {w : Cmd} {i : Instr} : decode w = .ok i ↔ IsWordOf w i :=
  ⟨isWordOf_of_decode, by rintro ⟨hi, rfl⟩; exact decode_encode i hi⟩

/-- A word is its masked bits and its other bits. -/
theorem or_of_and_and_not (w m : Cmd) : w &&& m ||| w &&& ~~~m = w := by
  ext n hn
  simp [← Bool.and_or_distrib_left]

/-- A word is the word of a command exactly when the table row of the command says so: its opcode, its
masked bits and its fields are the command's. -/
theorem isWordOf_iff_table {w : Cmd} {i : Instr} :
    IsWordOf w i ↔ i.wellFormed = true ∧ opOf w = i.opcode ∧ w &&& i.format.mask = i.matchWord ∧
      encode i &&& ~~~i.format.mask = w &&& ~~~i.format.mask := by
  constructor
  · rintro ⟨hi, rfl⟩
    exact ⟨hi, opOf_encode i, encode_and_mask i hi, rfl⟩
  · rintro ⟨hi, -, hmask, hfields⟩
    have hmasked : encode i &&& i.format.mask = w &&& i.format.mask := (encode_and_mask i hi).trans hmask.symm
    refine ⟨hi, ?_⟩
    calc encode i
        = encode i &&& i.format.mask ||| encode i &&& ~~~i.format.mask := (or_of_and_and_not _ _).symm
      _ = w &&& i.format.mask ||| w &&& ~~~i.format.mask := by rw [hmasked, hfields]
      _ = w := or_of_and_and_not _ _

/-- The command an opcode's match word stands for, every operand zero, has the mnemonic of every command of
that opcode (R70). -/
theorem decode_matchWord (i : Instr) :
    ∃ j, decode i.matchWord = .ok j ∧ Machine.mnemonicOf j = Machine.mnemonicOf i := by
  rw [Instr.matchWord]
  cases i <;> rw [Instr.opcode] <;> exact ⟨_, rfl, rfl⟩

/-- Two commands of one opcode have one mnemonic (R72). -/
theorem mnemonicOf_eq_of_opcode_eq {i j : Instr} (h : i.opcode = j.opcode) :
    Machine.mnemonicOf i = Machine.mnemonicOf j := by
  obtain ⟨i', hi, hi'⟩ := decode_matchWord i
  obtain ⟨j', hj, hj'⟩ := decode_matchWord j
  rw [Instr.matchWord, h, ← Instr.matchWord, hj] at hi
  rw [← hi', ← Except.ok.inj hi, hj']

end Sys2Proof

namespace Sys2Proof.Machine

/-- A step on a word that is no command raises Illegal and nothing else (R263). -/
theorem step_of_not_command {s : State} {w : Cmd} {d : Word} {rest : List Transaction}
    (hin : s.input = ⟨w, d⟩ :: rest) (hw : ∀ i, decode w ≠ .ok i) :
    step s = .next (State.raise { s with input := rest, wdata := d } .illegal) := by
  unfold step
  rw [takeTransaction_cons hin]
  cases hdec : decode w with
  | ok i => exact absurd hdec (hw i)
  | error e => simp only [hdec]

/-- Settles O3: a word decodes to a command exactly when it is the command's encoding, which the masked bits
and the fields pin together; on any other word the step takes the Illegal branch. -/
theorem decodingIsTheMaskAndMatchTable : Obligations.DecodingIsTheMaskAndMatchTable :=
  ⟨fun _ _ => decode_eq_ok_iff.trans isWordOf_iff_table,
    fun _ _ _ _ hin hw => ⟨_, step_of_not_command hin hw, faulted_raise _ _⟩,
    fun _ _ => mnemonicOf_eq_of_opcode_eq⟩

end Sys2Proof.Machine

/-! What RN64 computes (spec/40_f64_datapath.md R93): the model rounds a ratio of two integers, or the root of
one, and both are one function `roundOn` of the exact value on the grid of R93, over the rationals or the reals. -/

namespace Sys2Proof.Machine

/-! ### Packing a rounded magnitude (R90, R93) -/

/-- A word that is no NaN is finite exactly when it is no infinity. -/
theorem isInf_eq_false_iff {w : F64} (h : isNan w = false) : isInf w = false ↔ isFinite w = true := by
  rcases class_cases w with h' | h' | h' <;> simp_all

/-- The magnitude of a word is its scaled integer over 2^1074. -/
theorem abs_fval (w : F64) : |fval w| = (scaledMag w : ℚ) * (2 : ℚ) ^ (-1074 : ℤ) := by
  have hp : (0 : ℚ) < (2 : ℚ) ^ (-1074 : ℤ) := by positivity
  rw [fval_eq_scaledVal, abs_mul, abs_of_pos hp, scaledVal]
  cases fsign w <;> simp

/-- Counting `n` steps of the grid from zero: the fields of the word hold the magnitude `n · 2^k`, in the
subnormals, in a binade, and at the carry into the next one. -/
theorem scaledMag_packWord {s : Bool} {k n : ℕ} (hn : n ≤ 2 ^ 53) (hk : 2 ^ 52 ≤ n ∨ k = 0)
    (hb : k * 2 ^ 52 + n < 2 ^ 63) : scaledMag (packWord s (k * 2 ^ 52 + n)) = n * 2 ^ k := by
  rw [scaledMag_eq, fexp_packWord s _ hb, ffrac_packWord s _ hb]
  rcases lt_trichotomy n (2 ^ 53) with h | h | h
  · rcases Nat.lt_or_ge n (2 ^ 52) with h' | h'
    · obtain rfl : k = 0 := by omega
      rw [if_pos (by omega)]
      omega
    · have he : (k * 2 ^ 52 + n) / 2 ^ 52 = k + 1 := by omega
      have hf : 2 ^ 52 + (k * 2 ^ 52 + n) % 2 ^ 52 = n := by omega
      rw [he, if_neg (by omega), hf, Nat.add_sub_cancel]
  · have he : (k * 2 ^ 52 + n) / 2 ^ 52 = k + 2 := by omega
    have hf : 2 ^ 52 + (k * 2 ^ 52 + n) % 2 ^ 52 = 2 ^ 52 := by omega
    rw [he, if_neg (by omega), hf, h, show k + 2 - 1 = 1 + k by omega, pow_add,
      ← mul_assoc, ← pow_add]
  · omega

/-- The word `packRounded` gives: an infinity from `2^1024` on, else the word of the magnitude. -/
theorem packRounded_cases (s : Bool) {e : ℤ} {n : ℕ} (he : -1022 ≤ e) (hn : n ≤ 2 ^ 53)
    (hg : 2 ^ 52 ≤ n ∨ e = -1022) :
    ((1024 ≤ e ∨ e = 1023 ∧ n = 2 ^ 53) ∧ packRounded s e n = infOf s) ∨
    (¬ (1024 ≤ e ∨ e = 1023 ∧ n = 2 ^ 53) ∧ isFinite (packRounded s e n) = true ∧
      fsign (packRounded s e n) = s ∧ scaledMag (packRounded s e n) = n * 2 ^ (e + 1022).toNat) := by
  have hb : 2047 * 2 ^ 52 ≤ (e + 1022).toNat * 2 ^ 52 + n ↔ 1024 ≤ e ∨ e = 1023 ∧ n = 2 ^ 53 := by omega
  simp only [packRounded, Nat.shiftLeft_eq]
  split
  · next h => exact .inl ⟨hb.mp h, rfl⟩
  · next h =>
    refine .inr ⟨fun h' => h (hb.mpr h'), ?_, fsign_packWord _ _, scaledMag_packWord hn (by omega) (by omega)⟩
    rw [isFinite, fexp_packWord s _ (by omega), bne_iff_ne]
    omega

/-! ### The nearest integer, and the grid (R93) -/

section Grid
variable {K : Type*} [Field K] [LinearOrder K] [IsStrictOrderedRing K] [FloorSemiring K]

/-- The integer that `roundHalfEven` chooses for `x`. -/
def nearestEven (x : K) : ℕ := roundHalfEven ⌊x⌋₊ (compare (2 * x) (2 * ⌊x⌋₊ + 1))

/-- `nearestEven` is the nearest integer, the even one at a tie. -/
theorem nearestEven_spec {x : K} (hx : 0 ≤ x) :
    |x - nearestEven x| ≤ 1 / 2 ∧ (|x - nearestEven x| = 1 / 2 → Even (nearestEven x)) := by
  have lo := Nat.floor_le hx
  have hi := Nat.lt_floor_add_one x
  unfold nearestEven
  rcases lt_trichotomy (2 * x) (2 * ⌊x⌋₊ + 1) with h | h | h
  · rw [compare_lt_iff_lt.mpr h, roundHalfEven, abs_of_nonneg (by linarith)]
    exact ⟨by linarith, fun h' => by linarith⟩
  · rw [compare_eq_iff_eq.mpr h, roundHalfEven]
    split
    · next he =>
      rw [abs_of_nonneg (by linarith)]
      exact ⟨by linarith, fun _ => Nat.even_iff.mpr he⟩
    · next ho =>
      push_cast
      rw [abs_of_nonpos (by linarith)]
      exact ⟨by linarith, fun _ => by rw [Nat.even_iff]; omega⟩
  · rw [compare_gt_iff_gt.mpr h, roundHalfEven]
    push_cast
    rw [abs_of_nonpos (by linarith)]
    exact ⟨by linarith, fun h' => by linarith⟩

/-- An even number is reached from one half below it on: its predecessor is odd, so the tie goes up. -/
theorem le_nearestEven_iff {x : K} (hx : 0 ≤ x) {m : ℕ} (hm : Even m) :
    m ≤ nearestEven x ↔ (m : K) - 1 / 2 ≤ x := by
  obtain ⟨near, tie⟩ := nearestEven_spec hx
  obtain ⟨below, above⟩ := abs_le.mp near
  constructor
  · intro h
    have : (m : K) ≤ nearestEven x := by exact_mod_cast h
    linarith
  · intro h
    by_contra! hlt
    have hle : (nearestEven x : K) + 1 ≤ m := by exact_mod_cast hlt
    have heven := tie (by rw [abs_of_nonneg (by linarith)]; linarith)
    have hsucc : nearestEven x + 1 = m := by
      have : (m : K) ≤ nearestEven x + 1 := by linarith
      exact le_antisymm hlt (by exact_mod_cast this)
    exact Nat.not_even_iff_odd.mpr heven.add_one (hsucc ▸ hm)

/-- What is below one half above `m` does not round past `m`. -/
theorem nearestEven_le {x : K} (hx : 0 ≤ x) {m : ℕ} (h : x < m + 1 / 2) : nearestEven x ≤ m := by
  obtain ⟨below, -⟩ := abs_le.mp (nearestEven_spec hx).1
  have : (nearestEven x : K) < m + 1 := by linarith
  exact Nat.lt_succ_iff.mp (by exact_mod_cast this)

/-- An integer is its own nearest integer. -/
@[simp] theorem nearestEven_natCast (m : ℕ) : nearestEven (m : K) = m := by
  rw [nearestEven, Nat.floor_natCast, compare_lt_iff_lt.mpr (lt_add_one _), roundHalfEven]

/-- The exponent of the grid for `y`: `e = max(floor(log2 y), -1022)`. -/
def gridOf (y : K) : ℤ := gridExp (Int.log 2 y)

/-- `y` in steps of its grid, `2^(e - 52)`. -/
def inSteps (y : K) : K := y / (2 : K) ^ (gridOf y - 52)

/-- RN64 of the positive `y` with sign `s`, on exact values. -/
def roundOn (s : Bool) (y : K) : F64 := packRounded s (gridOf y) (nearestEven (inSteps y))

/-- R93 of the word `r`: the infinity from the overflow threshold on, below it the nearest multiple of the
step, the even one at a tie. -/
structure RoundsTo (s : Bool) (y : K) (r : F64) : Prop where
  notNan : isNan r = false
  sign : fsign r = s
  overflow : isInf r = true ↔ ((2 : K) ^ 54 - 1) * (2 : K) ^ 970 ≤ y
  value : y < ((2 : K) ^ 54 - 1) * (2 : K) ^ 970 →
    ∃ n : ℕ, ((|fval r| : ℚ) : K) = n * (2 : K) ^ (gridOf y - 52) ∧ |inSteps y - n| ≤ 1 / 2 ∧
      (|inSteps y - n| = 1 / 2 → Even n)

omit [IsStrictOrderedRing K] in
/-- The grid is never finer than the subnormals' (gradual underflow). -/
theorem neg1022_le_gridOf (y : K) : -1022 ≤ gridOf y := le_max_right _ _

/-- `y` is below the end of the binade of its grid. -/
theorem inSteps_lt {y : K} (hy : 0 < y) : inSteps y < 2 ^ 53 := by
  have hlog : y < (2 : K) ^ (gridOf y + 1) := by
    have h := (Int.lt_zpow_iff_log_lt (b := 2) one_lt_two hy (x := gridOf y + 1)).mpr
      (Int.lt_add_one_of_le (le_max_left _ _))
    exact_mod_cast h
  rw [inSteps, div_lt_iff₀ (by positivity), ← zpow_natCast, ← zpow_add₀ two_ne_zero]
  convert hlog using 2
  push_cast
  ring

/-- Above the subnormals `y` is from the start of the binade of its grid on. -/
theorem le_inSteps {y : K} (hy : 0 < y) (he : gridOf y ≠ -1022) : 2 ^ 52 ≤ inSteps y := by
  have hlog : (2 : K) ^ (gridOf y) ≤ y := by
    have hg : gridOf y = Int.log 2 y := max_eq_left (by have := he; unfold gridOf gridExp at this; omega)
    rw [hg]
    exact_mod_cast Int.zpow_log_le_self (b := 2) one_lt_two hy
  rw [inSteps, le_div_iff₀ (by positivity), ← zpow_natCast, ← zpow_add₀ two_ne_zero]
  convert hlog using 2
  push_cast
  ring

/-- A positive value is a positive number of steps. -/
theorem inSteps_pos {y : K} (hy : 0 < y) : 0 < inSteps y := by
  unfold inSteps
  positivity

/-- A rounded magnitude has at most one step more than the 53 bits of the grid. -/
theorem nearestEven_inSteps_le {y : K} (hy : 0 < y) : nearestEven (inSteps y) ≤ 2 ^ 53 := by
  refine nearestEven_le (inSteps_pos hy).le ?_
  have := inSteps_lt hy
  push_cast
  linarith

/-- Above the subnormals a rounded magnitude has all 53 bits. -/
theorem le_nearestEven_inSteps {y : K} (hy : 0 < y) :
    2 ^ 52 ≤ nearestEven (inSteps y) ∨ gridOf y = -1022 := by
  refine or_iff_not_imp_right.mpr fun he => ?_
  rw [le_nearestEven_iff (inSteps_pos hy).le (by decide)]
  have := le_inSteps hy he
  push_cast
  linarith

/-- Steps of the grid, back to the value. -/
theorem inSteps_mul (y : K) : inSteps y * (2 : K) ^ (gridOf y - 52) = y :=
  div_mul_cancel₀ _ (by positivity)

/-- Below the last binade a value is below the overflow threshold. -/
theorem lt_threshold_of_gridOf_lt {y : K} (hy : 0 < y) (h : gridOf y < 1023) :
    y < ((2 : K) ^ 54 - 1) * (2 : K) ^ 970 := by
  have hstep : (2 : K) ^ (gridOf y - 52) ≤ 2 ^ 970 := by
    rw [← zpow_natCast]
    exact zpow_le_zpow_right₀ one_le_two (by push_cast; omega)
  calc y = inSteps y * (2 : K) ^ (gridOf y - 52) := (inSteps_mul y).symm
    _ < 2 ^ 53 * (2 : K) ^ (gridOf y - 52) := mul_lt_mul_of_pos_right (inSteps_lt hy) (by positivity)
    _ ≤ 2 ^ 53 * 2 ^ 970 := by gcongr
    _ ≤ (2 ^ 54 - 1) * 2 ^ 970 := by gcongr; norm_num

/-- In the last binade the threshold is half a step below `2^53` steps, where the tie goes to the even
infinity. -/
theorem threshold_le_iff_of_gridOf_eq {y : K} (hy : 0 < y) (h : gridOf y = 1023) :
    ((2 : K) ^ 54 - 1) * (2 : K) ^ 970 ≤ y ↔ nearestEven (inSteps y) = 2 ^ 53 := by
  have hsteps := inSteps_mul y
  have hstep : (2 : K) ^ (gridOf y - 52) = 2 * 2 ^ 970 := by
    rw [h, ← pow_succ', ← zpow_natCast]
    norm_num
  rw [hstep, ← mul_assoc] at hsteps
  calc ((2 : K) ^ 54 - 1) * (2 : K) ^ 970 ≤ y
      ↔ (2 : K) ^ 54 - 1 ≤ inSteps y * 2 := by
        conv_lhs => rw [← hsteps]
        exact mul_le_mul_iff_left₀ (by positivity)
    _ ↔ ((2 ^ 53 : ℕ) : K) - 1 / 2 ≤ inSteps y := by
        push_cast
        constructor <;> intro h' <;> linarith
    _ ↔ 2 ^ 53 ≤ nearestEven (inSteps y) := (le_nearestEven_iff (inSteps_pos hy).le (by decide)).symm
    _ ↔ nearestEven (inSteps y) = 2 ^ 53 := (nearestEven_inSteps_le hy).ge_iff_eq

/-- Above the last binade a value is past the overflow threshold. -/
theorem threshold_le_of_lt_gridOf {y : K} (hy : 0 < y) (h : 1023 < gridOf y) :
    ((2 : K) ^ 54 - 1) * (2 : K) ^ 970 ≤ y := by
  have hlog : 1024 ≤ Int.log 2 y := by
    unfold gridOf gridExp at h
    omega
  calc ((2 : K) ^ 54 - 1) * 2 ^ 970 ≤ 2 ^ 54 * 2 ^ 970 := by gcongr; linarith
    _ = ((2 : ℕ) : K) ^ (1024 : ℤ) := by rw [← pow_add, ← zpow_natCast]; norm_num
    _ ≤ y := (Int.zpow_le_iff_le_log one_lt_two hy).mpr hlog

/-- The overflow test of `packRounded` on the exact value: it is `(2^54 - 1)·2^970`, half a step below
`2^1024` (R93). -/
theorem overflows_iff {y : K} (hy : 0 < y) :
    (1024 ≤ gridOf y ∨ gridOf y = 1023 ∧ nearestEven (inSteps y) = 2 ^ 53) ↔
      ((2 : K) ^ 54 - 1) * (2 : K) ^ 970 ≤ y := by
  rcases lt_trichotomy (gridOf y) 1023 with h | h | h
  · exact iff_of_false (by omega) (lt_threshold_of_gridOf_lt hy h).not_ge
  · rw [threshold_le_iff_of_gridOf_eq hy h]
    omega
  · exact iff_of_true (.inl h) (threshold_le_of_lt_gridOf hy h)

/-- The words `roundOn` gives are the ones R93 asks for. -/
theorem roundsTo_roundOn (s : Bool) {y : K} (hy : 0 < y) : RoundsTo s y (roundOn s y) := by
  have hover := overflows_iff hy
  have hspec := nearestEven_spec (inSteps_pos hy).le
  rcases packRounded_cases s (neg1022_le_gridOf y) (nearestEven_inSteps_le hy) (le_nearestEven_inSteps hy)
    with ⟨ho, hinf⟩ | ⟨ho, hfin, hsign, hmag⟩
  · have hthreshold := hover.mp ho
    rw [roundOn, hinf]
    exact ⟨isNan_infOf s, fsign_infOf s, by simp [hthreshold], fun h => absurd hthreshold h.not_ge⟩
  · refine ⟨isNan_of_finite hfin, hsign, ?_, fun _ => ⟨nearestEven (inSteps y), ?_, hspec⟩⟩
    · rw [← hover, roundOn, isInf_of_finite hfin]
      exact iff_of_false Bool.false_ne_true ho
    · have hgrid : (2 : K) ^ (gridOf y + 1022).toNat * (2 : K) ^ (-1074 : ℤ) = 2 ^ (gridOf y - 52) := by
        rw [← zpow_natCast, Int.toNat_of_nonneg (by have := neg1022_le_gridOf y; omega),
          ← zpow_add₀ two_ne_zero]
        congr 1
        ring
      rw [roundOn, abs_fval, hmag, ← hgrid, Rat.cast_mul, Rat.cast_zpow, Rat.cast_natCast, Rat.cast_ofNat,
        Nat.cast_mul, Nat.cast_pow, Nat.cast_ofNat, mul_assoc]

omit [IsStrictOrderedRing K] in
/-- A rounded value below the overflow threshold is finite. -/
theorem RoundsTo.isFinite {s : Bool} {y : K} {r : F64} (h : RoundsTo s y r)
    (hy : y < ((2 : K) ^ 54 - 1) * (2 : K) ^ 970) : isFinite r = true :=
  (isInf_eq_false_iff h.notNan).mp (by rw [← Bool.not_eq_true, h.overflow]; exact hy.not_ge)

/-- A value on its own grid is not changed by rounding. -/
theorem RoundsTo.abs_fval_of_inSteps {s : Bool} {y : K} {r : F64} (h : RoundsTo s y r)
    (hy : y < ((2 : K) ^ 54 - 1) * (2 : K) ^ 970) {m : ℕ} (hm : inSteps y = m) :
    ((|fval r| : ℚ) : K) = y := by
  obtain ⟨n, hval, near, -⟩ := h.value hy
  have hnm : m = n := by
    have hlt : |((m : ℤ) - n : ℤ)| < 1 := by
      have : |((m : K) - n)| < 1 := by rw [← hm]; linarith
      exact_mod_cast this
    have := Int.abs_lt_one_iff.mp hlt
    omega
  rw [hval, ← hnm, ← hm, inSteps_mul]

end Grid

/-! ### The model's integer computation is the rounding of the exact ratio (R93) -/

/-- Two comparisons with the same outcomes are the same. -/
theorem compare_congr {α β : Type*} [LinearOrder α] [LinearOrder β] {a b : α} {c d : β}
    (hlt : a < b ↔ c < d) (hgt : b < a ↔ d < c) : compare a b = compare c d := by
  rcases lt_trichotomy c d with h | h | h
  · rw [compare_lt_iff_lt.mpr h, compare_lt_iff_lt.mpr (hlt.mpr h)]
  · have hab : a = b := le_antisymm (not_lt.mp (mt hgt.mp h.not_gt)) (not_lt.mp (mt hlt.mp h.not_lt))
    rw [compare_eq_iff_eq.mpr h, compare_eq_iff_eq.mpr hab]
  · rw [compare_gt_iff_gt.mpr h, compare_gt_iff_gt.mpr (hgt.mpr h)]

section Ratio
variable {K : Type*} [Field K] [LinearOrder K] [IsStrictOrderedRing K]

/-- A power of two as the two shifts the model makes of it. -/
theorem two_zpow_eq_div (d : ℤ) : (2 : K) ^ d = 2 ^ d.toNat / 2 ^ (-d).toNat := by
  rw [← zpow_natCast, ← zpow_natCast, ← zpow_sub₀ two_ne_zero]
  congr 1
  omega

variable [FloorSemiring K]

/-- `floorLog2` is the floor of the logarithm of the ratio. -/
theorem floorLog2_eq_log {num den : ℕ} (hn : 0 < num) (hd : 0 < den) :
    floorLog2 num den = Int.log 2 ((num : K) / den) := by
  obtain ⟨low, up⟩ := floorLog2_spec num den hn hd
  have hn' : (0 : K) < num := by exact_mod_cast hn
  have hd' : (0 : K) < den := by exact_mod_cast hd
  refine le_antisymm ?_ (Int.lt_add_one_iff.mp ?_)
  · rw [← Int.zpow_le_iff_le_log one_lt_two (by positivity), Nat.cast_ofNat, two_zpow_eq_div,
      div_le_div_iff₀ (by positivity) hd', mul_comm]
    exact_mod_cast low
  · rw [← Int.lt_zpow_iff_log_lt one_lt_two (by positivity), Nat.cast_ofNat, two_zpow_eq_div,
      div_lt_div_iff₀ hd' (by positivity), mul_comm (2 ^ _)]
    exact_mod_cast up

/-- The nearest integer to a ratio, by its quotient and remainder. -/
theorem nearestEven_div (n : ℕ) {d : ℕ} (hd : 0 < d) :
    nearestEven ((n : K) / d) = roundHalfEven (n / d) (compare (2 * (n % d)) d) := by
  have hd' : (0 : K) < d := by exact_mod_cast hd
  have hdiv : 2 * n = 2 * (n / d) * d + 2 * (n % d) := by
    conv_lhs => rw [← Nat.div_add_mod n d]
    ring
  rw [nearestEven, Nat.floor_div_eq_div, mul_div_assoc']
  congr 1
  apply compare_congr
  · rw [div_lt_iff₀ hd', add_mul, one_mul]
    norm_cast
    omega
  · rw [lt_div_iff₀ hd', add_mul, one_mul]
    norm_cast
    omega

/-- Rounding a ratio of two positive integers. -/
theorem roundMag_eq_roundOn (s : Bool) {num den : ℕ} (hn : 0 < num) (hd : 0 < den) :
    roundMag s num den = roundOn s ((num : K) / den) := by
  simp only [roundMag, roundOn, gridOf, floorLog2_eq_log (K := K) hn hd, Nat.shiftLeft_eq]
  rw [← nearestEven_div (K := K) _ (by positivity)]
  congr 2
  rw [inSteps, gridOf, two_zpow_eq_div, neg_sub]
  push_cast
  rw [div_div_div_eq]

end Ratio

/-- RN64 of a ratio is a function of its value alone: the zero asked for, or the rounding of the magnitude. -/
theorem rn64_eq_roundOn (num : ℤ) {den : ℕ} (s : Bool) (hd : 0 < den) :
    rn64 num den s =
      if (num : ℚ) / den = 0 then zeroOf s else roundOn (decide ((num : ℚ) / den < 0)) |(num : ℚ) / den| := by
  have hd' : (0 : ℚ) < den := by exact_mod_cast hd
  have hzero : (num : ℚ) / den = 0 ↔ num = 0 := by simp [hd.ne']
  have hneg : (num : ℚ) / den < 0 ↔ num < 0 := by simp [div_lt_iff₀ hd']
  have habs : |(num : ℚ) / den| = (num.natAbs : ℚ) / den := by
    rw [abs_div, Nat.abs_cast, Nat.cast_natAbs, Int.cast_abs]
  simp only [rn64, hzero, hneg, habs]
  split
  · rfl
  · next h => exact roundMag_eq_roundOn _ (Int.natAbs_pos.mpr h) hd

/-- RN64 of a nonzero ratio is as R93 says. -/
theorem roundsTo_rn64 {num : ℤ} {den : ℕ} (s : Bool) (hd : 0 < den) (hq : (num : ℚ) / den ≠ 0) :
    RoundsTo (decide ((num : ℚ) / den < 0)) |(num : ℚ) / den| (rn64 num den s) := by
  rw [rn64_eq_roundOn num s hd, if_neg hq]
  exact roundsTo_roundOn _ (abs_pos.mpr hq)

/-- Settles O33: a nonzero ratio is rounded by `roundOn`, which R93 describes; the zero is the one asked for. -/
theorem roundingIsNearestEven : Obligations.RoundingIsNearestEven := by
  intro num den s hd
  refine ⟨fun hq => by rw [rn64_eq_roundOn num s hd, if_pos hq], fun hq => ?_⟩
  have h := roundsTo_rn64 s hd hq
  exact ⟨h.notNan, h.sign, h.overflow, fun hlt => by simpa only [Rat.cast_id, inSteps, gridOf, gridExp] using h.value hlt⟩

end Sys2Proof.Machine

/-! The arithmetic operations round the exact result once (spec/40_f64_datapath.md R95 to R98, R100). -/

namespace Sys2Proof.Machine

/-! ### The exact values the operations round (R90, R95 to R100) -/

/-- The common denominator is positive. -/
theorem unitDen_pos : 0 < unitDen := by
  rw [unitDen_eq]
  positivity

/-- A word's value as the ratio of the two integers the datapath works on. -/
theorem fval_eq_div (w : F64) : fval w = (scaledVal w : ℚ) / unitDen := by
  rw [fval_eq_scaledVal, zpow_neg, ← div_eq_mul_inv, unitDen_eq, Nat.cast_pow, Nat.cast_ofNat]
  rfl

/-- A word's magnitude as the ratio of the two integers the datapath works on. -/
theorem abs_fval_eq_div (w : F64) : |fval w| = (scaledMag w : ℚ) / unitDen := by
  rw [abs_fval, zpow_neg, ← div_eq_mul_inv, unitDen_eq, Nat.cast_pow, Nat.cast_ofNat]
  rfl

/-- The sign bit is the sign of the value. -/
theorem fval_eq_signed (w : F64) : fval w = if fsign w then -|fval w| else |fval w| := by
  rw [abs_fval_eq_div, fval_eq_div, scaledVal]
  split <;> simp [neg_div]

/-- Negation negates the value (R101). -/
theorem fval_fneg (a : F64) : fval (fneg a) = -fval a := by
  rw [fval_eq_scaledVal, fval_eq_scaledVal, scaledVal_fneg, Int.cast_neg, neg_mul]

/-- A word of nonzero value has a nonzero scaled magnitude. -/
theorem scaledMag_pos {w : F64} (h : isZero w = false) : 0 < scaledMag w := by
  rw [Nat.pos_iff_ne_zero]
  intro hm
  have hv : fval w = 0 := by rw [← abs_eq_zero, abs_fval, hm, Nat.cast_zero, zero_mul]
  rw [(fval_eq_zero_iff w).mp hv] at h
  cases h

/-- RN64 of a ratio is RN64 of its value, in whatever terms the ratio is written. -/
theorem rn64_eq_rnQ (num : ℤ) {den : ℕ} (s : Bool) (hd : 0 < den) {q : ℚ} (hq : (num : ℚ) / den = q) :
    rn64 num den s = rnQ q s := by
  rw [rnQ, rn64_eq_roundOn num s hd, rn64_eq_roundOn q.num s q.den_pos, Rat.num_div_den, hq]

/-- RN64 of zero is the zero asked for. -/
@[simp] theorem rnQ_zero (s : Bool) : rnQ 0 s = zeroOf s := rfl

/-- RN64 of a nonzero value, by its sign and magnitude. -/
theorem rnQ_signed (s z : Bool) {y : ℚ} (hy : 0 < y) : rnQ (if s then -y else y) z = roundOn s y := by
  rw [rnQ, rn64_eq_roundOn _ z (Rat.den_pos _), Rat.num_div_den]
  cases s <;> simp [hy, hy.ne', hy.not_gt, abs_of_pos]

/-- R95 on finite operands. -/
theorem fadd_eq_rnQ {a b : F64} (ha : isFinite a = true) (hb : isFinite b = true) :
    fadd a b = rnQ (fval a + fval b) (fsign a && fsign b) := by
  rw [fadd_finite ha hb]
  refine rn64_eq_rnQ _ _ unitDen_pos ?_
  rw [fval_eq_div, fval_eq_div, Int.cast_add, add_div]

/-- Subtraction is addition of the negated operand, NaN operands apart (R96). -/
theorem fsub_eq_fadd_fneg {a b : F64} (ha : isNan a = false) (hb : isNan b = false) :
    fsub a b = fadd a (fneg b) := by
  simp [fsub, ha, hb]

/-- R96 on finite operands. -/
theorem fsub_eq_rnQ {a b : F64} (ha : isFinite a = true) (hb : isFinite b = true) :
    fsub a b = rnQ (fval a - fval b) (fsign a && !fsign b) := by
  rw [fsub_eq_fadd_fneg (isNan_of_finite ha) (isNan_of_finite hb),
    fadd_eq_rnQ ha ((isFinite_fneg b).trans hb), fval_fneg, fsign_fneg, sub_eq_add_neg]

/-- R97 on finite operands. -/
theorem fmul_eq_rnQ {a b : F64} (ha : isFinite a = true) (hb : isFinite b = true) :
    fmul a b = rnQ (fval a * fval b) (fsign a ^^ fsign b) := by
  rw [fmul_finite ha hb]
  refine rn64_eq_rnQ _ _ (Nat.mul_pos unitDen_pos unitDen_pos) ?_
  rw [fval_eq_div, fval_eq_div, Int.cast_mul, Nat.cast_mul, mul_div_mul_comm]

/-- R100 on finite operands. -/
theorem ffma_eq_rnQ {a b c : F64} (ha : isFinite a = true) (hb : isFinite b = true)
    (hc : isFinite c = true) :
    ffma a b c = rnQ (fval a * fval b + fval c) ((fsign a ^^ fsign b) && fsign c) := by
  have hd : (unitDen : ℚ) ≠ 0 := by exact_mod_cast unitDen_pos.ne'
  rw [ffma_finite ha hb hc]
  refine rn64_eq_rnQ _ _ (Nat.mul_pos unitDen_pos unitDen_pos) ?_
  rw [fval_eq_div, fval_eq_div, fval_eq_div, Int.cast_add, Int.cast_mul, Int.cast_mul, Int.cast_natCast,
    Nat.cast_mul, add_div, mul_div_mul_comm, mul_div_mul_right _ _ hd]

/-- A quotient by its sign and magnitude. -/
theorem fval_div_eq_signed (a b : F64) :
    fval a / fval b =
      if fsign a ^^ fsign b then -(|fval a| / |fval b|) else |fval a| / |fval b| := by
  rw [fval_eq_signed a, fval_eq_signed b]
  cases fsign a <;> cases fsign b <;> simp [neg_div, div_neg]

/-- R98 on finite operands. -/
theorem fdiv_eq_rnQ {a b : F64} (ha : isFinite a = true) (hb : isFinite b = true) (h0 : fval b ≠ 0) :
    fdiv a b = rnQ (fval a / fval b) (fsign a ^^ fsign b) := by
  have hzb : isZero b = false := Bool.eq_false_iff.mpr (mt (fval_eq_zero_iff b).mpr h0)
  simp only [fdiv, isNan_of_finite ha, isNan_of_finite hb, isInf_of_finite ha, isInf_of_finite hb, hzb,
    Bool.and_false, Bool.or_false, Bool.false_eq_true, if_false]
  cases hza : isZero a
  · have hpos : 0 < (scaledMag a : ℚ) / scaledMag b :=
      div_pos (by exact_mod_cast scaledMag_pos hza) (by exact_mod_cast scaledMag_pos hzb)
    have hd : (unitDen : ℚ) ≠ 0 := by exact_mod_cast unitDen_pos.ne'
    rw [fval_div_eq_signed, abs_fval_eq_div, abs_fval_eq_div, div_div_div_cancel_right₀ hd,
      rnQ_signed _ _ hpos]
    exact roundMag_eq_roundOn _ (scaledMag_pos hza) (scaledMag_pos hzb)
  · rw [(fval_eq_zero_iff a).mpr hza, zero_div, rnQ_zero]
    rfl

/-! ### Infinite and zero operands (R95 to R98, R100) -/

/-- A zero is no NaN. -/
theorem isNan_of_isZero {w : F64} (h : isZero w = true) : isNan w = false :=
  isNan_of_finite (isFinite_of_isZero h)

/-- An infinity is no NaN. -/
theorem isNan_of_isInf {w : F64} (h : isInf w = true) : isNan w = false := by
  rcases class_cases w with h' | h' | h' <;> simp_all

/-- A zero is no infinity. -/
theorem isInf_of_isZero {w : F64} (h : isZero w = true) : isInf w = false :=
  isInf_of_finite (isFinite_of_isZero h)

/-- An infinity is no zero. -/
theorem isZero_of_isInf {w : F64} (h : isInf w = true) : isZero w = false := by
  by_contra hz
  rw [isInf_of_isZero (Bool.of_not_eq_false hz)] at h
  cases h

section Special
variable {a b c : F64}

/-- A NaN operand makes a binary operation's result the canonical NaN. -/
theorem binary_nan (h : isNan a = true ∨ isNan b = true) :
    fadd a b = qNaN ∧ fsub a b = qNaN ∧ fmul a b = qNaN ∧ fdiv a b = qNaN := by
  rcases h with h | h <;> simp [h]

/-- A NaN operand makes the fused multiply-add's result the canonical NaN. -/
theorem ffma_nan (h : isNan a = true ∨ isNan b = true ∨ isNan c = true) : ffma a b c = qNaN := by
  rcases h with h | h | h <;> simp [h]

/-- R95 on infinite operands. -/
theorem fadd_inf (ha : isNan a = false) (hb : isNan b = false) :
    (isInf a = true → isInf b = true → fadd a b = if fsign a = fsign b then a else qNaN) ∧
    (isInf a = true → isInf b = false → fadd a b = a) ∧
    (isInf a = false → isInf b = true → fadd a b = b) := by
  refine ⟨?_, ?_, ?_⟩ <;> intro h h' <;> simp [fadd, ha, hb, h, h']

/-- R97 on an infinite operand, in either place. -/
theorem fmul_inf (ha : isNan a = false) (hb : isNan b = false) (hi : isInf a = true) :
    (isZero b = true → fmul a b = qNaN ∧ fmul b a = qNaN) ∧
    (isZero b = false →
      fmul a b = infOf (fsign a ^^ fsign b) ∧ fmul b a = infOf (fsign a ^^ fsign b)) := by
  refine ⟨fun hz => ?_, fun hz => ?_⟩
  · simp [fmul, ha, hb, hi, hz]
  · simp [fmul, ha, hb, hi, hz, isZero_of_isInf hi, Bool.xor_comm]

/-- R98 on zero and infinite operands. -/
theorem fdiv_special (ha : isNan a = false) (hb : isNan b = false) :
    let inf := infOf (fsign a ^^ fsign b)
    let zero := zeroOf (fsign a ^^ fsign b)
    (isZero a = true → isZero b = true → fdiv a b = qNaN) ∧
    (isInf a = true → isInf b = true → fdiv a b = qNaN) ∧
    (isZero a = false → isZero b = true → fdiv a b = inf) ∧
    (isInf a = true → isInf b = false → fdiv a b = inf) ∧
    (isInf a = false → isInf b = true → fdiv a b = zero) ∧
    (isZero a = true → isZero b = false → fdiv a b = zero) := by
  refine ⟨fun h h' => ?_, fun h h' => ?_, fun h h' => ?_, fun h h' => ?_, fun h h' => ?_, fun h h' => ?_⟩
  · simp [fdiv, ha, hb, h, h']
  · simp [fdiv, ha, hb, h, h']
  · simp [fdiv, ha, hb, h, h', isInf_of_isZero h']
  · simp [fdiv, ha, hb, h, h', isZero_of_isInf h]
  · simp [fdiv, ha, hb, h, h', isZero_of_isInf h']
  · simp [fdiv, ha, hb, h, h', isInf_of_isZero h]

/-- R100 on zero and infinite operands. -/
theorem ffma_special (ha : isNan a = false) (hb : isNan b = false) (hc : isNan c = false) :
    let s := fsign a ^^ fsign b
    ((isInf a = true ∧ isZero b = true) ∨ (isZero a = true ∧ isInf b = true) → ffma a b c = qNaN) ∧
    ((isInf a = true ∧ isZero b = false) ∨ (isZero a = false ∧ isInf b = true) →
      ffma a b c = if isInf c = true ∧ fsign c ≠ s then qNaN else infOf s) ∧
    (isFinite a = true → isFinite b = true → isInf c = true → ffma a b c = c) := by
  refine ⟨?_, ?_, fun hfa hfb hi => ?_⟩
  · rintro (⟨h, h'⟩ | ⟨h, h'⟩) <;> simp [ffma, ha, hb, hc, h, h']
  · rintro (⟨h, h'⟩ | ⟨h, h'⟩)
    · simp [ffma, ha, hb, hc, h, h', isZero_of_isInf h]
    · simp [ffma, ha, hb, hc, h, h', isZero_of_isInf h']
  · simp [ffma, ha, hb, hc, hi, isInf_of_finite hfa, isInf_of_finite hfb]

end Special

/-- Settles O34: on finite operands each operation is `rnQ` of the exact value, because RN64 of a ratio depends
on its value alone; the other operands are the branches in front of that rounding. -/
theorem operationsRoundTheExactResultOnce : Obligations.OperationsRoundTheExactResultOnce := by
  refine ⟨fun a b c ha hb hc => ⟨fadd_eq_rnQ ha hb, fsub_eq_rnQ ha hb, fmul_eq_rnQ ha hb, fdiv_eq_rnQ ha hb,
      ffma_eq_rnQ ha hb hc⟩,
    fun _ _ => binary_nan, fun _ _ _ => ffma_nan, fun a b ha hb => ?_, fun a b ha hb => ?_,
    fun _ _ => fdiv_special, fun _ _ _ => ffma_special, by decide +kernel⟩
  · obtain ⟨both, left, right⟩ := fadd_inf ha hb
    exact ⟨both, left, right, fsub_eq_fadd_fneg ha hb⟩
  · exact ⟨fun hi => (fmul_inf ha hb hi).1, fun hi => (fmul_inf ha hb hi).2⟩

end Sys2Proof.Machine

/-! Square root and rounding to an integer (spec/40_f64_datapath.md R99, R103): the digit-by-digit root is the
rounding of the real root, and an integer up to `2^52` is its own rounding. -/

namespace Sys2Proof.Machine

/-! ### The root on the grid (R99) -/

/-- The logarithm of a root is half the logarithm, rounded down. -/
theorem log_sqrt {x : ℝ} (hx : 0 < x) : Int.log 2 √x = Int.log 2 x / 2 := by
  refine eq_of_forall_le_iff fun k => ?_
  rw [← Int.zpow_le_iff_le_log one_lt_two (Real.sqrt_pos.mpr hx), Real.le_sqrt (by positivity) hx.le,
    ← zpow_natCast, ← zpow_mul, Int.zpow_le_iff_le_log one_lt_two hx]
  push_cast
  omega

/-- The floor of a ratio's root is the integer root of the quotient. -/
theorem floor_sqrt_div (n d : ℕ) : ⌊√((n : ℝ) / d)⌋₊ = isqrt (n / d) := by
  obtain ⟨low, up⟩ := isqrt_spec (n / d)
  rw [← Nat.floor_div_eq_div (K := ℝ), Nat.le_floor_iff (by positivity), Nat.floor_div_eq_div] at low
  nth_rw 1 [← Nat.floor_div_eq_div (K := ℝ)] at up
  rw [Nat.floor_lt (by positivity)] at up
  push_cast at low up
  rw [Nat.floor_eq_iff (Real.sqrt_nonneg _), Real.le_sqrt (by positivity) (by positivity),
    Real.sqrt_lt' (by positivity), sq, sq]
  exact ⟨low, up⟩

/-- The nearest integer to a ratio's root, by squares. -/
theorem nearestEven_sqrt_div (n : ℕ) {d : ℕ} (hd : 0 < d) :
    nearestEven √((n : ℝ) / d) = roundHalfEven (isqrt (n / d))
      (compare (4 * n) ((2 * isqrt (n / d) + 1) * (2 * isqrt (n / d) + 1) * d)) := by
  have hd' : (0 : ℝ) < d := by exact_mod_cast hd
  have htwice : 2 * √((n : ℝ) / d) = √((4 * n : ℕ) / d) := by
    rw [Nat.cast_mul, mul_div_assoc, Real.sqrt_mul (by positivity), Nat.cast_ofNat,
      show (4 : ℝ) = 2 ^ 2 by norm_num, Real.sqrt_sq two_pos.le]
  rw [nearestEven, floor_sqrt_div, htwice]
  generalize isqrt (n / d) = q
  congr 1
  apply compare_congr
  · rw [Real.sqrt_lt' (by positivity), div_lt_iff₀ hd', sq]
    norm_cast
  · rw [Real.lt_sqrt (by positivity), lt_div_iff₀ hd', sq]
    norm_cast

/-- Rounding the root of a ratio of two positive integers. -/
theorem roundSqrt_eq_roundOn {num den : ℕ} (hn : 0 < num) (hd : 0 < den) :
    roundSqrt num den = roundOn false √((num : ℝ) / den) := by
  have hx : (0 : ℝ) < num / den := div_pos (by exact_mod_cast hn) (by exact_mod_cast hd)
  simp only [roundSqrt, roundOn, gridOf, floorLog2_eq_log (K := ℝ) hn hd, Nat.shiftLeft_eq]
  rw [← nearestEven_sqrt_div _ (by positivity), ← log_sqrt hx]
  congr 2
  generalize he : gridExp (Int.log 2 √((num : ℝ) / den)) = e
  have hsq : ((2 : ℝ) ^ (e - 52)) ^ 2 = 2 ^ (2 * (e - 52)).toNat / 2 ^ (2 * (52 - e)).toNat := by
    rw [← zpow_natCast, ← zpow_mul, Nat.cast_ofNat, mul_comm _ 2, two_zpow_eq_div, ← mul_neg, neg_sub]
  rw [inSteps, gridOf, he, ← Real.sqrt_sq (by positivity : (0 : ℝ) ≤ 2 ^ (e - 52)), ← Real.sqrt_div hx.le,
    hsq, div_div_div_eq]
  push_cast
  rfl

/-! ### Magnitudes (R90) -/

/-- The magnitude of a finite word is below `2^1024`. -/
theorem abs_fval_lt {w : F64} (h : isFinite w = true) : |fval w| < 2 ^ 1024 := by
  have hfrac := ffrac_lt w
  have hexp := fexp_lt w
  have hexp' : fexp w ≠ 2047 := by simpa [isFinite] using h
  have hmag : scaledMag w < 2 ^ 1024 * unitDen := by
    rw [unitDen_eq, scaledMag_eq, ← pow_add]
    split
    · exact hfrac.trans (Nat.pow_lt_pow_right one_lt_two (by norm_num))
    · calc (2 ^ 52 + ffrac w) * 2 ^ (fexp w - 1) < 2 ^ 53 * 2 ^ (fexp w - 1) :=
            Nat.mul_lt_mul_of_pos_right (by omega) (by positivity)
        _ ≤ 2 ^ (1024 + 1074) := by
            rw [← pow_add]
            exact Nat.pow_le_pow_right two_pos (by omega)
  rw [abs_fval_eq_div, div_lt_iff₀ (by exact_mod_cast unitDen_pos)]
  exact_mod_cast hmag

/-- A root of a finite word is far from the overflow threshold. -/
theorem sqrt_fval_lt {w : F64} (h : isFinite w = true) :
    √(fval w : ℝ) < ((2 : ℝ) ^ 54 - 1) * 2 ^ 970 := by
  have hv : (fval w : ℝ) < 2 ^ 1024 := by exact_mod_cast (le_abs_self _).trans_lt (abs_fval_lt h)
  calc √(fval w : ℝ) < 2 ^ 512 := by
        rw [Real.sqrt_lt' (by positivity), ← pow_mul]
        exact hv
    _ ≤ 1 * 2 ^ 970 := by
        rw [one_mul]
        exact pow_le_pow_right₀ one_le_two (by norm_num)
    _ ≤ (2 ^ 54 - 1) * 2 ^ 970 := by gcongr; norm_num

/-! ### Square root (R99) -/

/-- On a positive finite word the root is rounded once. -/
theorem roundsTo_fsqrt {a : F64} (ha : isFinite a = true) (hz : isZero a = false) (hs : fsign a = false) :
    RoundsTo false √(fval a : ℝ) (fsqrt a) := by
  have hm := scaledMag_pos hz
  have hval : (fval a : ℝ) = scaledMag a / unitDen := by
    rw [fval_eq_div, scaledVal, hs]
    push_cast
    rfl
  have hpos : (0 : ℝ) < scaledMag a / unitDen :=
    div_pos (by exact_mod_cast hm) (by exact_mod_cast unitDen_pos)
  have hroot : fsqrt a = roundSqrt (scaledMag a) unitDen := by
    simp [fsqrt, isNan_of_finite ha, isInf_of_finite ha, hz, hs]
  rw [hroot, roundSqrt_eq_roundOn hm unitDen_pos, hval]
  exact roundsTo_roundOn _ (Real.sqrt_pos.mpr hpos)

/-- R99 on the words whose root is not rounded. -/
theorem fsqrt_special (a : F64) :
    (isNan a = true → fsqrt a = qNaN) ∧
    (isZero a = true → fsqrt a = a) ∧
    (isInf a = true → fsign a = false → fsqrt a = a) ∧
    (isZero a = false → fsign a = true → fsqrt a = qNaN) := by
  refine ⟨fsqrt_nan, fun h => ?_, fun h h' => ?_, fun h h' => ?_⟩
  · simp [fsqrt, h, isNan_of_isZero h]
  · simp [fsqrt, h, h', isNan_of_isInf h]
  · simp [fsqrt, h, h']

/-! ### Rounding to an integer (R103) -/

/-- An integer up to `2^52` is a whole number of steps of its grid. -/
theorem inSteps_natCast {n : ℕ} (h52 : n ≤ 2 ^ 52) :
    ∃ m : ℕ, inSteps (n : ℚ) = m := by
  have hlog : (Int.log 2 (n : ℚ) : ℤ) ≤ 52 := by
    rw [Int.log_natCast]
    exact_mod_cast (Nat.log_mono_right h52).trans_eq (Nat.log_pow one_lt_two 52)
  have hgrid : gridOf (n : ℚ) ≤ 52 := max_le hlog (by norm_num)
  refine ⟨n * 2 ^ (52 - gridOf (n : ℚ)).toNat, ?_⟩
  rw [inSteps, div_eq_mul_inv, ← zpow_neg, Nat.cast_mul, Nat.cast_pow, Nat.cast_ofNat, ← zpow_natCast,
    Int.toNat_of_nonneg (by omega), neg_sub]

/-- An integer up to `2^52` is a binary64 value, and RN64 gives its word. -/
theorem roundMag_integer (s : Bool) {n : ℕ} (hn : 0 < n) (h52 : n ≤ 2 ^ 52) :
    isFinite (roundMag s n 1) = true ∧ fsign (roundMag s n 1) = s ∧ |fval (roundMag s n 1)| = n := by
  have hr : RoundsTo s (n : ℚ) (roundMag s n 1) := by
    have h := roundMag_eq_roundOn (K := ℚ) s hn one_pos
    rw [Nat.cast_one, div_one] at h
    exact h ▸ roundsTo_roundOn s (by exact_mod_cast hn)
  have hlt : (n : ℚ) < (2 ^ 54 - 1) * 2 ^ 970 := by
    calc (n : ℚ) ≤ 2 ^ 52 := by exact_mod_cast h52
      _ < (2 ^ 54 - 1) * 1 := by norm_num
      _ ≤ (2 ^ 54 - 1) * 2 ^ 970 := by gcongr; exact one_le_pow₀ one_le_two
  obtain ⟨m, hm⟩ := inSteps_natCast h52
  exact ⟨hr.isFinite hlt, hr.sign, by simpa only [Rat.cast_id] using hr.abs_fval_of_inSteps hlt hm⟩

/-- The test `|val(a)| ≥ 2^52` on the scaled magnitude. -/
theorem shift_le_scaledMag_iff (a : F64) : 1 <<< (52 + 1074) ≤ scaledMag a ↔ 2 ^ 52 ≤ |fval a| := by
  rw [abs_fval_eq_div, le_div_iff₀ (by exact_mod_cast unitDen_pos), Nat.shiftLeft_eq, one_mul, pow_add,
    ← unitDen_eq]
  norm_cast

/-- `floor(|val(a)| + 1/2)` on the scaled magnitude. -/
theorem floor_abs_fval_add_half (a : F64) :
    ⌊|fval a| + 1 / 2⌋ = ((2 * scaledMag a + unitDen) / (2 * unitDen) : ℕ) := by
  have hd : (unitDen : ℚ) ≠ 0 := by exact_mod_cast unitDen_pos.ne'
  have hhalf : |fval a| + 1 / 2 = ((2 * scaledMag a + unitDen : ℕ) : ℚ) / (2 * unitDen : ℕ) := by
    rw [abs_fval_eq_div]
    push_cast
    field_simp
  rw [hhalf, Rat.floor_natCast_div_natCast, Int.natCast_div]

/-- R103 below `2^52`: the nearest integer, ties away from zero, with the sign of the operand. -/
theorem rintAway_small {a : F64} (ha : isFinite a = true) (hlt : |fval a| < 2 ^ 52) :
    isFinite (rintAway a) = true ∧ fsign (rintAway a) = fsign a ∧
      |fval (rintAway a)| = (⌊|fval a| + 1 / 2⌋ : ℤ) := by
  cases hz : isZero a
  · have h52 : ⌊|fval a| + 1 / 2⌋ ≤ 2 ^ 52 := by
      rw [← Int.lt_add_one_iff, Int.floor_lt]
      push_cast
      linarith
    rw [floor_abs_fval_add_half] at h52 ⊢
    simp only [rintAway, isNan_of_finite ha, isInf_of_finite ha, hz, shift_le_scaledMag_iff, hlt.not_ge, Bool.or_false,
      Bool.false_eq_true, if_false]
    split
    · next h0 =>
      rw [h0, fsign_zeroOf, (fval_eq_zero_iff _).mpr (isZero_zeroOf _), abs_zero]
      exact ⟨isFinite_of_isZero (isZero_zeroOf _), rfl, by simp⟩
    · next h0 => exact roundMag_integer _ (Nat.pos_of_ne_zero h0) (by exact_mod_cast h52)
  · have hself : rintAway a = a := by simp [rintAway, isNan_of_isZero hz, hz]
    rw [hself, (fval_eq_zero_iff a).mpr hz]
    exact ⟨ha, rfl, by norm_num⟩

/-- R103 on the words that are returned as they are, and on a NaN. -/
theorem rintAway_special (a : F64) :
    (isNan a = true → rintAway a = qNaN) ∧
    (isInf a = true ∨ isZero a = true → rintAway a = a) ∧
    (isFinite a = true → 2 ^ 52 ≤ |fval a| → rintAway a = a) := by
  refine ⟨fun h => ?_, ?_, fun h hl => ?_⟩
  · simp [rintAway, h]
  · rintro (h | h)
    · simp [rintAway, h, isNan_of_isInf h]
    · simp [rintAway, h, isNan_of_isZero h]
  · simp only [rintAway, isNan_of_finite h, Bool.false_eq_true, if_false,
      if_pos ((shift_le_scaledMag_iff a).mpr hl), ite_self]

/-- Settles O60: the integer root and its comparison of squares are the rounding of the real root, and an
integer below the end of the grid's last binade is rounded to itself. -/
theorem rootsAndIntegersRoundOnce : Obligations.RootsAndIntegersRoundOnce := by
  refine ⟨fun a => ?_, fun a => ?_, by decide +kernel⟩
  · obtain ⟨nan, zero, inf, negative⟩ := fsqrt_special a
    refine ⟨nan, zero, inf, negative, fun ha hz hs => ?_⟩
    have h := roundsTo_fsqrt ha hz hs
    obtain ⟨n, hval, near⟩ := h.value (sqrt_fval_lt ha)
    refine ⟨h.isFinite (sqrt_fval_lt ha), h.sign, n, ?_, near⟩
    rw [fval_eq_signed, h.sign]
    exact hval
  · obtain ⟨nan, same, large⟩ := rintAway_special a
    exact ⟨nan, same, large, rintAway_small⟩

end Sys2Proof.Machine

/-! The double-double sum and difference (spec/41_double_double.md R126, R127): a binary64 word is its own
rounding, so 2Sum of a word and its negation leaves no error, and an infinite high word leaves only NaNs. -/

namespace Sys2Proof

/-! ### The words of format R3 (R65, R66) -/

/-- A word with its two low fields zero, as one concatenation. -/
theorem commandWord_r3 (op : BitVec 8) (rd ra rb : Reg) :
    commandWord op rd ra rb 0 0 = op ++ rd ++ ra ++ rb ++ 0#12 :=
  BitVec.append_assoc (x₁ := op ++ rd ++ ra ++ rb) (x₂ := 0#4) (x₃ := 0#8)

/-- A word that format R3's mask lets through has its twelve low bits zero. -/
theorem low_eq_zero_of_masked_r3 {w : Cmd} {op : BitVec 8}
    (h : w &&& Format.r3.mask = commandWord op 0 0 0 0 0) : w.extractLsb' 0 12 = 0 := by
  rw [← wordOf_eq_of_masked h, Format.wordOf, commandWord_r3]
  apply BitVec.eq_of_getLsbD_eq
  intro n hn
  rw [BitVec.getLsbD_extractLsb', BitVec.getLsbD_append]
  simp [hn]

/-- DD.ADD and DD.SUB have no word with a low bit set. -/
theorem decode_ne_ok_of_low_ne_zero {w : Cmd} (hop : opOf w = 0x30 ∨ opOf w = 0x31)
    (hlow : w.extractLsb' 0 12 ≠ 0) (i : Instr) : decode w ≠ .ok i := by
  intro h
  rcases hop with hop | hop <;>
  · rw [decode, hop] at h
    obtain ⟨hmask, -⟩ := legal_eq_ok_iff.mp h
    exact hlow (low_eq_zero_of_masked_r3 (op := opOf w) (by rw [hop]; exact hmask))

end Sys2Proof

namespace Sys2Proof.Machine

/-! ### How a command on two D registers ends (R26, R120) -/

/-- With its four source words written, the command stores the pair its operation gives. -/
theorem ddBinary_completes (op : DReg → DReg → DReg) (rd : Reg) {ra rb : Reg} {s : State}
    (hah : s.valid (.dh ra) = true) (hal : s.valid (.dl ra) = true)
    (hbh : s.valid (.dh rb) = true) (hbl : s.valid (.dl rb) = true) :
    let r := op ⟨s.component (.dh ra), s.component (.dl ra)⟩ ⟨s.component (.dh rb), s.component (.dl rb)⟩
    ∃ u, ddBinary op rd ra rb s = .next u ∧ Completed s u [(.dh rd, r.hi), (.dl rd, r.lo)] s.sr 0 := by
  refine ⟨_, ?_, completed_writeD s rd _ s.sr⟩
  rw [ddBinary, readD_eq, readD_eq, hah, hal, hbh, hbl]
  rfl

/-- With one of its four source words unwritten, the command raises Uninit. -/
theorem ddBinary_uninit (op : DReg → DReg → DReg) (rd : Reg) {ra rb : Reg} {s : State}
    (h : ∃ c ∈ [Component.dh ra, .dl ra, .dh rb, .dl rb], s.valid c = false) :
    ∃ u, ddBinary op rd ra rb s = .next u ∧ Faulted s u .uninit := by
  refine ⟨_, ?_, faulted_raise s .uninit⟩
  have hread : (s.valid (.dh ra) && s.valid (.dl ra)) = false ∨
      (s.valid (.dh rb) && s.valid (.dl rb)) = false := by
    obtain ⟨c, hc, hv⟩ := h
    simp only [List.mem_cons, List.not_mem_nil, or_false] at hc
    rcases hc with rfl | rfl | rfl | rfl <;> simp [hv]
  rw [ddBinary, readD_eq, readD_eq]
  rcases hread with ha | hb
  · rw [ha]
    rfl
  · rw [hb]
    cases s.valid (.dh ra) && s.valid (.dl ra) <;> rfl

/-! ### A word is its own rounding (R93) -/

/-- The integer significand of a word. -/
def significand (w : F64) : ℕ := if fexp w = 0 then ffrac w else 2 ^ 52 + ffrac w

/-- The exponent of a word's binade, the subnormals' being the lowest. -/
def binade (w : F64) : ℤ := (fexp w - 1 : ℕ) - 1022

/-- A word's magnitude is its significand in steps of its binade. -/
theorem abs_fval_eq_significand (w : F64) :
    |fval w| = significand w * (2 : ℚ) ^ (binade w - 52) := by
  have hmag : scaledMag w = significand w * 2 ^ (fexp w - 1) := by
    rw [scaledMag_eq, significand]
    split
    · next h => rw [h, Nat.zero_sub, pow_zero, mul_one]
    · rfl
  rw [abs_fval, hmag, Nat.cast_mul, Nat.cast_pow, Nat.cast_ofNat, mul_assoc, ← zpow_natCast,
    ← zpow_add₀ two_ne_zero, binade]
  congr 2
  ring

/-- The grid of a value written with a significand of 53 bits, or with a shorter one in the lowest binade. -/
theorem gridOf_steps {n : ℕ} {e : ℤ} (hpos : 0 < n) (hn : n < 2 ^ 53) (he : -1022 ≤ e)
    (hbits : 2 ^ 52 ≤ n ∨ e = -1022) : gridOf ((n : ℚ) * (2 : ℚ) ^ (e - 52)) = e := by
  have hy : 0 < (n : ℚ) * (2 : ℚ) ^ (e - 52) := by positivity
  have hstep : ∀ k : ℕ, (2 : ℚ) ^ (e - 52 + k) = 2 ^ k * 2 ^ (e - 52) := fun k => by
    rw [zpow_add₀ two_ne_zero, zpow_natCast, mul_comm]
  have hup : Int.log 2 ((n : ℚ) * (2 : ℚ) ^ (e - 52)) ≤ e := by
    rw [← Int.lt_add_one_iff, ← Int.lt_zpow_iff_log_lt one_lt_two hy, Nat.cast_ofNat,
      show e + 1 = e - 52 + (53 : ℕ) by push_cast; ring, hstep]
    gcongr
    exact_mod_cast hn
  refine le_antisymm (max_le hup he) ?_
  rcases hbits with h52 | rfl
  · refine le_max_of_le_left ?_
    rw [← Int.zpow_le_iff_le_log one_lt_two hy, Nat.cast_ofNat,
      show (2 : ℚ) ^ e = 2 ^ (e - 52 + (52 : ℕ)) by push_cast; rw [sub_add_cancel], hstep]
    gcongr
    exact_mod_cast h52
  · exact neg1022_le_gridOf _

/-- A significand has at most 53 bits. -/
theorem significand_lt (w : F64) : significand w < 2 ^ 53 := by
  have := ffrac_lt w
  unfold significand
  split <;> omega

/-- Only a zero has the significand 0. -/
theorem significand_pos {w : F64} (hz : isZero w = false) : 0 < significand w := by
  unfold significand
  split
  · next he => exact Nat.pos_of_ne_zero fun hf => by simp [isZero, he, hf] at hz
  · omega

/-- The grid of a word's magnitude is that of its binade. -/
theorem gridOf_abs_fval {w : F64} (hz : isZero w = false) : gridOf |fval w| = binade w := by
  have hbits : 2 ^ 52 ≤ significand w ∨ binade w = -1022 := by
    unfold significand binade
    split <;> omega
  rw [abs_fval_eq_significand]
  exact gridOf_steps (significand_pos hz) (significand_lt w) (by unfold binade; omega) hbits

/-- The rounding of a word's magnitude, with its sign, is the word. -/
theorem roundOn_abs_fval {w : F64} (hfin : isFinite w = true) (hz : isZero w = false) :
    roundOn (fsign w) |fval w| = w := by
  have hsteps : inSteps |fval w| = significand w := by
    rw [inSteps, gridOf_abs_fval hz, abs_fval_eq_significand, mul_div_cancel_right₀ _ (by positivity)]
  have hfields : (binade w + 1022).toNat * 2 ^ 52 + significand w = fexp w * 2 ^ 52 + ffrac w := by
    unfold binade significand
    split <;> omega
  have hfinite : ¬2047 * 2 ^ 52 ≤ fexp w * 2 ^ 52 + ffrac w := by
    have hexp : fexp w ≠ 2047 := by simpa [isFinite] using hfin
    have := fexp_lt w
    have := ffrac_lt w
    omega
  rw [roundOn, gridOf_abs_fval hz, hsteps, nearestEven_natCast, packRounded]
  simp only [Nat.shiftLeft_eq, hfields]
  rw [if_neg hfinite, packWord_fields]

/-- RN64 of a nonzero word's value is the word. -/
theorem rnQ_fval {w : F64} (hfin : isFinite w = true) (hz : isZero w = false) (s : Bool) :
    rnQ (fval w) s = w := by
  have hv : 0 < |fval w| := abs_pos.mpr fun h => by simp [(fval_eq_zero_iff w).mp h] at hz
  rw [fval_eq_signed, rnQ_signed _ _ hv, roundOn_abs_fval hfin hz]

/-! ### Sums that leave nothing (R95, R96, R101) -/

/-- A word less itself is +0. -/
theorem fsub_self {a : F64} (ha : isFinite a = true) : fsub a a = 0 := by
  rw [fsub_eq_rnQ ha ha, sub_self, Bool.and_not_self, rnQ_zero]
  rfl

/-- +0 less a nonzero word is its negation. -/
theorem zero_fsub {a : F64} (ha : isFinite a = true) (hz : isZero a = false) : fsub 0 a = fneg a := by
  have hzero : fval 0 = 0 := (fval_eq_zero_iff 0).mpr (by decide)
  rw [fsub_eq_rnQ (by decide) ha, hzero, zero_sub, ← fval_fneg]
  exact rnQ_fval (by simpa) (by simpa) _

/-- Negation undoes itself. -/
theorem fneg_fneg (a : F64) : fneg (fneg a) = a := by
  rw [fneg, fneg, BitVec.xor_assoc, BitVec.xor_self, BitVec.xor_zero]

/-- A zero is one of the two zeros. -/
theorem eq_zeroOf_fsign {a : F64} (hz : isZero a = true) : a = zeroOf (fsign a) := by
  obtain ⟨hexp, hfrac⟩ : fexp a = 0 ∧ ffrac a = 0 := by simpa [isZero] using hz
  conv_lhs => rw [← packWord_fields a, hexp, hfrac]
  rfl

/-- 2Sum of a word and its negation is (+0, +0): a nonzero word comes back exactly in each step, and the two
zeros are computed. -/
theorem twoSum_fneg {a : F64} (ha : isFinite a = true) : twoSum a (fneg a) = ⟨0, 0⟩ := by
  cases hz : isZero a
  · have hn : isFinite (fneg a) = true := by simpa
    have hsum : fadd a (fneg a) = 0 := by
      rw [← fsub_eq_fadd_fneg (isNan_of_finite ha) (isNan_of_finite ha), fsub_self ha]
    have hback : fsub 0 (fneg a) = a := by rw [zero_fsub hn (by simpa), fneg_fneg]
    simp only [twoSum, hsum, zero_fsub ha hz, hback, fsub_self ha, fsub_self hn]
    decide +kernel
  · rw [eq_zeroOf_fsign hz]
    cases fsign a <;> decide +kernel

/-- R127 with both operands the same pair of finite words. -/
theorem ddSub_self {x : DReg} (hh : isFinite x.hi = true) (hl : isFinite x.lo = true) :
    ddSub x x = ⟨0, 0⟩ := by
  simp only [ddSub, ddAdd, twoSum_fneg hh, twoSum_fneg hl]
  decide +kernel

/-! ### An infinite high word (R126, R135) -/

/-- An infinity less itself is a NaN. -/
theorem fsub_self_of_isInf {a : F64} (ha : isInf a = true) : fsub a a = qNaN := by
  have hn := isNan_of_isInf ha
  obtain ⟨both, -, -⟩ := fadd_inf hn ((isNan_fneg a).trans hn)
  rw [fsub_eq_fadd_fneg hn hn, both ha ((isInf_fneg a).trans ha), fsign_fneg, if_neg (by simp)]

/-- An infinite operand makes the error of 2Sum a NaN: the sum is that infinity, and a later step takes it from
itself, or the sum is a NaN already. -/
theorem twoSum_lo_of_isInf {a b : F64} (h : isInf a = true ∨ isInf b = true) : (twoSum a b).lo = qNaN := by
  by_cases hnan : isNan (fadd a b) = true
  · simp [twoSum, hnan]
  have ha : isNan a = false := Bool.eq_false_iff.mpr fun h' => hnan (by simp [h'])
  have hb : isNan b = false := Bool.eq_false_iff.mpr fun h' => hnan (by simp [h'])
  obtain ⟨both, left, right⟩ := fadd_inf ha hb
  cases hia : isInf a
  · have hib : isInf b = true := by simpa [hia] using h
    obtain ⟨-, hminus, -⟩ := fadd_inf hb ((isNan_fneg a).trans ha)
    have hback : fsub b a = b := by
      rw [fsub_eq_fadd_fneg hb ha, hminus hib ((isInf_fneg a).trans hia)]
    simp [twoSum, right hia hib, hback, fsub_self_of_isInf hib]
  · have hsum : fadd a b = a := by
      cases hib : isInf b
      · exact left hia hib
      · rw [both hia hib] at hnan ⊢
        split at hnan
        · next hs => rw [if_pos hs]
        · simp at hnan
    simp [twoSum, hsum, fsub_self_of_isInf hia]

/-- R126 with an infinite high word. -/
theorem ddAdd_of_isInf {x y : DReg} (h : isInf x.hi = true ∨ isInf y.hi = true) :
    ddAdd x y = ⟨qNaN, qNaN⟩ := by
  simp [ddAdd, fast2sum, twoSum_lo_of_isInf h]

/-- Settles O26: the sequences are the commands' own, a word lets nothing through but its mask, and the corner
cases are those of 2Sum on an infinity, on a word and its negation, and on the words the rules name. -/
theorem doubleDoubleAddAndSub : Obligations.DoubleDoubleAddAndSub := by
  refine ⟨fun rd ra rb => ⟨commandWord_r3 _ _ _ _, commandWord_r3 _ _ _ _⟩,
    fun rd ra rb s hah hal hbh hbl =>
      ⟨ddBinary_completes ddAdd rd hah hal hbh hbl, ddBinary_completes ddSub rd hah hal hbh hbl⟩,
    fun rd ra rb s h => ⟨ddBinary_uninit ddAdd rd h, ddBinary_uninit ddSub rd h⟩,
    fun s w d rest hin hop hlow =>
      ⟨_, step_of_not_command hin (decode_ne_ok_of_low_ne_zero hop hlow), faulted_raise _ _⟩,
    by decide +kernel, by decide +kernel, fun _ _ => ddAdd_of_isInf, fun _ => ddSub_self,
    by decide +kernel, by decide +kernel⟩

end Sys2Proof.Machine

/-! The results of the Dyadic128 unit are normalized (spec/42_dyadic128.md R153): each operation ends in a zero
of exponent 0, in `normalize`, or in a triple whose bit 127 is set already, and every mantissa on the way to it
is below 2^128. -/

namespace Sys2Proof.Machine

/-! ### What a completing computation answers (R151, R261) -/

section Ensuring
variable {α β : Type}

/-- Whatever the computation answers without a fault satisfies `P`. -/
def Ensures (P : α → Prop) (c : Except CmdFault α) : Prop := ∀ a, c = .ok a → P a

theorem Ensures.ok {P : α → Prop} {a : α} (h : P a) : Ensures P (.ok a) := by
  rintro _ ⟨⟩
  exact h

theorem Ensures.error {P : α → Prop} {x : CmdFault} : Ensures P (.error x) := nofun

theorem Ensures.trivial {c : Except CmdFault α} : Ensures (fun _ => True) c := fun _ _ => .intro

theorem Ensures.bind {P : α → Prop} {Q : β → Prop} {c : Except CmdFault α} {k : α → Except CmdFault β}
    (hc : Ensures P c) (hk : ∀ a, P a → Ensures Q (k a)) : Ensures Q (c >>= k) := by
  cases c with
  | error x => exact .error
  | ok a => exact hk a (hc a rfl)

/-- A guarded read answers with the guarded value only. -/
theorem ensures_needValid (b : Bool) (v : α) : Ensures (· = v) (needValid b v) :=
  fun w h => ((needValid_ok_iff b v w).mp h).2.symm

/-- A command that answered STATUS 0 raised no fault, so its computation gave the next state. -/
theorem Ensures.of_completed {P : State → Prop} {s u : State} {c : Except CmdFault State}
    (hc : Ensures P c) (h : finish0 s c = .next u) (hout : ∃ rdata, u.output = s.output ++ [⟨0, rdata⟩]) :
    ∃ t, P t ∧ u = t.respond 0 0 := by
  rcases finish0_cases h with ⟨t, hok, hu⟩ | ⟨x, -, rfl⟩
  · exact ⟨t, hc t hok, hu⟩
  · obtain ⟨rdata, hr⟩ := hout
    cases x <;> simp [CmdFault.code] at hr

end Ensuring

/-! ### Normalized triples (R23, R153) -/

/-- A triple as R153 wants a result: the zero of exponent 0, or bit 127 of a 128-bit mantissa set. -/
structure DyNormal (x : Dy) : Prop where
  mant_lt : x.m < 2 ^ 128
  exp_zero : x.m = 0 → x.e = 0
  top_bit : x.m = 0 ∨ 2 ^ 127 ≤ x.m

/-- A register as R153 wants a result. -/
def qCanonical (q : QReg) : Prop := qNormalized q ∧ (q.mant = 0 → q.exp = 0)

/-- A normalized triple is stored as a normalized register. -/
theorem DyNormal.qCanonical {x : Dy} (h : DyNormal x) : qCanonical (regOfDy x) := by
  have hmant : (regOfDy x).mant.toNat = x.m := by
    rw [regOfDy, BitVec.toNat_ofNat, Nat.mod_eq_of_lt h.mant_lt]
  have hzero : (regOfDy x).mant = 0 ↔ x.m = 0 := by
    rw [← BitVec.toNat_inj, hmant]
    rfl
  refine ⟨h.top_bit.imp hzero.mpr fun htop => ?_, fun hm => ?_⟩
  · rw [← BitVec.msb_eq_getLsbD_last (w := 128), BitVec.msb_eq_decide, hmant]
    exact decide_eq_true htop
  · simp [regOfDy, h.exp_zero (hzero.mp hm)]

theorem dyNormal_zero (s : Bool) : DyNormal ⟨s, 0, 0⟩ := ⟨by norm_num, fun _ => rfl, .inl rfl⟩

theorem dyNormal_of_top_bit {s : Bool} {e : Int} {m : Nat} (hlo : 2 ^ 127 ≤ m) (hhi : m < 2 ^ 128) :
    DyNormal ⟨s, e, m⟩ :=
  ⟨hhi, fun h => absurd h (by dsimp only; omega), .inr hlo⟩

/-! ### The helpers and the operations (R154, R155, R160 to R167) -/

theorem ensures_normalize (s : Bool) (e : Int) {m : Nat} (hm : m < 2 ^ 128) :
    Ensures DyNormal (normalize s e m) := by
  intro d hd
  obtain ⟨⟨hlt, -⟩, -, hzero, htop, -⟩ := normalize_ok hm hd
  exact ⟨hlt, hzero, htop⟩

theorem ensures_canon (s : Bool) (e : Int) {m : Nat} (hlo : 2 ^ 127 ≤ m) (hhi : m < 2 ^ 128) :
    Ensures DyNormal (canon s e m) := by
  rcases canon_cases s e m with ⟨-, h⟩ | ⟨-, -, -, h⟩ | ⟨-, -, h⟩ <;> rw [h]
  · exact .ok (dyNormal_zero s)
  · exact .ok (dyNormal_of_top_bit hlo hhi)
  · exact .error

/-- R155: a word's significand is shifted to bit 127, by its leading zeros when it is subnormal and by 75
places from bit 52 otherwise. -/
theorem ensures_fromF64 (w : F64) : Ensures DyNormal (fromF64 w) := by
  have hfrac := ffrac_lt w
  unfold fromF64
  split_ifs with hspecial hzero hsub
  · exact .error
  · exact .ok (dyNormal_zero _)
  · obtain ⟨-, hlo, hhi⟩ := clz128_spec (ffrac w) (by omega) (by omega)
    rw [← Nat.shiftLeft_eq] at hlo hhi
    exact .ok (dyNormal_of_top_bit hlo hhi)
  · refine .ok (dyNormal_of_top_bit ?_ ?_) <;> rw [Nat.shiftLeft_eq] <;> omega

/-- R160: a sum that carries out of bit 127 has it set after the shift by one; every other result is
normalized. -/
theorem ensures_addAligned (sa sb : Bool) (e : Int) {ma mb : Nat} (ha : ma < 2 ^ 128) (hb : mb < 2 ^ 128) :
    Ensures DyNormal (addAligned sa sb e ma mb) := by
  unfold addAligned
  split_ifs with hsign hcarry hequal hle
  · have hhalf : (ma + mb) >>> 1 = (ma + mb) / 2 := Nat.shiftRight_eq_div_pow _ 1
    exact ensures_canon _ _ (by omega) (by omega)
  · exact ensures_normalize _ _ (by omega)
  · exact .ok (dyNormal_zero _)
  · exact ensures_normalize _ _ (by omega)
  · exact ensures_normalize _ _ (by omega)

/-- Aligning a mantissa does not enlarge it. -/
theorem alignShift_lt {m : Nat} (n : Int) (hm : m < 2 ^ 128) : alignShift m n < 2 ^ 128 :=
  (alignShift_eq m n).2.trans_lt hm

theorem ensures_quickAdd {a b : Dy} (ha : a.m < 2 ^ 128) (hb : b.m < 2 ^ 128) :
    Ensures DyNormal (quickAdd a b) := by
  unfold quickAdd
  split_ifs
  · exact ensures_normalize _ _ hb
  · exact ensures_normalize _ _ ha
  · exact ensures_addAligned _ _ _ ha (alignShift_lt _ hb)
  · exact ensures_addAligned _ _ _ (alignShift_lt _ ha) hb

theorem ensures_quickMul {a b : Dy} (ha : a.m < 2 ^ 128) (hb : b.m < 2 ^ 128) :
    Ensures DyNormal (quickMul a b) := by
  unfold quickMul
  split_ifs
  · exact .ok (dyNormal_zero _)
  · refine ensures_normalize _ _ ?_
    rw [Nat.shiftRight_eq_div_pow]
    exact Nat.div_lt_of_lt_mul (Nat.mul_lt_mul'' ha hb)

/-- R163: every step ends with a product, and with no step the seed is the result. -/
theorem ensures_newtonSteps {x : Dy} (hx : x.m < 2 ^ 128) (n : Nat) {y : Dy} (hy : DyNormal y) :
    Ensures DyNormal (newtonSteps n x y) := by
  induction n generalizing y with
  | zero => exact .ok hy
  | succ n ih =>
    exact (ensures_quickMul hx hy.mant_lt).bind fun t ht =>
      (ensures_quickAdd (a := dyTwo) (b := dyNegate t) (by decide) ht.mant_lt).bind fun u hu =>
        (ensures_quickMul hy.mant_lt hu.mant_lt).bind fun _ => ih

theorem ensures_reciprocal (n : Nat) {x : Dy} (hx : x.m < 2 ^ 128) :
    Ensures DyNormal (reciprocal n x) := by
  unfold reciprocal
  dsimp only
  split_ifs
  · exact .error
  · exact .error
  · exact .error
  · exact (ensures_fromF64 _).bind fun _ => ensures_newtonSteps hx n

theorem ensures_dyQuotient (n : Nat) {a b : Dy} (ha : a.m < 2 ^ 128) (hb : b.m < 2 ^ 128) :
    Ensures DyNormal (dyQuotient n a b) :=
  (ensures_reciprocal n hb).bind fun _ hr => ensures_quickMul ha hr.mant_lt

/-- Half of a nonzero mantissa, rounded, is no larger than the mantissa. -/
theorem add_half_shiftRight_le {m : Nat} (hm : m ≠ 0) (k : Nat) : (m + 1 <<< k) >>> (k + 1) ≤ m := by
  rw [Nat.shiftRight_eq_div_pow, Nat.one_shiftLeft, pow_succ]
  refine Nat.div_le_of_le_mul ?_
  calc m + 2 ^ k ≤ 2 ^ k * m + 2 ^ k * m :=
        Nat.add_le_add (Nat.le_mul_of_pos_left m (by positivity))
          (Nat.le_mul_of_pos_right _ (Nat.pos_of_ne_zero hm))
    _ = 2 ^ k * 2 * m := by ring

theorem ensures_dyRound {x : Dy} (hx : x.m < 2 ^ 128) : Ensures DyNormal (dyRound x) := by
  unfold dyRound
  split_ifs with hzero hexp
  · exact .ok (dyNormal_zero _)
  · exact ensures_normalize _ _ hx
  · refine ensures_normalize _ _ ?_
    rw [show (-x.e).toNat = (-x.e - 1).toNat + 1 by omega]
    exact (add_half_shiftRight_le hzero _).trans_lt hx

/-! ### The commands (R151, R153) -/

/-- Every register's mantissa has 128 bits. -/
theorem dyOfReg_mant_lt (q : QReg) : (dyOfReg q).m < 2 ^ 128 := (dyFits_dyOfReg q).1

/-- A completing command of this ending, from `s`, leaves `Q[rd]` normalized. -/
def LeavesNormal (rd : Reg) (s : State) (r : Result) : Prop :=
  ∀ u, r = .next u → (∃ rdata, u.output = s.output ++ [⟨0, rdata⟩]) → qCanonical (rget u.q rd)

/-- A command whose computation ends by storing a normalized triple in `Q[rd]`. -/
theorem leavesNormal_finish0 {rd : Reg} {s : State} {c : Except CmdFault State}
    (hc : Ensures (fun t => qCanonical (rget t.q rd)) c) : LeavesNormal rd s (finish0 s c) := by
  intro u h hout
  obtain ⟨t, ht, rfl⟩ := hc.of_completed h hout
  exact ht

/-- The last step of those computations. -/
theorem ensures_writeQ (rd : Reg) (s : State) {c : Except CmdFault Dy} (hc : Ensures DyNormal c) :
    Ensures (fun t => qCanonical (rget t.q rd)) (c >>= fun r => pure (s.writeQ rd (regOfDy r))) :=
  hc.bind fun r hr => .ok (by simpa using hr.qCanonical)

theorem leavesNormal_dyUnary {op : Dy → Except CmdFault Dy}
    (hop : ∀ {a}, a.m < 2 ^ 128 → Ensures DyNormal (op a)) (rd ra : Reg) (s : State) :
    LeavesNormal rd s (dyUnary op rd ra s) :=
  leavesNormal_finish0 <| Ensures.trivial.bind fun a _ => ensures_writeQ rd s (hop (dyOfReg_mant_lt a))

theorem leavesNormal_dyBinary {op : Dy → Dy → Except CmdFault Dy}
    (hop : ∀ {a b}, a.m < 2 ^ 128 → b.m < 2 ^ 128 → Ensures DyNormal (op a b))
    (rd ra rb : Reg) (s : State) : LeavesNormal rd s (dyBinary op rd ra rb s) :=
  leavesNormal_finish0 <| Ensures.trivial.bind fun a _ => Ensures.trivial.bind fun b _ =>
    ensures_writeQ rd s (hop (dyOfReg_mant_lt a) (dyOfReg_mant_lt b))

theorem leavesNormal_dyFromf (rd ra : Reg) (s : State) : LeavesNormal rd s (execDyFromf rd ra s) :=
  leavesNormal_finish0 <| Ensures.trivial.bind fun w _ => ensures_writeQ rd s (ensures_fromF64 w)

theorem leavesNormal_dyRecipf (rd ra : Reg) (s : State) : LeavesNormal rd s (execDyRecipf rd ra s) :=
  leavesNormal_finish0 <| Ensures.trivial.bind fun w _ => (ensures_fromF64 w).bind fun _ hx =>
    ensures_writeQ rd s (ensures_reciprocal _ hx.mant_lt)

/-- A completing DY.NEG stores its operand with the other sign (R162). -/
theorem dyNeg_stores {rd ra : Reg} {s u : State} (h : exec (.dyNeg rd ra) s = .next u)
    (hout : ∃ rdata, u.output = s.output ++ [⟨0, rdata⟩]) :
    rget u.q rd = { rget s.q ra with sign := !(rget s.q ra).sign } := by
  have hc : Ensures (fun t => rget t.q rd = { rget s.q ra with sign := !(rget s.q ra).sign })
      (readQ s ra >>= fun a => pure (s.writeQ rd { a with sign := !a.sign })) :=
    (ensures_needValid _ _).bind fun a ha => .ok (by simp [ha])
  obtain ⟨t, ht, rfl⟩ := hc.of_completed h hout
  exact ht

/-- Settles O40: each of the eight commands stores what its operation answers, and DY.NEG a copy of its
operand's exponent and mantissa. -/
theorem dyadicResultsAreNormalized : Obligations.DyadicResultsAreNormalized := by
  refine ⟨fun i rd ra rb s u hi h hout => ?_, fun rd ra s u h hout => ?_⟩
  · have normal : LeavesNormal rd s (exec i s) := by
      simp only [List.mem_cons, List.not_mem_nil, or_false] at hi
      rcases hi with rfl | rfl | rfl | rfl | rfl | rfl | rfl | rfl
      · exact leavesNormal_dyFromf rd ra s
      · exact leavesNormal_dyUnary (ensures_normalize _ _) rd ra s
      · exact leavesNormal_dyBinary ensures_quickAdd rd ra rb s
      · exact leavesNormal_dyBinary ensures_quickMul rd ra rb s
      · exact leavesNormal_dyUnary (ensures_reciprocal _) rd ra s
      · exact leavesNormal_dyRecipf rd ra s
      · exact leavesNormal_dyBinary (ensures_dyQuotient _) rd ra rb s
      · exact leavesNormal_dyUnary ensures_dyRound rd ra s
    exact normal u h hout
  · simp [dyNeg_stores h hout, qNormalized]

end Sys2Proof.Machine

/-! RR.IDX, the fold of k into a table index (spec/43_range_reduction.md R197): the remainder of a signed sum
by 256 is its low byte, because 256 divides 2^64. -/

namespace Sys2Proof

/-! ### The words of format RI (R65, R66) -/

/-- A word with its `rb` and `rc` fields zero, as one concatenation. -/
theorem commandWord_ri (op imm8 : BitVec 8) (rd ra : Reg) :
    commandWord op rd ra 0 0 imm8 = op ++ rd ++ ra ++ 0#8 ++ imm8 :=
  congrArg (· ++ imm8) (BitVec.append_assoc (x₁ := op ++ rd ++ ra) (x₂ := 0#4) (x₃ := 0#4))

/-- A word that format RI's mask lets through has the eight bits above its immediate zero. -/
theorem middle_eq_zero_of_masked_ri {w : Cmd} {op : BitVec 8}
    (h : w &&& Format.ri.mask = commandWord op 0 0 0 0 0) : w.extractLsb' 8 8 = 0 := by
  rw [← wordOf_eq_of_masked h, Format.wordOf, commandWord_ri]
  apply BitVec.eq_of_getLsbD_eq
  intro n hn
  rw [BitVec.getLsbD_extractLsb', BitVec.getLsbD_append, BitVec.getLsbD_append]
  simp [hn]

/-- RR.IDX has no word with a bit set between its source field and its immediate. -/
theorem decode_ne_ok_of_middle_ne_zero {w : Cmd} (hop : opOf w = 0x53)
    (hmid : w.extractLsb' 8 8 ≠ 0) (i : Instr) : decode w ≠ .ok i := by
  intro h
  rw [decode, hop] at h
  obtain ⟨hmask, -⟩ := legal_eq_ok_iff.mp h
  exact hmid (middle_eq_zero_of_masked_ri (op := 0x53) hmask)

end Sys2Proof

namespace Sys2Proof.Machine

/-! ### The fold -/

/-- The remainder fits a signed word, so storing it loses nothing. -/
theorem toInt_foldIndex (k : Word) (imm8 : BitVec 8) :
    (foldIndex k imm8).toInt = (k.toInt + imm8.toNat) % 256 := by
  rw [foldIndex, BitVec.toInt_ofInt]
  exact Int.bmod_eq_of_le (by unfold Config.tableLen; omega) (by unfold Config.tableLen; omega)

/-- Masking with 0xFF takes the remainder by 256. -/
theorem toNat_and_0xFF (w : Word) : (w &&& 0xFF).toNat = w.toNat % 256 :=
  Nat.and_two_pow_sub_one_eq_mod w.toNat 8

/-- The signed and the unsigned reading of k differ by a multiple of 2^64, and so does the sum from its word:
256 divides both differences. -/
theorem foldIndex_eq_lowByte (k : Word) (imm8 : BitVec 8) :
    foldIndex k imm8 = (k + imm8.setWidth 64) &&& 0xFF := by
  have hlow : ((k + imm8.setWidth 64) &&& 0xFF).toNat = (k.toNat + imm8.toNat) % 256 := by
    rw [toNat_and_0xFF, BitVec.toNat_add, BitVec.toNat_setWidth]
    omega
  have hsigned : (k.toInt + imm8.toNat) % 256 = (((k.toNat + imm8.toNat) % 256 : ℕ) : ℤ) := by
    rw [BitVec.toInt_eq_toNat_cond]
    split <;> omega
  apply BitVec.eq_of_toInt_eq
  rw [toInt_foldIndex, hsigned, BitVec.toInt_eq_toNat_of_lt (by omega), hlow]

/-! ### How the command ends (R26, R197) -/

/-- With its source written, RR.IDX stores the fold. -/
theorem rrIdx_completes (rd : Reg) {ra : Reg} (imm8 : BitVec 8) {s : State}
    (hv : s.valid (.k ra) = true) :
    ∃ u, exec (.rrIdx rd ra imm8) s = .next u ∧
      Completed s u [(.k rd, foldIndex (s.component (.k ra)) imm8)] s.sr 0 := by
  refine ⟨_, ?_, completed_writeK s rd _ s.sr⟩
  rw [exec, execRrIdx, readK_eq, hv]
  rfl

/-- With its source unwritten, RR.IDX raises Uninit. -/
theorem rrIdx_uninit (rd : Reg) {ra : Reg} (imm8 : BitVec 8) {s : State}
    (hv : s.valid (.k ra) = false) :
    ∃ u, exec (.rrIdx rd ra imm8) s = .next u ∧ Faulted s u .uninit := by
  refine ⟨_, ?_, faulted_raise s .uninit⟩
  rw [exec, execRrIdx, readK_eq, hv]
  rfl

/-- Settles O53: the command stores the fold, which is the remainder of the signed sum and so its low byte, and
a word lets nothing through but its mask. -/
theorem indexFoldIsTheRemainder : Obligations.IndexFoldIsTheRemainder := by
  refine ⟨fun rd ra imm8 s hv => ?_, fun rd ra imm8 s => rrIdx_uninit rd imm8,
    fun s w d rest hin hop hmid =>
      ⟨_, step_of_not_command hin (decode_ne_ok_of_middle_ne_zero hop hmid), faulted_raise _ _⟩,
    fun rd ra imm8 => commandWord_ri _ _ _ _, by decide⟩
  obtain ⟨u, hu, hc⟩ := rrIdx_completes rd imm8 hv
  have hval := toInt_foldIndex (s.component (.k ra)) imm8
  exact ⟨u, _, hu, hc, hval, by omega, by omega, foldIndex_eq_lowByte _ _⟩

end Sys2Proof.Machine

/-! The escalation mux and the rest of the unit (spec/44_escalation_mux.md R212, R218): ZIV.BEGIN starts a call
in every state, and outside the mux PHASE, ACC and ESC are carried through a command unread. -/

namespace Sys2Proof.Machine

/-! ### ZIV.BEGIN (R212) -/

/-- A command that wrote SR and nothing else. -/
theorem completed_setSr (s : State) (sr : Status) : Completed s ((s.setSr sr).respond 0 0) [] sr 0 :=
  ⟨by simp, by simp, rfl, rfl, rfl, rfl⟩

/-- On SR's word: bits 4:0 become 1, every other bit stays. -/
theorem beginCall_toWord (sr : Status) : sr.beginCall.toWord = (sr.toWord &&& ~~~0x1F) ||| 1 := by
  apply BitVec.eq_of_getLsbD_eq
  intro n hn
  rw [BitVec.getLsbD_or, BitVec.getLsbD_and, toWord_getLsbD, toWord_getLsbD]
  interval_cases n <;> simp [Status.beginCall, Phase.code]

/-- Settles O54: the command is the completion that stores `beginCall`, whose word is 1 where only bits 4:0
were set. -/
theorem beginStartsACall : Obligations.BeginStartsACall := by
  refine ⟨fun s => ⟨_, rfl, completed_setSr s _⟩, by decide, fun s u hword hu => ?_⟩
  obtain rfl : (s.setSr s.sr.beginCall).respond 0 0 = u := Host.Outcome.next.inj hu
  calc s.sr.beginCall.toWord
      = (s.sr.toWord &&& ~~~0x1F) ||| 1 := beginCall_toWord s.sr
    _ = 0x01 := by rw [hword]; decide

/-! ### What outside the mux PHASE, ACC and ESC do (R218) -/

/-- `s` with PHASE, ACC and ESC replaced. -/
def State.withCall (s : State) (p : Phase) (a e : Bool) : State :=
  s.setSr { s.sr with phase := p, acc := a, esc := e }

/-- Raising a fault neither reads nor changes them (R262). -/
theorem raise_withCall (s : State) (x : CmdFault) (p : Phase) (a e : Bool) :
    (s.withCall p a e).raise x = (s.raise x).withCall p a e := by
  cases x <;> rfl

/-- The ending `r'` is the ending `r` with PHASE, ACC and ESC replaced. -/
def SameButCall (p : Phase) (a e : Bool) (r r' : Result) : Prop :=
  ∀ t, r = .next t → r' = .next (t.withCall p a e)

section Endings
variable {s : State} {p : Phase} {a e : Bool}

/-- A fault: nothing the command computed is kept. -/
theorem SameButCall.fails {x : CmdFault} :
    SameButCall p a e (finish0 s (.error x)) (finish0 (s.withCall p a e) (.error x)) := by
  rintro _ ⟨⟩
  rw [finish0_error, raise_withCall]

/-- A completion that computed the same state but for the three fields, and the same data. -/
theorem SameButCall.returns {t : State} {w : Word} :
    SameButCall p a e (finish s (.ok (t, w))) (finish (s.withCall p a e) (.ok (t.withCall p a e, w))) := by
  rintro _ ⟨⟩
  rfl

/-- The same for a command that returns no data. -/
theorem SameButCall.completes {t : State} :
    SameButCall p a e (finish0 s (.ok t)) (finish0 (s.withCall p a e) (.ok (t.withCall p a e))) :=
  .returns

/-- A move-from command: one guarded read, then its data returned. -/
theorem SameButCall.moveFrom {m : Except CmdFault Word} :
    SameButCall p a e (finish s (m >>= fun v => pure (s, v)))
      (finish (s.withCall p a e) (m >>= fun v => pure (s.withCall p a e, v))) := by
  cases m with
  | error x => exact .fails
  | ok v => exact .returns

/-- A read or a computation that is the same on both sides, in front of a command's end. -/
theorem SameButCall.bind {α : Type} {m : Except CmdFault α} {k k' : α → Except CmdFault State}
    (h : ∀ v, SameButCall p a e (finish0 s (k v)) (finish0 (s.withCall p a e) (k' v))) :
    SameButCall p a e (finish0 s (m >>= k)) (finish0 (s.withCall p a e) (m >>= k')) := by
  cases m with
  | error x => exact .fails
  | ok v => exact h v

/-- A test that is the same on both sides, in front of a command's end. -/
theorem SameButCall.ite {b : Prop} [Decidable b] {c c' d d' : Except CmdFault State}
    (ht : SameButCall p a e (finish0 s c) (finish0 (s.withCall p a e) c'))
    (hf : SameButCall p a e (finish0 s d) (finish0 (s.withCall p a e) d')) :
    SameButCall p a e (finish0 s (if b then c else d))
      (finish0 (s.withCall p a e) (if b then c' else d')) := by
  split
  · exact ht
  · exact hf

end Endings

/-- Outside the mux a command's reads, tests and writes are the same whatever PHASE, ACC and ESC hold. -/
theorem exec_sameButCall {i : Instr} (s : State) (p : Phase) (a e : Bool) (hz : isZiv i = false)
    (hsr : i ≠ .mfsr) : SameButCall p a e (exec i s) (exec i (s.withCall p a e)) := by
  cases i with
  | nop | mtf | mtdh | mtdl | mtqh | mtql | mtqe | mtk | ldc => exact .completes (s := s)
  | mff | mfdh | mfdl | mfqh | mfql | mfqe | mfk => exact .moveFrom
  | mfsr => exact absurd rfl hsr
  | mfcfg => exact .returns (s := s)
  | ldcd => exact .ite .completes .fails
  | ddHi | ddLo | ddSqrt | ddRecip | dyNeg | dyTof | rrIdx => exact .bind fun _ => .completes
  | ddPack | ddXadd | ddXsub | ddFxadd | ddXmul | ddAdd | ddSub | ddMul | ddQmul | ddMulf | ddDiv
  | dyFromf | dyNorm | dyRecip | dyRnd =>
    exact .bind fun _ => .bind fun _ => .completes
  | dyAdd | dyMul | dyDiv | dyRecipf => exact .bind fun _ => .bind fun _ => .bind fun _ => .completes
  | rrSmall => exact .bind fun _ => .ite .completes .fails
  | rrLarge | rrLargeq => exact .bind fun _ => .ite .fails .completes
  | zivBegin | zivBound | zivTest | zivFallback => cases hz

/-- Settles O18, command by command. -/
theorem phaseMattersOnlyToTheMux : Obligations.PhaseMattersOnlyToTheMux :=
  fun _ s t p a e hz hsr => exec_sameButCall s p a e hz hsr t

end Sys2Proof.Machine

/-! NOP and the reads of SR and CFG (spec/45_transfer_control.md R231, R245, R246): three commands without
operands, so each has one word, and each ends at once in the state it found. -/

namespace Sys2Proof

/-! ### The words of format Z (R65, R66) -/

/-- Format Z has no operand field: a decoder compares all 32 bits. -/
theorem and_mask_z (w : Cmd) : w &&& Format.z.mask = w := BitVec.and_allOnes

/-- NOP, MFSR and MFCFG have no word with a bit set below the opcode. -/
theorem decode_ne_ok_of_operands_ne_zero {w : Cmd}
    (hop : opOf w = 0x00 ∨ opOf w = 0x0F ∨ opOf w = 0x10) (hlow : w.extractLsb' 0 24 ≠ 0) (i : Instr) :
    decode w ≠ .ok i := by
  intro h
  rcases hop with hop | hop | hop <;>
  · rw [decode, hop] at h
    obtain ⟨hword, -⟩ := legal_eq_ok_iff.mp h
    rw [and_mask_z] at hword
    exact hlow (by rw [hword]; decide)

end Sys2Proof

namespace Sys2Proof.Machine

/-! ### SR's word (R30) -/

/-- The three low bits of SR's word are PHASE. -/
theorem toWord_extract_phase (sr : Status) : sr.toWord.extractLsb' 0 3 = sr.phase.code := by
  apply BitVec.eq_of_getLsbD_eq
  intro n hn
  rw [BitVec.getLsbD_extractLsb', Nat.zero_add, toWord_getLsbD]
  simp [hn]

/-! ### How the three commands end (R231, R245, R246) -/

theorem nop_completes (s : State) : ∃ t, exec .nop s = .next t ∧ Completed s t [] s.sr 0 :=
  ⟨_, rfl, completed_none s 0⟩

theorem mfsr_completes (s : State) :
    ∃ t, exec .mfsr s = .next t ∧ Completed s t [] s.sr s.sr.toWord :=
  ⟨_, rfl, completed_none s _⟩

/-- CFG's word for this instance's parameters (R36). -/
theorem cfgWord_eq : cfgWord = 0x0000010000801007 := by decide

theorem mfcfg_completes (s : State) :
    ∃ t, exec .mfcfg s = .next t ∧ Completed s t [] s.sr 0x0000010000801007 := by
  rw [← cfgWord_eq]
  exact ⟨_, rfl, completed_none s _⟩

/-- Settles O22: the three commands complete in every state and write nothing, any other word of their opcodes
is no command, and SR's word is read bit by bit. -/
theorem nopAndTheControlRegisterReads : Obligations.NopAndTheControlRegisterReads := by
  refine ⟨nop_completes, mfsr_completes, mfcfg_completes, by decide, by decide, by decide,
    fun s w d rest hin hop hlow =>
      ⟨_, step_of_not_command hin (decode_ne_ok_of_operands_ne_zero hop hlow), faulted_raise _ _⟩,
    by decide, by decide, fun sr => ?_⟩
  exact ⟨toWord_extract_phase sr, toWord_getLsbD sr 3, toWord_getLsbD sr 4, toWord_getLsbD sr 8,
    toWord_getLsbD sr 9, toWord_getLsbD sr 10, toWord_getLsbD sr 11, toWord_getLsbD sr 12,
    toWord_getLsbD sr 13⟩

end Sys2Proof.Machine

/-! The fault Sequence (spec/60_exceptions.md R264): the phase check comes before every read, and nothing else
in the machine raises it. -/

namespace Sys2Proof.Machine

/-! ### Computations that do not raise Sequence -/

section
variable {α β : Type}

/-- The computation may fail, but not with Sequence. -/
def NoSequence (c : Except CmdFault α) : Prop := c ≠ .error .sequence

theorem NoSequence.ok {a : α} : NoSequence (.ok a) := nofun

theorem NoSequence.error {x : CmdFault} (h : x ≠ .sequence) : NoSequence (.error x : Except CmdFault α) :=
  fun hx => h (Except.error.inj hx)

theorem NoSequence.bind {c : Except CmdFault α} {k : α → Except CmdFault β} (hc : NoSequence c)
    (hk : ∀ a, NoSequence (k a)) : NoSequence (c >>= k) := by
  cases c with
  | error x => exact .error fun hx => hc (congrArg _ hx)
  | ok a => exact hk a

theorem NoSequence.ite {b : Prop} [Decidable b] {c d : Except CmdFault α} (hc : NoSequence c)
    (hd : NoSequence d) : NoSequence (if b then c else d) := by
  split
  · exact hc
  · exact hd

/-- A read raises Uninit only (R265). -/
theorem NoSequence.read {b : Bool} {v : α} : NoSequence (needValid b v) := by
  intro h
  obtain ⟨-, hx⟩ := (needValid_error_iff b v _).mp h
  cases hx

/-- The phase check passes in its own phase. -/
theorem NoSequence.inPhase {s : State} {p : Phase} (h : s.sr.phase = p) : NoSequence (requirePhase s p) := by
  rw [requirePhase_pass h]
  exact .ok

end

/-! ### The operations of the Dyadic128 unit raise Domain and ExpRange only (R154 to R167) -/

theorem noSequence_canon (s : Bool) (e : Int) (m : Nat) : NoSequence (canon s e m) :=
  .ite .ok (.ite (.error nofun) .ok)

theorem noSequence_normalize (s : Bool) (e : Int) (m : Nat) : NoSequence (normalize s e m) :=
  .ite .ok (noSequence_canon _ _ _)

theorem noSequence_fromF64 (w : F64) : NoSequence (fromF64 w) :=
  .ite (.error nofun) (.ite .ok (.ite .ok .ok))

theorem noSequence_addAligned (sa sb : Bool) (e : Int) (ma mb : Nat) :
    NoSequence (addAligned sa sb e ma mb) :=
  .ite (.ite (noSequence_canon _ _ _) (noSequence_normalize _ _ _))
    (.ite .ok (.ite (noSequence_normalize _ _ _) (noSequence_normalize _ _ _)))

theorem noSequence_quickAdd (a b : Dy) : NoSequence (quickAdd a b) :=
  .ite (noSequence_normalize _ _ _) (.ite (noSequence_normalize _ _ _)
    (.ite (noSequence_addAligned _ _ _ _ _) (noSequence_addAligned _ _ _ _ _)))

theorem noSequence_quickMul (a b : Dy) : NoSequence (quickMul a b) :=
  .ite .ok (noSequence_normalize _ _ _)

theorem noSequence_newtonSteps (n : Nat) (x y : Dy) : NoSequence (newtonSteps n x y) := by
  induction n generalizing y with
  | zero => exact .ok
  | succ n ih =>
    exact .bind (noSequence_quickMul _ _) fun _ => .bind (noSequence_quickAdd _ _) fun _ =>
      .bind (noSequence_quickMul _ _) ih

theorem noSequence_reciprocal (iters : Nat) (x : Dy) : NoSequence (reciprocal iters x) :=
  .ite (.error nofun) (.ite (.error nofun) (.ite (.error nofun)
    (.bind (noSequence_fromF64 _) (noSequence_newtonSteps iters x))))

theorem noSequence_dyQuotient (iters : Nat) (a b : Dy) : NoSequence (dyQuotient iters a b) :=
  .bind (noSequence_reciprocal _ _) fun _ => noSequence_quickMul _ _

theorem noSequence_dyRound (x : Dy) : NoSequence (dyRound x) :=
  .ite .ok (.ite (noSequence_normalize _ _ _) (noSequence_normalize _ _ _))

/-! ### Commands that do not raise Sequence -/

theorem CmdFault.code_ne_zero (x : CmdFault) : x.code ≠ 0 := by
  cases x <;> decide

theorem CmdFault.code_injective : Function.Injective CmdFault.code := by
  intro x y
  cases x <;> cases y <;> decide

/-- The fault a command is seen to raise is the one its computation failed with: the STATUS of the response
tells them apart. -/
theorem eq_error_of_faulted {s t : State} {c : Except CmdFault (State × Word)} {x : CmdFault}
    (h : finish s c = .next t) (hf : Faulted s t x) : c = .error x := by
  have hresp := hf.response
  rcases finish_cases h with ⟨u, w, -, rfl⟩ | ⟨y, rfl, rfl⟩
  · obtain ⟨-, hlast⟩ := List.append_inj' hresp rfl
    obtain ⟨hcode, -⟩ : 0 = x.code ∧ w = 0 := by simpa using hlast
    exact absurd hcode.symm x.code_ne_zero
  · have hcode : y.code = x.code := by simpa using hresp
    rw [CmdFault.code_injective hcode]

/-- From `s` the command ends as a computation that does not raise Sequence. -/
def EndsWithoutSequence (s : State) (r : Result) : Prop := ∃ c, r = finish s c ∧ NoSequence c

theorem EndsWithoutSequence.finish {s : State} {c : Except CmdFault (State × Word)} (hc : NoSequence c) :
    EndsWithoutSequence s (finish s c) :=
  ⟨c, rfl, hc⟩

theorem EndsWithoutSequence.finish0 {s : State} {c : Except CmdFault State} (hc : NoSequence c) :
    EndsWithoutSequence s (finish0 s c) :=
  .finish (.bind hc fun _ => .ok)

theorem EndsWithoutSequence.not_faulted {s t : State} {r : Result} (h : EndsWithoutSequence s r)
    (hr : r = .next t) : ¬ Faulted s t .sequence := by
  obtain ⟨c, rfl, hc⟩ := h
  exact fun hf => hc (eq_error_of_faulted hr hf)

/-- A command that needs no phase, or finds the one it needs, ends without Sequence. -/
theorem exec_endsWithoutSequence {i : Instr} {s : State} (hp : ∀ p, phaseOf i = some p → s.sr.phase = p) :
    EndsWithoutSequence s (exec i s) := by
  cases i with
  | nop | mtf | mtdh | mtdl | mtqh | mtql | mtqe | mtk | ldc | zivBegin => exact .finish0 .ok
  | mff | mfdh | mfdl | mfqh | mfql | mfqe | mfk => exact .finish (.bind .read fun _ => .ok)
  | mfsr | mfcfg => exact .finish (c := .ok (s, _)) .ok
  | ldcd => exact .finish0 (.ite .ok (.error nofun))
  | ddHi | ddLo | ddSqrt | ddRecip | dyNeg | dyTof | rrIdx => exact .finish0 (.bind .read fun _ => .ok)
  | ddPack | ddXadd | ddXsub | ddFxadd | ddXmul | ddAdd | ddSub | ddMul | ddQmul | ddMulf | ddDiv =>
    exact .finish0 (.bind .read fun _ => .bind .read fun _ => .ok)
  | dyFromf => exact .finish0 (.bind .read fun _ => .bind (noSequence_fromF64 _) fun _ => .ok)
  | dyNorm => exact .finish0 (.bind .read fun _ => .bind (noSequence_normalize _ _ _) fun _ => .ok)
  | dyRecip => exact .finish0 (.bind .read fun _ => .bind (noSequence_reciprocal _ _) fun _ => .ok)
  | dyRnd => exact .finish0 (.bind .read fun _ => .bind (noSequence_dyRound _) fun _ => .ok)
  | dyAdd =>
    exact .finish0 (.bind .read fun _ => .bind .read fun _ => .bind (noSequence_quickAdd _ _) fun _ => .ok)
  | dyMul =>
    exact .finish0 (.bind .read fun _ => .bind .read fun _ => .bind (noSequence_quickMul _ _) fun _ => .ok)
  | dyDiv =>
    exact .finish0 (.bind .read fun _ => .bind .read fun _ =>
      .bind (noSequence_dyQuotient _ _ _) fun _ => .ok)
  | dyRecipf =>
    exact .finish0 (.bind .read fun _ => .bind (noSequence_fromF64 _) fun _ =>
      .bind (noSequence_reciprocal _ _) fun _ => .ok)
  | rrSmall => exact .finish0 (.bind .read fun _ => .ite .ok (.error nofun))
  | rrLarge | rrLargeq => exact .finish0 (.bind .read fun _ => .ite (.error nofun) .ok)
  | zivBound =>
    exact .finish0 (.bind (.inPhase (hp .fast rfl)) fun _ => .bind .read fun _ => .bind .read fun _ =>
      .bind .read fun _ => .ok)
  | zivTest =>
    exact .finish0 (.bind (.inPhase (hp .bound rfl)) fun _ => .bind .read fun _ => .bind .read fun _ =>
      .ite .ok .ok)
  | zivFallback =>
    exact .finish0 (.bind (.inPhase (hp .escalate rfl)) fun _ => .bind .read fun _ => .ok)

/-! ### Out of phase (R211, R264) -/

/-- A phase check that fails ends the command, whatever would come after it. -/
theorem finish0_out_of_phase {s : State} {p : Phase} (h : s.sr.phase ≠ p)
    (k : Unit → Except CmdFault State) :
    ∃ t, finish0 s (requirePhase s p >>= k) = .next t ∧ Faulted s t .sequence := by
  rw [requirePhase_fail h]
  exact ⟨_, rfl, faulted_raise s .sequence⟩

/-- Settles O17: each of the three commands begins with its phase check, and a command whose check, if it has
one, passes does not raise Sequence. -/
theorem outOfPhaseCommandRaisesSequence : Obligations.OutOfPhaseCommandRaisesSequence := by
  refine ⟨fun rd ra rb rc s h => finish0_out_of_phase h _, fun rd ra rb s h => finish0_out_of_phase h _,
    fun rd ra s h => finish0_out_of_phase h _, fun i s t hexec hf => ?_, rfl,
    ⟨_, rfl, by decide, by decide⟩⟩
  by_contra hin
  have hpass : ∀ p, phaseOf i = some p → s.sr.phase = p := by simpa using hin
  exact (exec_endsWithoutSequence hpass).not_faulted hexec hf

end Sys2Proof.Machine

/-! The decoder and the step (spec/30_encoding.md R70 to R77, spec/70_reset_and_hazards.md R284): the round trip,
the reserved opcodes, and how a transaction is run. -/

namespace Sys2Proof

/-- Settles O1: the row of a command's opcode accepts the command's word and reads its fields back. -/
theorem decodeOfEncodeIsTheCommand : Obligations.DecodeOfEncodeIsTheCommand := decode_encode

/-- Settles O2: a row accepts only words whose other bits are zero, and those are encodings. -/
theorem encodeOfDecodeIsTheWord : Obligations.EncodeOfDecodeIsTheWord := fun _ _ => isWordOf_of_decode

/-! ### Reserved opcodes (R74) -/

/-- R74's ranges of opcodes. -/
def isReserved (op : BitVec 8) : Bool :=
  (0x16 ≤ op.toNat && op.toNat ≤ 0x1F) || (0x24 ≤ op.toNat && op.toNat ≤ 0x2F)
    || (0x38 ≤ op.toNat && op.toNat ≤ 0x3F) || (0x4A ≤ op.toNat && op.toNat ≤ 0x4F)
    || (0x54 ≤ op.toNat && op.toNat ≤ 0x5F) || 0x64 ≤ op.toNat

/-- A command's opcode is not reserved. -/
theorem isReserved_opcode (i : Instr) : isReserved i.opcode = false := by
  cases i <;> rfl

/-- An opcode over zeros is a command's word when the opcode is in no range. -/
theorem exists_decode_of_not_isReserved :
    ∀ op : BitVec 8, isReserved op = false → (decode (op ++ 0#24)).isOk = true := by
  decide

/-- The opcode of an opcode over zeros. -/
theorem opOf_append_zero (op : BitVec 8) : opOf (op ++ 0#24) = op := by
  rw [opOf]
  apply BitVec.eq_of_getLsbD_eq
  intro n hn
  rw [BitVec.getLsbD_extractLsb', BitVec.getLsbD_append]
  simp [hn]

/-- The word of a command carries the command's opcode. -/
theorem opcode_of_decode {w : Cmd} {i : Instr} (h : decode w = .ok i) : i.opcode = opOf w := by
  obtain ⟨-, rfl⟩ := isWordOf_of_decode h
  exact (opOf_encode i).symm

/-- The reserved opcodes are the ones no command has. -/
theorem isReserved_iff (op : BitVec 8) : isReserved op = true ↔ ∀ i : Instr, i.opcode ≠ op := by
  constructor
  · rintro h i rfl
    rw [isReserved_opcode] at h
    cases h
  · intro h
    by_contra hop
    have hok := exists_decode_of_not_isReserved op (Bool.eq_false_iff.mpr hop)
    cases hdec : decode (op ++ 0#24) with
    | error e => rw [hdec] at hok; cases hok
    | ok i => exact h i ((opcode_of_decode hdec).trans (opOf_append_zero op))

/-- Settles O4: an opcode outside the ranges over zeros is a command's word, and every command's opcode is
outside them. -/
theorem reservedOpcodesAreIllegal : Obligations.ReservedOpcodesAreIllegal :=
  ⟨by decide +kernel, isReserved_iff, fun _ w _ _ hin hop =>
    ⟨_, Machine.step_of_not_command hin fun i hi => (isReserved_iff (opOf w)).mp hop i (opcode_of_decode hi),
      Machine.faulted_raise _ _⟩⟩

/-- Settles O5, word by word. -/
theorem specWordsDecodeAsWritten : Obligations.SpecWordsDecodeAsWritten :=
  ⟨rfl, rfl, rfl, rfl, rfl, rfl, rfl, rfl, rfl, rfl, rfl, rfl, nofun, nofun, nofun, nofun⟩

end Sys2Proof

namespace Sys2Proof.Machine

/-! ### One step (R6, R7, R284) -/

/-- A step on a word that is a command runs the command. -/
theorem step_of_command {s : State} {w : Cmd} {d : Word} {rest : List Transaction} {i : Instr}
    (hin : s.input = ⟨w, d⟩ :: rest) (hw : decode w = .ok i) :
    step s = exec i { s with input := rest, wdata := d } := by
  unfold step
  rw [takeTransaction_cons hin]
  simp only [hw]

/-- With nothing sent the unit waits. -/
theorem step_of_nothing {s : State} (hin : s.input = []) : step s = .next s := by
  unfold step
  rw [takeTransaction_nil hin]

/-- A 32-bit word is sent as it is. -/
theorem withFetchWord_input (s : State) (w : Cmd) :
    (s.withFetchWord 32 w.toNat).input = ⟨w, s.wdata⟩ :: s.input := by
  have hw : BitVec.ofNat 32 (w.toNat % 2 ^ 32) = w := by
    rw [Nat.mod_eq_of_lt w.isLt, BitVec.ofNat_toNat, BitVec.setWidth_eq]
  rw [State.withFetchWord, hw]

/-- Settles O6: taking the transaction sent in front of a state's input gives the state back. -/
theorem stepRunsTheDecodedCommand : Obligations.StepRunsTheDecodedCommand :=
  ⟨fun _ _ _ _ _ => step_of_command, fun _ => step_of_nothing, fun s i hi =>
    step_of_command (withFetchWord_input s (encode i)) (decode_encode i hi)⟩

end Sys2Proof.Machine

/-! The invariants of a step and the frame of a command (spec/10_state.md R25, R27, R30 to R33, R36,
spec/44_escalation_mux.md R211, R220, spec/60_exceptions.md R260 to R262), from what a command can do. -/

namespace Sys2Proof.Machine

/-! ### The phase machine (R31, R32, R211, R220) -/

/-- The legal values of SR[4:0], by the fields: before a call, in the fast tier, accepted, rejected, and
returned through the fallback. -/
theorem srLegal_iff (sr : Status) :
    srLegal sr ↔ match sr.phase with
      | .idle | .fast | .bound => sr.acc = false ∧ sr.esc = false
      | .test => False
      | .escalate => sr.acc = false ∧ sr.esc = true
      | .done => sr.acc = !sr.esc := by
  have hbits : sr.toWord.extractLsb' 0 5 = BitVec.ofBool sr.esc ++ BitVec.ofBool sr.acc ++ sr.phase.code := by
    apply BitVec.eq_of_getLsbD_eq
    intro n hn
    rw [BitVec.getLsbD_extractLsb', toWord_getLsbD, BitVec.getLsbD_append, BitVec.getLsbD_append]
    interval_cases n <;> simp
  rw [srLegal, hbits]
  generalize sr.phase = phase, sr.acc = acc, sr.esc = esc
  cases phase <;> cases acc <;> cases esc <;> decide

/-- A command that completes keeps SR[4:0] legal. -/
theorem SrAfter.legal {sr sr' : Status} {i : Instr} (h : SrAfter sr i sr') (hl : srLegal sr) :
    srLegal sr' := by
  rw [srLegal_iff] at *
  cases h with
  | kept => exact hl
  | converted => exact hl
  | begun => exact ⟨rfl, rfl⟩
  | bounded _ _ _ _ hp => rw [hp] at hl; exact hl
  | accepted _ _ _ hp =>
    rw [hp] at hl
    obtain ⟨-, hesc⟩ := hl
    simp [Status.accepted, Status.testing, hesc]
  | rejected _ _ _ hp =>
    rw [hp] at hl
    obtain ⟨hacc, -⟩ := hl
    simp [Status.rejected, Status.testing, hacc]
  | returned _ _ _ hp =>
    rw [hp] at hl
    obtain ⟨hacc, hesc⟩ := hl
    simp [Status.returned, Status.noteOverflow, hacc, hesc]

/-- A fault keeps SR[4:0] legal. -/
theorem srLegal_record {sr : Status} (x : CmdFault) (hl : srLegal sr) : srLegal (sr.record x) := by
  rw [srLegal_iff] at *
  simpa using hl

/-- However a command ends, the invariant is kept. -/
theorem CommandEnds.phaseInvariant {i : Instr} {s t : State} (h : CommandEnds i s (.next t))
    (hs : phaseInvariant s) : phaseInvariant t := by
  cases h with
  | completes hc _ hsr =>
    rw [Machine.phaseInvariant, hc.status]
    exact hsr.legal hs
  | faults x => exact srLegal_record x hs

/-- Settles O10: a step keeps SR, or ends as a command does, or raises Illegal. -/
theorem stepKeepsThePhaseInvariant : Obligations.StepKeepsThePhaseInvariant := by
  intro s t hs h
  rcases step_cases h with ⟨-, rfl⟩ | ⟨cmd, u, hu, hend⟩
  · exact hs
  · have hu' : phaseInvariant u := by
      rw [phaseInvariant, (takeTransaction_keeps hu).1]
      exact hs
    rcases hend with ⟨i, -, hi⟩ | ⟨-, -, rfl⟩
    · exact hi.phaseInvariant hu'
    · exact srLegal_record .illegal hu'

/-- Settles O11: SR is 0 at reset. -/
theorem phaseInvariantHoldsAtReset : Obligations.PhaseInvariantHoldsAtReset :=
  (srLegal_iff _).mpr ⟨rfl, rfl⟩

/-- Settles O19: every valid bit is read from a file that holds `false` everywhere; the rest are words. -/
theorem resetIsAsSpecified : Obligations.ResetIsAsSpecified := by
  refine ⟨fun c => ?_, by decide, cfgWord_eq, rfl, rfl, rfl, rfl⟩
  cases c <;> exact rget_replicate false _

/-! ### Valid bits (R25) -/

/-- Taking a transaction leaves the valid bits. -/
theorem takeTransaction_valid {s u : State} {cmd : Cmd} (h : s.takeTransaction = some (cmd, u))
    (c : Component) : u.valid c = s.valid c := by
  unfold State.takeTransaction at h
  split at h
  · cases h
  · cases h
    cases c <;> rfl

/-- A completion sets valid bits and clears none. -/
theorem Completed.valid_mono {s t : State} {writes : List (Component × Word)} {sr : Status} {rdata : Word}
    (h : Completed s t writes sr rdata) {c : Component} (hc : s.valid c = true) : t.valid c = true := by
  by_cases hw : c ∈ writes.map Prod.fst
  · obtain ⟨p, hp, rfl⟩ := List.mem_map.mp hw
    exact (h.written p hp).2
  · rw [(h.untouched c hw).2, hc]

/-- Settles O13: a completion sets valid bits only, and a fault leaves them. -/
theorem validBitsStaySet : Obligations.ValidBitsStaySet := by
  intro s t c h hc
  rcases step_cases h with ⟨-, rfl⟩ | ⟨cmd, u, hu, hend⟩
  · exact hc
  · have hcu : u.valid c = true := (takeTransaction_valid hu c).trans hc
    rcases hend with ⟨i, -, hi⟩ | ⟨-, -, rfl⟩
    · cases hi with
      | completes hcomp => exact hcomp.valid_mono hcu
      | faults x => exact (valid_raise u x c).trans hcu
    · exact (valid_raise u .illegal c).trans hcu

/-! ### Responses and faults (R260, R262) -/

/-- A status code is at most 5. -/
theorem CmdFault.code_le (x : CmdFault) : x.code.toNat ≤ 5 := by
  cases x <;> decide

/-- A response as R260 wants it: a status code of at most 5, no data with a fault. -/
def LegalResponse (r : Response) : Prop := r.status.toNat ≤ 5 ∧ (r.status ≠ 0 → r.rdata = 0)

/-- Raising a fault returns one response. -/
theorem raise_responds (s : State) (x : CmdFault) :
    ∃ r, (s.raise x).output = s.output ++ [r] ∧ LegalResponse r :=
  ⟨_, rfl, x.code_le, fun _ => rfl⟩

/-- However a command ends, it returns one response and leaves the host's pending transactions. -/
theorem CommandEnds.responds {i : Instr} {s t : State} (h : CommandEnds i s (.next t)) :
    t.input = s.input ∧ ∃ r, t.output = s.output ++ [r] ∧ LegalResponse r := by
  cases h with
  | completes hc => exact ⟨hc.pending.1, _, hc.response, Nat.zero_le _, fun h => absurd rfl h⟩
  | faults x => exact ⟨rfl, raise_responds s x⟩

/-- Every command ends in a next state (R286, R290). -/
theorem exec_next (i : Instr) (s : State) : ∃ t, exec i s = .next t := by
  generalize hr : exec i s = r
  cases hr ▸ exec_ends i s with
  | completes => exact ⟨_, rfl⟩
  | faults => exact ⟨_, rfl⟩

/-- Every step is a next state. -/
theorem step_next (s : State) : ∃ t, step s = .next t := by
  unfold step
  split
  · exact ⟨_, rfl⟩
  · split
    · exact exec_next _ _
    · exact ⟨_, rfl⟩

/-- Settles O7: both endings of a command return one response, and so does Illegal on a word that is none. -/
theorem everyTransactionGetsOneResponse : Obligations.EveryTransactionGetsOneResponse := by
  refine ⟨step_next, fun s t x rest hin h => ?_⟩
  have htake := takeTransaction_cons (w := x.cmd) (d := x.wdata) hin
  rcases step_cases h with ⟨hnone, -⟩ | ⟨cmd, u, hu, hend⟩
  · rw [htake] at hnone
    cases hnone
  · obtain ⟨rfl, rfl⟩ : x.cmd = cmd ∧ { s with input := rest, wdata := x.wdata } = u := by
      simpa [htake] using hu
    rcases hend with ⟨i, -, hi⟩ | ⟨-, -, rfl⟩
    · exact hi.responds
    · exact ⟨rfl, raise_responds _ _⟩

/-- The five fault bits of SR's word. -/
theorem toWord_extract_faults (sr : Status) : sr.toWord.extractLsb' 9 5 =
    BitVec.ofBool sr.expr ++ BitVec.ofBool sr.dom ++ BitVec.ofBool sr.uninit ++ BitVec.ofBool sr.seq
      ++ BitVec.ofBool sr.ill := by
  apply BitVec.eq_of_getLsbD_eq
  intro n hn
  rw [BitVec.getLsbD_extractLsb', toWord_getLsbD]
  simp only [BitVec.getLsbD_append, BitVec.getLsbD_ofBool]
  interval_cases n <;> simp

/-- A fault sets no bit of SR's word below bit 9. -/
theorem record_extract_low (sr : Status) (x : CmdFault) :
    (sr.record x).toWord.extractLsb' 0 9 = sr.toWord.extractLsb' 0 9 := by
  apply BitVec.eq_of_getLsbD_eq
  intro n hn
  simp only [BitVec.getLsbD_extractLsb', toWord_getLsbD, record_phase, record_acc, record_esc, record_ovf]
  interval_cases n <;> rfl

/-- Settles O8: the two endings of a command. -/
theorem faultsDoNothingElse : Obligations.FaultsDoNothingElse := by
  intro i s t h
  cases h ▸ exec_ends i s with
  | completes hc _ hsr =>
    obtain ⟨hill, hseq, huninit, hdom, hexpr⟩ := hsr.faultBits
    refine .inl ⟨_, hc.response, ?_⟩
    rw [hc.status, toWord_extract_faults, toWord_extract_faults, hill, hseq, huninit, hdom, hexpr]
  | faults x => exact .inr ⟨x, faulted_raise s x, record_extract_low s.sr x⟩

/-! ### The frame of a command (R27, R30, R211) -/

/-- A completing command changes PHASE, ACC, ESC and OF as its row says. -/
theorem SrAfter.frame {sr sr' : Status} {i : Instr} (h : SrAfter sr i sr') :
    (isZiv i = false → sr'.phase = sr.phase) ∧
    (mnemonicOf i ∉ ["ZIV.BEGIN", "ZIV.TEST"] → sr'.acc = sr.acc ∧ sr'.esc = sr.esc) ∧
    (mnemonicOf i ∉ ["DY.TOF", "ZIV.FALLBACK"] → sr'.ovf = sr.ovf) := by
  cases h with
  | kept => exact ⟨fun _ => rfl, fun _ => ⟨rfl, rfl⟩, fun _ => rfl⟩
  | converted => exact ⟨fun _ => rfl, fun _ => ⟨rfl, rfl⟩, fun h => absurd (by simp [mnemonicOf]) h⟩
  | begun => exact ⟨nofun, fun h => absurd (by simp [mnemonicOf]) h, fun _ => rfl⟩
  | bounded => exact ⟨nofun, fun _ => ⟨rfl, rfl⟩, fun _ => rfl⟩
  | accepted | rejected => exact ⟨nofun, fun h => absurd (by simp [mnemonicOf]) h, fun _ => rfl⟩
  | returned => exact ⟨nofun, fun _ => ⟨rfl, rfl⟩, fun h => absurd (by simp [mnemonicOf]) h⟩

/-- A bit of SR's word that a fault changes is the bit of the fault. -/
theorem bit_of_record_ne {sr : Status} {x : CmdFault} {n : Nat}
    (h : (sr.record x).toWord.getLsbD n ≠ sr.toWord.getLsbD n) : n = 8 + x.code.toNat := by
  rw [record_toWord, BitVec.getLsbD_or, BitVec.getLsbD_shiftLeft, BitVec.getLsbD_one] at h
  by_contra hn
  apply h
  have hbit : ¬ (8 + x.code.toNat ≤ n ∧ n - (8 + x.code.toNat) = 0) := by omega
  simp only [Bool.or_eq_left_iff_imp, Bool.and_eq_true, decide_eq_true_eq, Bool.not_eq_true',
    decide_eq_false_iff_not]
  intro hc
  exact absurd ⟨by omega, by omega⟩ hbit

/-- Settles O15: a completion changes its destinations and its own fields of SR, a fault its own bit. -/
theorem onlyDestinationsChange : Obligations.OnlyDestinationsChange := by
  intro i s t h
  cases h ▸ exec_ends i s with
  | completes hc hd hsr =>
    obtain ⟨hphase, hcall, hovf⟩ := hsr.frame
    obtain ⟨hill, hseq, huninit, hdom, hexpr⟩ := hsr.faultBits
    obtain ⟨hin, hw⟩ := hc.pending
    rw [hc.status]
    refine ⟨fun c hnot => hc.untouched c fun hmem => hnot (hd hmem), hphase, hcall, hovf, fun n h9 h13 hne => ?_,
      hin, hw⟩
    refine absurd ?_ hne
    rw [toWord_getLsbD, toWord_getLsbD, hill, hseq, huninit, hdom, hexpr]
    interval_cases n <;> rfl
  | faults x =>
    exact ⟨fun c _ => (faulted_raise s x).untouched c, fun _ => record_phase _ _,
      fun _ => ⟨record_acc _ _, record_esc _ _⟩, fun _ => record_ovf _ _,
      fun n _ _ hne => ⟨x, bit_of_record_ne hne, faulted_raise s x⟩, rfl, rfl⟩

/-! ### ESC, ACC and the fallback (R220) -/

/-- What ZIV.TEST answers in phase BOUND: the test's two outcomes, or Uninit. -/
theorem zivTest_cases {rd ra rb : Reg} {s u : State} (hp : s.sr.phase = .bound)
    (h : exec (.zivTest rd ra rb) s = .next u) :
    (feq (zivUpper (s.dreg ra) (s.component (.f rb))) (zivLower (s.dreg ra) (s.component (.f rb))) = true ∧
        u.sr = s.sr.testing.accepted) ∨
    (feq (zivUpper (s.dreg ra) (s.component (.f rb))) (zivLower (s.dreg ra) (s.component (.f rb))) = false ∧
        u.sr = s.sr.testing.rejected) ∨
    u = s.raise .uninit := by
  rw [exec, execZivTest, requirePhase_pass hp, readD_eq, readF_eq] at h
  cases hd : s.valid (.dh ra) && s.valid (.dl ra)
  · rw [hd] at h
    cases h
    exact .inr (.inr rfl)
  cases hf : s.valid (.f rb)
  · rw [hd, hf] at h
    cases h
    exact .inr (.inr rfl)
  rw [hd, hf] at h
  cases htest : feq (zivUpper (s.dreg ra) (s.component (.f rb))) (zivLower (s.dreg ra) (s.component (.f rb)))
  · refine .inr (.inl ⟨rfl, ?_⟩)
    have hu := h.symm.trans (congrArg (finish0 s) (if_neg (Bool.eq_false_iff.mp htest)))
    cases hu
    rfl
  · refine .inl ⟨rfl, ?_⟩
    have hu := h.symm.trans (congrArg (finish0 s) (if_pos htest))
    cases hu
    rfl

/-- A completion does not raise a fault as well. -/
theorem not_completed_raise {s : State} {x : CmdFault} :
    ¬ ∃ rdata, (s.raise x).output = s.output ++ [⟨0, rdata⟩] := by
  rintro ⟨rdata, h⟩
  exact x.code_ne_zero (by simpa using congrArg (·.getLast?.map Response.status) h)

/-- Settles O59: only ZIV.TEST's two exits set the bits, and a legal SR in phase ESCALATE has ESC alone. -/
theorem fallbackNeedsARejection : Obligations.FallbackNeedsARejection := by
  refine ⟨fun rd ra s u hinv h hout => ?_, fun i s u h h0 h1 => ?_, fun i s u h h0 h1 => ?_⟩
  · cases h ▸ exec_ends _ s with
    | completes _ _ hsr =>
      cases hsr with
      | kept hz => cases hz
      | returned _ _ _ hp =>
        rw [phaseInvariant, srLegal_iff, hp] at hinv
        exact ⟨hinv.2, hinv.1⟩
    | faults x => exact absurd hout not_completed_raise
  · cases h ▸ exec_ends i s with
    | completes hc _ hsr =>
      rw [hc.status] at h1
      cases hsr with
      | kept => simp [h0] at h1
      | converted | bounded | accepted | returned =>
        simp [Status.noteOverflow, Status.bounded, Status.testing, Status.accepted, Status.returned, h0] at h1
      | begun => cases h1
      | rejected rd ra rb hp =>
        refine ⟨rd, ra, rb, rfl, hp, ?_⟩
        rcases zivTest_cases hp h with ⟨-, hu⟩ | ⟨hrej, -⟩ | rfl
        · rw [← hc.status, hu] at h1
          simp [Status.testing, Status.accepted, h0] at h1
        · exact hrej
        · simp [← hc.status, h0] at h1
    | faults x => simp [h0] at h1
  · cases h ▸ exec_ends i s with
    | completes hc _ hsr =>
      rw [hc.status] at h1
      cases hsr with
      | kept => simp [h0] at h1
      | converted | bounded | rejected | returned =>
        simp [Status.noteOverflow, Status.bounded, Status.testing, Status.rejected, Status.returned, h0] at h1
      | begun => cases h1
      | accepted rd ra rb hp =>
        refine ⟨rd, ra, rb, rfl, hp, ?_⟩
        rcases zivTest_cases hp h with ⟨hacc, -⟩ | ⟨-, hu⟩ | rfl
        · exact hacc
        · rw [← hc.status, hu] at h1
          simp [Status.testing, Status.rejected, h0] at h1
        · simp [← hc.status, h0] at h1
    | faults x => simp [h0] at h1

end Sys2Proof.Machine

/-! Unwritten contents (spec/70_reset_and_hazards.md R281): two states that differ in nothing but contents no
command may read go through a command alike, because every read is guarded by the valid bits of what it
reads. -/

namespace Sys2Proof.Machine

/-! ### Completions that write part of a register (R27, R234, R235, R238 to R240) -/

theorem completed_writeDHi (s : State) (r : Reg) (h : F64) :
    Completed s ((s.writeDHi r h).respond 0 0) [(.dh r, h)] s.sr 0 :=
  ⟨by simp, by simp +contextual, by simp, by simp, by simp⟩

theorem completed_writeDLo (s : State) (r : Reg) (l : F64) :
    Completed s ((s.writeDLo r l).respond 0 0) [(.dl r, l)] s.sr 0 :=
  ⟨by simp, by simp +contextual, by simp, by simp, by simp⟩

theorem completed_writeQHi (s : State) (r : Reg) (h : Word) :
    Completed s ((s.writeQHi r h).respond 0 0) [(.qh r, h)] s.sr 0 :=
  ⟨by simp, by simp +contextual, by simp, by simp, by simp⟩

theorem completed_writeQLo (s : State) (r : Reg) (l : Word) :
    Completed s ((s.writeQLo r l).respond 0 0) [(.ql r, l)] s.sr 0 :=
  ⟨by simp, by simp +contextual, by simp, by simp, by simp⟩

theorem completed_writeQE (s : State) (r : Reg) (b : Bool) (e : BitVec 16) :
    Completed s ((s.writeQE r b e).respond 0 0) [(.qe r, 0#47 ++ BitVec.ofBool b ++ e)] s.sr 0 :=
  ⟨by simp, by simp +contextual, by simp, by simp, by simp⟩

/-! ### States that agree read alike and end alike (R26, R27, R262) -/

/-- Guarded reads that agree. -/
theorem needValid_congr {α : Type} {b b' : Bool} {v v' : α} (hb : b = b') (hv : b = true → v = v') :
    needValid b v = needValid b' v' := by
  subst hb
  cases b
  · exact (needValid_false v).trans (needValid_false v').symm
  · rw [hv rfl]

section Agree
variable {s t : State} (h : AgreeOnValid s t)
include h

/-- The same writes, SR and response keep two states in agreement. -/
theorem AgreeOnValid.completed {s' t' : State} {writes : List (Component × Word)} {sr sr' : Status}
    {rdata rdata' : Word} (hs : Completed s s' writes sr rdata) (ht : Completed t t' writes sr' rdata')
    (hsr : sr = sr') (hrdata : rdata = rdata') : AgreeOnValid s' t' where
  valid c := by
    by_cases hc : c ∈ writes.map Prod.fst
    · obtain ⟨p, hp, rfl⟩ := List.mem_map.mp hc
      rw [(hs.written p hp).2, (ht.written p hp).2]
    · rw [(hs.untouched c hc).2, (ht.untouched c hc).2, h.valid c]
  content c hv := by
    by_cases hc : c ∈ writes.map Prod.fst
    · obtain ⟨p, hp, rfl⟩ := List.mem_map.mp hc
      rw [(hs.written p hp).1, (ht.written p hp).1]
    · rw [(hs.untouched c hc).2] at hv
      rw [(hs.untouched c hc).1, (ht.untouched c hc).1, h.content c hv]
  status := by rw [hs.status, ht.status, hsr]
  output := by rw [hs.response, ht.response, h.output, hrdata]
  pending := by rw [hs.pending.1, hs.pending.2, ht.pending.1, ht.pending.2]; exact h.pending

/-- The same fault keeps two states in agreement. -/
theorem AgreeOnValid.raise (x : CmdFault) : AgreeOnValid (s.raise x) (t.raise x) where
  valid c := by simpa using h.valid c
  content c hv := by simpa using h.content c (by simpa using hv)
  status := by rw [State.raise_sr, State.raise_sr, h.status]
  output := by rw [State.raise_output, State.raise_output, h.output]
  pending := h.pending

/-- The valid bits of a read agree, and what it reads agrees where they are set. -/
theorem AgreeOnValid.readF (r : Reg) : readF s r = readF t r :=
  needValid_congr (h.valid (.f r)) (h.content (.f r))

theorem AgreeOnValid.readK (r : Reg) : readK s r = readK t r :=
  needValid_congr (h.valid (.k r)) (h.content (.k r))

theorem AgreeOnValid.readDHi (r : Reg) : readDHi s r = readDHi t r :=
  needValid_congr (h.valid (.dh r)) (h.content (.dh r))

theorem AgreeOnValid.readDLo (r : Reg) : readDLo s r = readDLo t r :=
  needValid_congr (h.valid (.dl r)) (h.content (.dl r))

theorem AgreeOnValid.readQHi (r : Reg) : readQHi s r = readQHi t r :=
  needValid_congr (h.valid (.qh r)) (h.content (.qh r))

theorem AgreeOnValid.readQLo (r : Reg) : readQLo s r = readQLo t r :=
  needValid_congr (h.valid (.ql r)) (h.content (.ql r))

theorem AgreeOnValid.readQE (r : Reg) : readQE s r = readQE t r :=
  needValid_congr (h.valid (.qe r)) (h.content (.qe r))

theorem AgreeOnValid.readD (r : Reg) : readD s r = readD t r := by
  rw [readD_eq, readD_eq]
  refine needValid_congr (by rw [h.valid, h.valid]) fun hv => ?_
  obtain ⟨hh, hl⟩ := Bool.and_eq_true_iff.mp hv
  rw [h.content _ hh, h.content _ hl]

theorem AgreeOnValid.readQ (r : Reg) : readQ s r = readQ t r := by
  rw [readQ_eq, readQ_eq]
  refine needValid_congr (by rw [h.valid, h.valid, h.valid]) fun hv => ?_
  obtain ⟨hhl, he⟩ := Bool.and_eq_true_iff.mp hv
  obtain ⟨hh, hl⟩ := Bool.and_eq_true_iff.mp hhl
  exact qreg_ext (h.content _ hh) (h.content _ hl) (h.content _ he)

theorem AgreeOnValid.requirePhase (p : Phase) : requirePhase s p = requirePhase t p := by
  rw [Machine.requirePhase, Machine.requirePhase, h.status]

end Agree

/-- Two endings in next states that agree. -/
def EndAlike (r r' : Result) : Prop := ∃ s' t', r = .next s' ∧ r' = .next t' ∧ AgreeOnValid s' t'

section Endings
variable {s t : State} (h : AgreeOnValid s t)
include h

theorem EndAlike.fails {x : CmdFault} : EndAlike (finish0 s (.error x)) (finish0 t (.error x)) :=
  ⟨_, _, rfl, rfl, h.raise x⟩

theorem EndAlike.completes {u v : State} {writes : List (Component × Word)} {sr sr' : Status}
    (hs : Completed s (u.respond 0 0) writes sr 0) (ht : Completed t (v.respond 0 0) writes sr' 0)
    (hsr : sr = sr') : EndAlike (finish0 s (.ok u)) (finish0 t (.ok v)) :=
  ⟨_, _, rfl, rfl, h.completed hs ht hsr rfl⟩

/-- A command that returns data and changes nothing. -/
theorem EndAlike.returns {w w' : Word} (hw : w = w') :
    EndAlike (finish s (.ok (s, w))) (finish t (.ok (t, w'))) :=
  ⟨_, _, rfl, rfl, h.completed (completed_none s w) (completed_none t w') h.status hw⟩

/-- A move-from command: one guarded read, then its data returned. -/
theorem EndAlike.moveFrom {m m' : Except CmdFault Word} (hm : m = m') :
    EndAlike (finish s (m >>= fun v => pure (s, v))) (finish t (m' >>= fun v => pure (t, v))) := by
  subst hm
  cases m with
  | error x => exact .fails h
  | ok v => exact .returns h rfl

/-- A read, a check or a computation with one outcome, in front of a command's end. -/
theorem EndAlike.bind {α : Type} {m m' : Except CmdFault α} {k k' : α → Except CmdFault State} (hm : m = m')
    (hk : ∀ a, EndAlike (finish0 s (k a)) (finish0 t (k' a))) :
    EndAlike (finish0 s (m >>= k)) (finish0 t (m' >>= k')) := by
  subst hm
  cases m with
  | error x => exact .fails h
  | ok a => exact hk a

omit h in
/-- A test with one outcome, in front of a command's end. -/
theorem EndAlike.ite {b : Prop} [Decidable b] {c c' d d' : Except CmdFault State}
    (ht : EndAlike (finish0 s c) (finish0 t c')) (hf : EndAlike (finish0 s d) (finish0 t d')) :
    EndAlike (finish0 s (if b then c else d)) (finish0 t (if b then c' else d')) := by
  split
  · exact ht
  · exact hf

theorem EndAlike.setSr {sr sr' : Status} (hsr : sr = sr') :
    EndAlike (finish0 s (.ok (s.setSr sr))) (finish0 t (.ok (t.setSr sr'))) :=
  .completes h (completed_setSr s sr) (completed_setSr t sr') hsr

theorem EndAlike.writeF_setSr {r : Reg} {v : F64} {sr sr' : Status} (hsr : sr = sr') :
    EndAlike (finish0 s (.ok ((s.writeF r v).setSr sr))) (finish0 t (.ok ((t.writeF r v).setSr sr'))) :=
  .completes h (completed_writeF s r v sr) (completed_writeF t r v sr') hsr

theorem EndAlike.writeF {r : Reg} {v : F64} :
    EndAlike (finish0 s (.ok (s.writeF r v))) (finish0 t (.ok (t.writeF r v))) :=
  .writeF_setSr h h.status

theorem EndAlike.writeD {r : Reg} {v : DReg} :
    EndAlike (finish0 s (.ok (s.writeD r v))) (finish0 t (.ok (t.writeD r v))) :=
  .completes h (completed_writeD s r v s.sr) (completed_writeD t r v t.sr) h.status

theorem EndAlike.writeQ {r : Reg} {v : QReg} :
    EndAlike (finish0 s (.ok (s.writeQ r v))) (finish0 t (.ok (t.writeQ r v))) :=
  .completes h (completed_writeQ s r v s.sr) (completed_writeQ t r v t.sr) h.status

theorem EndAlike.writeK {r : Reg} {v : Word} :
    EndAlike (finish0 s (.ok (s.writeK r v))) (finish0 t (.ok (t.writeK r v))) :=
  .completes h (completed_writeK s r v s.sr) (completed_writeK t r v t.sr) h.status

end Endings

/-- States that agree go through a command alike: its checks and its computation see the same. -/
theorem exec_endAlike (i : Instr) {s t : State} (h : AgreeOnValid s t) : EndAlike (exec i s) (exec i t) := by
  obtain ⟨-, hw⟩ := h.pending
  have writeD_writeK {rd rc : Reg} {v : DReg} {k : Word} :
      EndAlike (finish0 s (.ok ((s.writeD rd v).writeK rc k))) (finish0 t (.ok ((t.writeD rd v).writeK rc k))) :=
    .completes h (completed_writeD_writeK s rd rc v k) (completed_writeD_writeK t rd rc v k) h.status
  cases i with
  | nop => exact .setSr h h.status
  | mtf rd =>
    simp only [exec, execMtf, hw]
    exact .writeF h
  | mtdh rd =>
    simp only [exec, execMtdh, hw]
    exact .completes h (completed_writeDHi s rd _) (completed_writeDHi t rd _) h.status
  | mtdl rd =>
    simp only [exec, execMtdl, hw]
    exact .completes h (completed_writeDLo s rd _) (completed_writeDLo t rd _) h.status
  | mtqh rd =>
    simp only [exec, execMtqh, hw]
    exact .completes h (completed_writeQHi s rd _) (completed_writeQHi t rd _) h.status
  | mtql rd =>
    simp only [exec, execMtql, hw]
    exact .completes h (completed_writeQLo s rd _) (completed_writeQLo t rd _) h.status
  | mtqe rd =>
    simp only [exec, execMtqe, hw]
    exact .completes h (completed_writeQE s rd _ _) (completed_writeQE t rd _ _) h.status
  | mtk rd =>
    simp only [exec, execMtk, hw]
    exact .writeK h
  | mff ra => exact .moveFrom h (h.readF ra)
  | mfdh ra => exact .moveFrom h (h.readDHi ra)
  | mfdl ra => exact .moveFrom h (h.readDLo ra)
  | mfqh ra => exact .moveFrom h (h.readQHi ra)
  | mfql ra => exact .moveFrom h (h.readQLo ra)
  | mfqe ra => exact .moveFrom h (h.readQE ra)
  | mfk ra => exact .moveFrom h (h.readK ra)
  | mfsr => exact .returns h (congrArg Status.toWord h.status)
  | mfcfg => exact .returns h rfl
  | ldc => exact .writeF h
  | ldcd => exact .ite (.writeD h) (.fails h)
  | ddPack _ ra rb | ddXadd _ ra rb | ddXsub _ ra rb | ddFxadd _ ra rb | ddXmul _ ra rb =>
    exact .bind h (h.readF ra) fun _ => .bind h (h.readF rb) fun _ => .writeD h
  | ddHi _ ra => exact .bind h (h.readDHi ra) fun _ => .writeF h
  | ddLo _ ra => exact .bind h (h.readDLo ra) fun _ => .writeF h
  | ddAdd _ ra rb | ddSub _ ra rb | ddMul _ ra rb | ddQmul _ ra rb | ddDiv _ ra rb =>
    exact .bind h (h.readD ra) fun _ => .bind h (h.readD rb) fun _ => .writeD h
  | ddMulf _ ra rb => exact .bind h (h.readD ra) fun _ => .bind h (h.readF rb) fun _ => .writeD h
  | ddSqrt _ ra | ddRecip _ ra => exact .bind h (h.readD ra) fun _ => .writeD h
  | dyFromf _ ra => exact .bind h (h.readF ra) fun _ => .bind h rfl fun _ => .writeQ h
  | dyTof _ ra => exact .bind h (h.readQ ra) fun _ => .writeF_setSr h (by rw [h.status])
  | dyNorm _ ra | dyRecip _ ra | dyRnd _ ra =>
    exact .bind h (h.readQ ra) fun _ => .bind h rfl fun _ => .writeQ h
  | dyAdd _ ra rb | dyMul _ ra rb | dyDiv _ ra rb =>
    exact .bind h (h.readQ ra) fun _ => .bind h (h.readQ rb) fun _ => .bind h rfl fun _ => .writeQ h
  | dyNeg _ ra => exact .bind h (h.readQ ra) fun _ => .writeQ h
  | dyRecipf _ ra =>
    exact .bind h (h.readF ra) fun _ => .bind h rfl fun _ => .bind h rfl fun _ => .writeQ h
  | rrSmall _ ra _ => exact .bind h (h.readF ra) fun _ => .ite writeD_writeK (.fails h)
  | rrLarge _ ra _ => exact .bind h (h.readF ra) fun _ => .ite (.fails h) writeD_writeK
  | rrLargeq rd ra rc =>
    exact .bind h (h.readF ra) fun _ => .ite (.fails h)
      (.completes h (completed_writeQ_writeK s rd rc _ _) (completed_writeQ_writeK t rd rc _ _) h.status)
  | rrIdx _ ra _ => exact .bind h (h.readK ra) fun _ => .writeK h
  | zivBegin => exact .setSr h (congrArg Status.beginCall h.status)
  | zivBound _ ra rb rc =>
    exact .bind h (h.requirePhase _) fun _ => .bind h (h.readD ra) fun _ => .bind h (h.readF rb) fun _ =>
      .bind h (h.readF rc) fun _ => .writeF_setSr h (congrArg Status.bounded h.status)
  | zivTest _ ra rb =>
    exact .bind h (h.requirePhase _) fun _ => .bind h (h.readD ra) fun _ => .bind h (h.readF rb) fun _ =>
      .ite (.writeF_setSr h (congrArg (·.testing.accepted) h.status))
        (.setSr h (congrArg (·.testing.rejected) h.status))
  | zivFallback _ ra =>
    exact .bind h (h.requirePhase _) fun _ => .bind h (h.readQ ra) fun _ =>
      .writeF_setSr h (by rw [h.status])

/-! ### Steps and runs (R281) -/

/-- Taking the same transaction keeps two states in agreement. -/
theorem AgreeOnValid.take {s t : State} (h : AgreeOnValid s t) (rest : List Transaction) (d : Word) :
    AgreeOnValid { s with input := rest, wdata := d } { t with input := rest, wdata := d } where
  valid c := by simpa only [State.valid] using h.valid c
  content c hv := by simpa only [State.component] using h.content c (by simpa only [State.valid] using hv)
  status := h.status
  output := h.output
  pending := ⟨rfl, rfl⟩

/-- States that agree go through a step alike. -/
theorem step_endAlike {s t : State} (h : AgreeOnValid s t) : EndAlike (step s) (step t) := by
  obtain ⟨hin, -⟩ := h.pending
  cases hs : s.input with
  | nil => exact ⟨s, t, step_of_nothing hs, step_of_nothing (hin ▸ hs), h⟩
  | cons tx rest =>
    have hs' : s.input = ⟨tx.cmd, tx.wdata⟩ :: rest := hs
    have ht' : t.input = ⟨tx.cmd, tx.wdata⟩ :: rest := hin ▸ hs
    have htake := h.take rest tx.wdata
    cases hdec : decode tx.cmd with
    | ok i =>
      rw [step_of_command hs' hdec, step_of_command ht' hdec]
      exact exec_endAlike i htake
    | error e =>
      have hno : ∀ i, decode tx.cmd ≠ .ok i := fun i hi => by rw [hdec] at hi; cases hi
      exact ⟨_, _, step_of_not_command hs' hno, step_of_not_command ht' hno, htake.raise _⟩

/-- A run begins with its first step. -/
theorem run_succ {M : Host.Core} {s s' : M.State} (h : M.step s = .next s') (n : Nat) :
    M.run (n + 1) s = M.run n s' := by
  rw [Host.Core.run, h]

/-- Settles O14: by induction on the number of steps, each of which keeps the agreement. -/
theorem unwrittenContentsAreUnobservable : Obligations.UnwrittenContentsAreUnobservable := by
  intro n
  induction n with
  | zero => exact fun s t h => ⟨s, t, rfl, rfl, h⟩
  | succ n ih =>
    intro s t h
    obtain ⟨s₁, t₁, hs, ht, h₁⟩ := step_endAlike h
    obtain ⟨s', t', hs', ht', h'⟩ := ih s₁ t₁ h₁
    exact ⟨s', t', (run_succ (M := Sys2Proof.core) hs n).trans hs',
      (run_succ (M := Sys2Proof.core) ht n).trans ht', h'⟩

end Sys2Proof.Machine

/-! Commands that move words (spec/45_transfer_control.md R230 to R252) and the sequences of the double-double
unit (spec/41_double_double.md R120 to R135): with its sources written, a command stores what its rule
computes from them. -/

namespace Sys2Proof

/-- A word whose fields below `rd` are zero, as one concatenation (format D, R66). -/
theorem commandWord_d (op : BitVec 8) (rd : Reg) : commandWord op rd 0 0 0 0 = op ++ rd ++ 0#20 := by
  apply BitVec.eq_of_getLsbD_eq
  intro n hn
  rw [getLsbD_commandWord, BitVec.getLsbD_append, BitVec.getLsbD_append]
  interval_cases n <;> simp

end Sys2Proof

namespace Sys2Proof.Machine

/-! ### Reads of written registers (R26) -/

section Reads
variable {s : State} {r : Reg}

theorem readF_of_valid (h : s.valid (.f r) = true) : readF s r = .ok (s.component (.f r)) := by
  rw [readF_eq, h, needValid_true]

theorem readDHi_of_valid (h : s.valid (.dh r) = true) : readDHi s r = .ok (s.component (.dh r)) := by
  rw [readDHi_eq, h, needValid_true]

theorem readDLo_of_valid (h : s.valid (.dl r) = true) : readDLo s r = .ok (s.component (.dl r)) := by
  rw [readDLo_eq, h, needValid_true]

theorem readD_of_valid (hh : s.valid (.dh r) = true) (hl : s.valid (.dl r) = true) :
    readD s r = .ok ⟨s.component (.dh r), s.component (.dl r)⟩ := by
  rw [readD_eq, hh, hl, Bool.and_self, needValid_true]

theorem readQ_of_valid (hh : s.valid (.qh r) = true) (hl : s.valid (.ql r) = true)
    (he : s.valid (.qe r) = true) : readQ s r = .ok (rget s.q r) := by
  rw [readQ_eq, hh, hl, he, Bool.and_self, Bool.and_self, needValid_true]

end Reads

/-! ### Move-to commands (R232, R234, R235, R238 to R240, R244) -/

/-- The sign-and-exponent component that MTQE stores: the low 17 bits of the data word. -/
theorem qe_of_wdata (w : Word) :
    0#47 ++ BitVec.ofBool (w.getLsbD 16) ++ w.extractLsb' 0 16 = w &&& 0x000000000001FFFF := by
  apply BitVec.eq_of_getLsbD_eq
  intro n hn
  rw [BitVec.getLsbD_append, BitVec.getLsbD_append, BitVec.getLsbD_ofBool, BitVec.getLsbD_extractLsb',
    BitVec.getLsbD_and]
  interval_cases n <;> simp

/-- Settles O20: each command is the completion of one write. -/
theorem moveToCommandsStoreTheDataWord : Obligations.MoveToCommandsStoreTheDataWord := fun rd s =>
  ⟨⟨commandWord_d _ _, _, rfl, completed_writeF s rd _ s.sr⟩,
    ⟨commandWord_d _ _, _, rfl, completed_writeDHi s rd _⟩,
    ⟨commandWord_d _ _, _, rfl, completed_writeDLo s rd _⟩,
    ⟨commandWord_d _ _, _, rfl, completed_writeQHi s rd _⟩,
    ⟨commandWord_d _ _, _, rfl, completed_writeQLo s rd _⟩,
    ⟨commandWord_d _ _, _, rfl, qe_of_wdata s.wdata ▸ completed_writeQE s rd _ _⟩,
    ⟨commandWord_d _ _, _, rfl, completed_writeK s rd _ s.sr⟩⟩

/-! ### Move-from commands (R233, R236, R237, R241 to R243, R252) -/

/-- A guarded read whose valid bit is 1, then its data returned. -/
theorem moveFrom_completes {s : State} {b : Bool} {v : Word} (hb : b = true) :
    ∃ t, finish s (needValid b v >>= fun v => pure (s, v)) = .next t ∧ Completed s t [] s.sr v := by
  rw [hb, needValid_true]
  exact ⟨_, rfl, completed_none s v⟩

/-- Settles O21: each command is one guarded read of its component. -/
theorem moveFromCommandsReturnTheComponent : Obligations.MoveFromCommandsReturnTheComponent := fun _ _ =>
  ⟨moveFrom_completes, moveFrom_completes, moveFrom_completes, moveFrom_completes, moveFrom_completes,
    moveFrom_completes, moveFrom_completes⟩

/-! ### ROM loads (R53, R247, R248) -/

/-- LDCD's two word indices, in the width of an index. -/
theorem pair_indices (p : BitVec 8) :
    2 * p + 1 = BitVec.ofNat 8 (2 * p.toNat + 1) ∧ 2 * p = BitVec.ofNat 8 (2 * p.toNat) := by
  constructor <;> apply BitVec.eq_of_toNat_eq <;> simp [BitVec.toNat_add, BitVec.toNat_mul]

/-- Settles O23: LDCD's test of its index is the only one. -/
theorem romLoadsCopyTheWords : Obligations.RomLoadsCopyTheWords := by
  refine ⟨fun rd imm8 s => ⟨_, rfl, completed_writeF s rd _ s.sr⟩, fun rd p s hp => ?_, fun rd p s hp => ?_⟩
  · obtain ⟨hhi, hlo⟩ := pair_indices p
    rw [exec, execLdcd, if_pos hp, hhi, hlo]
    exact ⟨_, rfl, completed_writeD s rd _ s.sr⟩
  · rw [exec, execLdcd, if_neg (by omega)]
    exact ⟨_, rfl, faulted_raise s .illegal⟩

/-! ### Packing and unpacking (R249 to R251) -/

/-- Settles O24. -/
theorem packAndUnpackMoveWords : Obligations.PackAndUnpackMoveWords := by
  refine ⟨fun rd ra rb s ha hb => ?_, fun rd ra s h => ?_, fun rd ra s h => ?_⟩
  · rw [exec, execDdPack, readF_of_valid ha, readF_of_valid hb]
    exact ⟨_, rfl, completed_writeD s rd _ s.sr⟩
  · rw [exec, execDdHi, readDHi_of_valid h]
    exact ⟨_, rfl, completed_writeF s rd _ s.sr⟩
  · rw [exec, execDdLo, readDLo_of_valid h]
    exact ⟨_, rfl, completed_writeF s rd _ s.sr⟩

/-! ### How the commands of the double-double unit complete (R120) -/

/-- With both source words written, the command stores the pair its operation gives. -/
theorem ddFromWords_completes (op : F64 → F64 → DReg) (rd : Reg) {ra rb : Reg} {s : State}
    (ha : s.valid (.f ra) = true) (hb : s.valid (.f rb) = true) :
    let r := op (s.component (.f ra)) (s.component (.f rb))
    ∃ u, ddFromWords op rd ra rb s = .next u ∧ Completed s u [(.dh rd, r.hi), (.dl rd, r.lo)] s.sr 0 := by
  refine ⟨_, ?_, completed_writeD s rd _ s.sr⟩
  rw [ddFromWords, readF_of_valid ha, readF_of_valid hb]
  rfl

/-- With its source pair written, the command stores the pair its operation gives. -/
theorem ddUnary_completes (op : DReg → DReg) (rd : Reg) {ra : Reg} {s : State}
    (hh : s.valid (.dh ra) = true) (hl : s.valid (.dl ra) = true) :
    let r := op ⟨s.component (.dh ra), s.component (.dl ra)⟩
    ∃ u, ddUnary op rd ra s = .next u ∧ Completed s u [(.dh rd, r.hi), (.dl rd, r.lo)] s.sr 0 := by
  refine ⟨_, ?_, completed_writeD s rd _ s.sr⟩
  rw [ddUnary, readD_of_valid hh hl]
  rfl

/-- DD.MULF's sources are a pair and a word. -/
theorem ddMulf_completes (rd : Reg) {ra rb : Reg} {s : State} (hh : s.valid (.dh ra) = true)
    (hl : s.valid (.dl ra) = true) (hb : s.valid (.f rb) = true) :
    let r := ddMulf ⟨s.component (.dh ra), s.component (.dl ra)⟩ (s.component (.f rb))
    ∃ u, exec (.ddMulf rd ra rb) s = .next u ∧ Completed s u [(.dh rd, r.hi), (.dl rd, r.lo)] s.sr 0 := by
  refine ⟨_, ?_, completed_writeD s rd _ s.sr⟩
  rw [exec, execDdMulf, readD_of_valid hh hl, readF_of_valid hb]
  rfl

/-- HAS_FMA = 1 selects the fused product (R106, R124). -/
theorem exactMult_hasFma : exactMult Config.hasFma = xmul := rfl

/-- Settles O25: the four operations are the sequences written out, DD.XMUL's by HAS_FMA = 1. -/
theorem exactTransformsRunTheirSequences : Obligations.ExactTransformsRunTheirSequences := by
  intro rd ra rb s ha hb
  refine ⟨ddFromWords_completes fast2sum rd ha hb, ddFromWords_completes fast2diff rd ha hb,
    ddFromWords_completes twoSum rd ha hb, ?_⟩
  simp only [exec, execDdXmul, exactMult_hasFma]
  exact ddFromWords_completes xmul rd ha hb

/-- Settles O27: the three operations are the sequences written out; the examples are computed. -/
theorem doubleDoubleProducts : Obligations.DoubleDoubleProducts := by
  refine ⟨fun rd ra rb s hh hl => ⟨fun hbh hbl => ?_, fun hb => ddMulf_completes rd hh hl hb⟩,
    by decide +kernel, by decide +kernel, by decide +kernel⟩
  exact ⟨ddBinary_completes ddMul rd hh hl hbh hbl, ddBinary_completes ddQmul rd hh hl hbh hbl⟩

/-- DD.SQRT's two branches: of a zero high word the root of it and +0, the low word unread (R132). -/
theorem ddSqrt_eq (x : DReg) : ddSqrt x = if isZero x.hi then ⟨fsqrt x.hi, 0⟩ else
    fast2sum (fsqrt x.hi) (fdiv (fadd (ffma (fneg (fsqrt x.hi)) (fsqrt x.hi) x.hi) x.lo)
      (fmul ftwo (fsqrt x.hi))) := by
  have hzero : zeroOf false = 0 := by decide
  rw [ddSqrt, hzero]

/-- Settles O28: the three operations are the sequences written out, DD.SQRT's branch on the high word
included; the examples are computed. -/
theorem doubleDoubleQuotientsAndRoots : Obligations.DoubleDoubleQuotientsAndRoots := by
  refine ⟨fun rd ra rb s hh hl => ⟨fun hbh hbl => ddBinary_completes ddDiv rd hh hl hbh hbl,
      ?_, ddUnary_completes ddRecip rd hh hl⟩,
    by decide +kernel, by decide +kernel, fun l => ?_, by decide +kernel, by decide +kernel⟩
  · have hroot := ddUnary_completes ddSqrt rd hh hl
    simp only [ddSqrt_eq] at hroot
    exact hroot
  · rw [ddSqrt_eq, if_pos (isZero_zeroOf true)]
    exact congrArg (DReg.mk · 0) ((fsqrt_special _).2.1 (isZero_zeroOf true))

/-! ### NaNs and infinities through the composites (R135) -/

/-- fast2sum of anything with a NaN is a pair of NaNs. -/
theorem fast2sum_nan {a b : F64} (h : isNan a = true ∨ isNan b = true) : fast2sum a b = ⟨qNaN, qNaN⟩ := by
  rcases h with h | h <;> simp [fast2sum, h]

/-- 2Sum of anything with a NaN is a pair of NaNs. -/
theorem twoSum_nan {a b : F64} (h : isNan a = true ∨ isNan b = true) : twoSum a b = ⟨qNaN, qNaN⟩ := by
  rcases h with h | h <;> simp [twoSum, h]

/-- The product's error is a NaN when an operand is a NaN or an infinity: an infinite product is taken from
itself. -/
theorem xmul_lo_special {a b : F64} (h : (isNan a = true ∨ isNan b = true) ∨ (isInf a = true ∨ isInf b = true)) :
    (xmul a b).lo = qNaN := by
  by_cases hnan : isNan a = true ∨ isNan b = true
  · rcases hnan with h | h <;> simp [xmul, h]
  obtain ⟨ha, hb⟩ : isNan a = false ∧ isNan b = false := by simpa using hnan
  have hinf := h.resolve_left hnan
  by_cases hmul : isNan (fmul a b) = true
  · simp [xmul, hmul]
  have hprod : fmul a b = infOf (fsign a ^^ fsign b) ∧ (isZero a = false ∧ isZero b = false) := by
    rcases hinf with hi | hi
    · obtain ⟨zero, nonzero⟩ := fmul_inf ha hb hi
      cases hz : isZero b
      · exact ⟨(nonzero hz).1, isZero_of_isInf hi, rfl⟩
      · simp [(zero hz).1] at hmul
    · obtain ⟨zero, nonzero⟩ := fmul_inf hb ha hi
      cases hz : isZero a
      · exact ⟨by rw [(nonzero hz).2, Bool.xor_comm], rfl, isZero_of_isInf hi⟩
      · simp [(zero hz).2] at hmul
  obtain ⟨hval, hza, hzb⟩ := hprod
  obtain ⟨-, cancel, -⟩ := ffma_special (c := fneg (fmul a b)) ha hb (by simp [hval])
  have hfma := cancel (hinf.imp (⟨·, hzb⟩) (⟨hza, ·⟩))
  rw [if_pos ⟨by simp [hval], by simp [hval, fsign_fneg]⟩] at hfma
  exact hfma

/-- A quotient with a NaN or infinite operand times its divisor has a NaN for its error. -/
theorem xmul_quotient_lo {a b : F64} (h : (isNan a = true ∨ isNan b = true) ∨ (isInf a = true ∨ isInf b = true)) :
    (xmul b (fdiv a b)).lo = qNaN := by
  apply xmul_lo_special
  by_cases hnan : isNan a = true ∨ isNan b = true
  · rcases hnan with h | h <;> simp [h]
  obtain ⟨ha, hb⟩ : isNan a = false ∧ isNan b = false := by simpa using hnan
  obtain ⟨-, infInf, -, infLeft, -, -⟩ := fdiv_special ha hb
  cases hib : isInf b
  · have hia : isInf a = true := by simpa [ha, hb, hib] using h
    simp [infLeft hia hib]
  · exact .inr (.inl rfl)

section Composites
variable {x y : DReg}

/-- R135 for DD.ADD. -/
theorem ddAdd_special (h : (isNan x.hi = true ∨ isNan x.lo = true ∨ isNan y.hi = true ∨ isNan y.lo = true) ∨
    (isInf x.hi = true ∨ isInf y.hi = true)) : ddAdd x y = ⟨qNaN, qNaN⟩ := by
  rcases h with (h | h | h | h) | h
  · simp [ddAdd, twoSum_nan (.inl h), fast2sum_nan]
  · simp [ddAdd, twoSum_nan (.inl h), fast2sum_nan]
  · simp [ddAdd, twoSum_nan (.inr h), fast2sum_nan]
  · simp [ddAdd, twoSum_nan (.inr h), fast2sum_nan]
  · exact ddAdd_of_isInf h

/-- R135 for DD.MUL: the product of the high words or the cross terms give a NaN low part. -/
theorem ddMul_special (h : (isNan x.hi = true ∨ isNan x.lo = true ∨ isNan y.hi = true ∨ isNan y.lo = true) ∨
    (isInf x.hi = true ∨ isInf y.hi = true)) : ddMul x y = ⟨qNaN, qNaN⟩ := by
  rcases h with (h | h | h | h) | h
  · simp [ddMul, h, fast2sum_nan]
  · simp [ddMul, h, fast2sum_nan]
  · simp [ddMul, h, fast2sum_nan]
  · simp [ddMul, h, fast2sum_nan]
  · simp [ddMul, xmul_lo_special (.inr h), fast2sum_nan]

/-- R135 for DD.DIV: the remainder is a NaN. -/
theorem ddDiv_special (h : (isNan x.hi = true ∨ isNan x.lo = true ∨ isNan y.hi = true ∨ isNan y.lo = true) ∨
    (isInf x.hi = true ∨ isInf y.hi = true)) : ddDiv x y = ⟨qNaN, qNaN⟩ := by
  rcases h with (h | h | h | h) | h
  · simp [ddDiv, h, fast2sum_nan]
  · simp [ddDiv, h, fast2sum_nan]
  · simp [ddDiv, h, fast2sum_nan]
  · simp [ddDiv, h, fast2sum_nan]
  · simp [ddDiv, xmul_quotient_lo (.inr h), fast2sum_nan]

/-- R135 for DD.RECIP: an infinity times its reciprocal, a zero, is a NaN. -/
theorem ddRecip_special (h : (isNan x.hi = true ∨ isNan x.lo = true) ∨ isInf x.hi = true) :
    ddRecip x = ⟨qNaN, qNaN⟩ := by
  rcases h with (h | h) | h
  · simp [ddRecip, h, fast2sum_nan]
  · simp [ddRecip, h, fast2sum_nan]
  · have hn := isNan_of_isInf h
    obtain ⟨-, -, -, -, zero, -⟩ := fdiv_special (a := fone) (by decide) hn
    have hy := zero (by decide) h
    obtain ⟨nan, -, -⟩ := ffma_special (a := fneg x.hi) (b := fdiv fone x.hi) (c := fone) (by simpa)
      (by simp [hy]) (by decide)
    simp [ddRecip, nan (.inl ⟨by simpa, by simp [hy]⟩), fast2sum_nan]

/-- R135 for DD.SQRT: an infinity less the square of its root is a NaN. -/
theorem ddSqrt_special (h : (isNan x.hi = true ∨ isNan x.lo = true) ∨ isInf x.hi = true)
    (hz : isZero x.hi = false) : ddSqrt x = ⟨qNaN, qNaN⟩ := by
  rw [ddSqrt, if_neg (by simp [hz])]
  rcases h with (h | h) | h
  · simp [h, fast2sum_nan]
  · simp [h, fast2sum_nan]
  · obtain ⟨-, -, positive, negative⟩ := fsqrt_special x.hi
    cases hs : fsign x.hi
    · have hn := isNan_of_isInf h
      obtain ⟨-, cancel, -⟩ := ffma_special (a := fneg x.hi) (b := x.hi) (c := x.hi) (by simpa) hn hn
      have hr := cancel (.inl ⟨by simpa, hz⟩)
      rw [if_pos ⟨h, by simp [fsign_fneg, hs]⟩] at hr
      simp [positive h hs, hr, fast2sum_nan]
    · simp [negative hz hs, fast2sum_nan]

end Composites

/-- Settles O29, composite by composite. -/
theorem nanAndInfinityThroughTheComposites : Obligations.NanAndInfinityThroughTheComposites := by
  refine ⟨fun x y h => ⟨ddAdd_special h, ddAdd_special ?_, ddMul_special h, ddDiv_special h⟩,
    fun x h => ⟨ddRecip_special h, ddSqrt_special h⟩⟩
  simpa only [isNan_fneg, isInf_fneg] using h

end Sys2Proof.Machine

/-! NaNs, equality and exact sums on the binary64 datapath (spec/40_f64_datapath.md R94, R101, R102,
spec/41_double_double.md R121 to R124, R134): the error of a rounded sum of ordered operands, or of a product
that is not too small, is itself a binary64 value. -/

namespace Sys2Proof.Machine

/-! ### The canonical NaN (R94) -/

/-- RN64 gives no NaN. -/
theorem isNan_rn64 (num : ℤ) {den : ℕ} (s : Bool) (hd : 0 < den) : isNan (rn64 num den s) = false := by
  by_cases hq : (num : ℚ) / den = 0
  · rw [rn64_eq_roundOn num s hd, if_pos hq]
    exact isNan_zeroOf s
  · exact (roundsTo_rn64 s hd hq).notNan

/-- Rounding a positive ratio gives no NaN. -/
theorem isNan_roundMag (s : Bool) {num den : ℕ} (hn : 0 < num) (hd : 0 < den) :
    isNan (roundMag s num den) = false := by
  rw [roundMag_eq_roundOn (K := ℚ) s hn hd]
  exact (roundsTo_roundOn s (div_pos (by exact_mod_cast hn) (by exact_mod_cast hd))).notNan

section Nan
variable {a b c : F64}

theorem fadd_isNan (h : isNan (fadd a b) = true) : fadd a b = qNaN := by
  have hrn := isNan_rn64 (scaledVal a + scaledVal b) (fsign a && fsign b) unitDen_pos
  unfold fadd at *
  split_ifs at * <;> simp_all

theorem fsub_isNan (h : isNan (fsub a b) = true) : fsub a b = qNaN := by
  unfold fsub at *
  split at h
  · next hn => rw [if_pos hn]
  · next hn =>
    rw [if_neg hn]
    exact fadd_isNan h

theorem fmul_isNan (h : isNan (fmul a b) = true) : fmul a b = qNaN := by
  have hrn := isNan_rn64 (scaledVal a * scaledVal b) (fsign a ^^ fsign b) (Nat.mul_pos unitDen_pos unitDen_pos)
  unfold fmul at *
  dsimp only at *
  split_ifs at * <;> simp_all

theorem ffma_isNan (h : isNan (ffma a b c) = true) : ffma a b c = qNaN := by
  have hrn := isNan_rn64 (scaledVal a * scaledVal b + scaledVal c * unitDen)
    ((fsign a ^^ fsign b) && fsign c) (Nat.mul_pos unitDen_pos unitDen_pos)
  unfold ffma at *
  dsimp only at *
  split_ifs at * <;> simp_all

theorem fdiv_isNan (h : isNan (fdiv a b) = true) : fdiv a b = qNaN := by
  have hround : isZero a = false → isZero b = false →
      isNan (roundMag (fsign a ^^ fsign b) (scaledMag a) (scaledMag b)) = false := fun ha hb =>
    isNan_roundMag _ (scaledMag_pos ha) (scaledMag_pos hb)
  unfold fdiv at *
  dsimp only at *
  split_ifs at * <;> simp_all

theorem fsqrt_isNan (h : isNan (fsqrt a) = true) : fsqrt a = qNaN := by
  obtain ⟨-, zero, inf, negative⟩ := fsqrt_special a
  rcases class_cases a with ⟨hn, -, -⟩ | ⟨hn, hi, -⟩ | ⟨hn, -, hf⟩
  · exact fsqrt_nan hn
  · cases hs : fsign a
    · rw [inf hi hs, hn] at h
      cases h
    · exact negative (isZero_of_isInf hi) hs
  · cases hz : isZero a
    · cases hs : fsign a
      · rw [(roundsTo_fsqrt hf hz hs).notNan] at h
        cases h
      · exact negative hz hs
    · rw [zero hz, hn] at h
      cases h

theorem rintAway_isNan (h : isNan (rintAway a) = true) : rintAway a = qNaN := by
  obtain ⟨nan, same, large⟩ := rintAway_special a
  rcases class_cases a with ⟨hn, -, -⟩ | ⟨hn, hi, -⟩ | ⟨hn, -, hf⟩
  · exact nan hn
  · rw [same (.inl hi), hn] at h
    cases h
  · rcases le_or_gt (2 ^ 52) |fval a| with hl | hs
    · rw [large hf hl, hn] at h
      cases h
    · rw [isNan_of_finite (rintAway_small hf hs).1] at h
      cases h

end Nan

/-! ### Sign operations (R101) -/

/-- The mask of `fneg` is bit 63, that of `fabs` every other bit. -/
theorem getLsbD_fneg_fabs (a : F64) {n : Nat} (hn : n < 63) :
    (fneg a).getLsbD n = a.getLsbD n ∧ (fabs a).getLsbD n = a.getLsbD n := by
  constructor
  · rw [fneg_eq, BitVec.getLsbD_xor, BitVec.getLsbD_twoPow]
    simp [hn.ne']
  · have hmask : BitVec.getLsbD (w := 64) 0x7FFFFFFFFFFFFFFF n = true := by interval_cases n <;> rfl
    rw [fabs, BitVec.getLsbD_and, hmask, Bool.and_true]

/-- The magnitude is positive. -/
theorem fsign_fabs (a : F64) : fsign (fabs a) = false := by
  simp [fsign, fabs]

/-- Settles O35: a result that is not rounded is an operand that is no NaN, an infinity, a zero, or the
canonical NaN. -/
theorem arithmeticNansAreCanonical : Obligations.ArithmeticNansAreCanonical :=
  ⟨fun _ _ _ => ⟨fadd_isNan, fsub_isNan, fmul_isNan, fdiv_isNan, fsqrt_isNan, ffma_isNan, rintAway_isNan⟩,
    fun a b c h => by simp [h, (rintAway_special a).1 h],
    fun a _ => getLsbD_fneg_fabs a, fun a => ⟨fsign_fneg a, fsign_fabs a⟩⟩

/-! ### Equality (R102) -/

/-- On words that are no NaN, equality is of two zeros or of the patterns. -/
theorem feq_iff {a b : F64} (ha : isNan a = false) (hb : isNan b = false) :
    feq a b = true ↔ (isZero a = true ∧ isZero b = true) ∨ a = b := by
  by_cases hz : isZero a = true ∧ isZero b = true
  · simp [feq, ha, hb, hz]
  · simp [feq, ha, hb, hz]

/-- A finite word that is no zero is known by its value. -/
theorem eq_of_fval_eq {a b : F64} (ha : isFinite a = true) (hb : isFinite b = true) (hz : isZero a = false)
    (h : fval a = fval b) : a = b := by
  have hzb : isZero b = false := by
    rw [Bool.eq_false_iff, Ne, ← fval_eq_zero_iff] at *
    rwa [← h]
  rw [← rnQ_fval ha hz false, h, rnQ_fval hb hzb]

/-- On finite words equality is of values. -/
theorem feq_iff_fval {a b : F64} (ha : isFinite a = true) (hb : isFinite b = true) :
    feq a b = true ↔ fval a = fval b := by
  rw [feq_iff (isNan_of_finite ha) (isNan_of_finite hb)]
  constructor
  · rintro (⟨hza, hzb⟩ | rfl)
    · rw [(fval_eq_zero_iff a).mpr hza, (fval_eq_zero_iff b).mpr hzb]
    · rfl
  · intro h
    cases hza : isZero a
    · exact .inr (eq_of_fval_eq ha hb hza h)
    · exact .inl ⟨rfl, (fval_eq_zero_iff b).mp (by rw [← h, (fval_eq_zero_iff a).mpr hza])⟩

/-- An infinity is known by its sign. -/
theorem eq_infOf {a : F64} (h : isInf a = true) : a = infOf (fsign a) := by
  obtain ⟨hexp, hfrac⟩ : fexp a = 2047 ∧ ffrac a = 0 := by simpa [isInf] using h
  conv_lhs => rw [← packWord_fields a, hexp, hfrac]
  rfl

/-- Settles O36: on finite words the values tell them apart but for the two zeros, and an infinity is its
sign. -/
theorem comparisonIsIeeeEquality : Obligations.ComparisonIsIeeeEquality := by
  refine fun a b => ⟨fun h => by rcases h with h | h <;> simp [feq, h], feq_iff_fval, fun ha hb hinf => ?_⟩
  rw [feq_iff ha hb]
  constructor
  · rintro (⟨hza, hzb⟩ | rfl)
    · simp [isInf_of_isZero hza, isInf_of_isZero hzb] at hinf
    · simpa using hinf
  · rintro ⟨hia, hib, hs⟩
    rw [eq_infOf hia, eq_infOf hib, hs]
    exact .inr rfl

/-! ### Exact values (R90, R93) -/

/-- A number that is the value of a finite word. -/
def Representable (x : ℚ) : Prop := ∃ w : F64, isFinite w = true ∧ fval w = x

/-- The value from which RN64 gives an infinity (R93). -/
def overflowBound : ℚ := ((2 : ℚ) ^ 54 - 1) * (2 : ℚ) ^ 970

theorem representable_fval {w : F64} (h : isFinite w = true) : Representable (fval w) := ⟨w, h, rfl⟩

theorem representable_zero : Representable 0 := ⟨0, by decide, (fval_eq_zero_iff 0).mpr (by decide)⟩

theorem Representable.neg {x : ℚ} (h : Representable x) : Representable (-x) := by
  obtain ⟨w, hw, rfl⟩ := h
  exact ⟨fneg w, by simpa, fval_fneg w⟩

/-- RN64 of a binary64 value is a word of that value. -/
theorem Representable.rnQ {x : ℚ} (h : Representable x) (s : Bool) :
    isFinite (rnQ x s) = true ∧ fval (rnQ x s) = x := by
  obtain ⟨w, hw, rfl⟩ := h
  cases hz : isZero w
  · rw [rnQ_fval hw hz]
    exact ⟨hw, rfl⟩
  · rw [(fval_eq_zero_iff w).mpr hz, rnQ_zero]
    exact ⟨isFinite_of_isZero (isZero_zeroOf s), (fval_eq_zero_iff _).mpr (isZero_zeroOf s)⟩

/-- R93 for a rational number. -/
theorem roundsTo_rnQ {q : ℚ} (s : Bool) (hq : q ≠ 0) : RoundsTo (decide (q < 0)) |q| (rnQ q s) := by
  have h := roundsTo_rn64 (num := q.num) s q.den_pos (by rwa [Rat.num_div_den])
  rwa [Rat.num_div_den] at h

/-- A value is its magnitude with the sign of another one of the same sign. -/
theorem signed_abs (x : ℚ) : x = (if x < 0 then -1 else 1) * |x| := by
  split
  · next h => rw [abs_of_neg h]; ring
  · next h => rw [abs_of_nonneg (not_lt.mp h)]; ring

/-- The value of a rounded word, by its sign and magnitude. -/
theorem fval_rnQ_signed {q : ℚ} (s : Bool) (hq : q ≠ 0) :
    fval (rnQ q s) = (if q < 0 then -1 else 1) * |fval (rnQ q s)| := by
  rw [fval_eq_signed, (roundsTo_rnQ s hq).sign]
  by_cases h : q < 0 <;> simp [h]

/-- A number below the overflow bound that is a whole number of its own steps is a binary64 value. -/
theorem representable_of_inSteps {q : ℚ} (hlt : |q| < overflowBound) {m : ℕ} (hm : inSteps |q| = m) :
    Representable q := by
  by_cases hq : q = 0
  · rw [hq]
    exact representable_zero
  have h := roundsTo_rnQ false hq
  have habs : |fval (rnQ q false)| = |q| := by
    simpa only [Rat.cast_id] using h.abs_fval_of_inSteps hlt hm
  refine ⟨_, h.isFinite hlt, ?_⟩
  rw [fval_rnQ_signed false hq, habs, ← signed_abs]

/-- A step of a coarser grid is a whole number of steps of a finer one. -/
theorem two_zpow_eq_mul {i j : ℤ} (h : i ≤ j) : (2 : ℚ) ^ j = (2 ^ (j - i).toNat : ℕ) * (2 : ℚ) ^ i := by
  rw [Nat.cast_pow, Nat.cast_ofNat, ← zpow_natCast, Int.toNat_of_nonneg (by omega), ← zpow_add₀ two_ne_zero]
  congr 1
  ring

/-- A whole number of steps `2^(e - 52)`, when its own grid is not coarser. -/
theorem representable_of_gridOf_le {q : ℚ} {k e : ℤ} (hq : q = k * (2 : ℚ) ^ (e - 52))
    (hgrid : gridOf |q| ≤ e) (hlt : |q| < overflowBound) : Representable q := by
  refine representable_of_inSteps hlt (m := k.natAbs * 2 ^ (e - gridOf |q|).toNat) ?_
  have hstep := two_zpow_eq_mul (i := gridOf |q| - 52) (j := e - 52) (by omega)
  have habs : |q| = k.natAbs * (2 : ℚ) ^ (e - 52) := by
    rw [hq, abs_mul, abs_of_pos (by positivity : (0 : ℚ) < 2 ^ (e - 52)), Nat.cast_natAbs, Int.cast_abs]
  rw [inSteps, div_eq_iff (by positivity)]
  conv_lhs => rw [habs, hstep]
  rw [show e - 52 - (gridOf |q| - 52) = e - gridOf |q| by ring, Nat.cast_mul, mul_assoc]

/-- The grid of a number below the end of a binade is not coarser than that binade's. -/
theorem gridOf_le_of_lt {y : ℚ} {e : ℤ} (he : -1022 ≤ e) (hlt : y < (2 : ℚ) ^ (e + 1)) (hy : 0 < y) :
    gridOf y ≤ e := by
  refine max_le ?_ he
  rw [← Int.lt_add_one_iff, ← Int.lt_zpow_iff_log_lt one_lt_two hy]
  exact_mod_cast hlt

/-- A number of at most 53 bits above the subnormals' step, up to the end of the binade included. -/
theorem representable_of_steps {q : ℚ} {k e : ℤ} (hq : q = k * (2 : ℚ) ^ (e - 52)) (hk : |k| ≤ 2 ^ 53)
    (he : -1022 ≤ e) (hlt : |q| < overflowBound) : Representable q := by
  by_cases h0 : q = 0
  · rw [h0]
    exact representable_zero
  have habs : |q| = |k| * (2 : ℚ) ^ (e - 52) := by
    rw [hq, abs_mul, abs_of_pos (by positivity : (0 : ℚ) < 2 ^ (e - 52)), Int.cast_abs]
  have hend : (2 : ℚ) ^ (e + 1) = 2 ^ 53 * (2 : ℚ) ^ (e - 52) := by
    rw [← zpow_natCast, ← zpow_add₀ two_ne_zero]
    congr 1
    push_cast
    ring
  rcases hk.lt_or_eq with hk | hk
  · refine representable_of_gridOf_le hq (gridOf_le_of_lt he ?_ (abs_pos.mpr h0)) hlt
    rw [habs, hend]
    gcongr
    exact_mod_cast hk
  · have hpow : |q| = (2 : ℚ) ^ (e + 1) := by
      rw [habs, hend, hk]
      norm_num
    refine representable_of_inSteps hlt (m := 2 ^ 52) ?_
    have hgrid : gridOf |q| = e + 1 := by
      rw [hpow, gridOf, gridExp]
      have : Int.log 2 ((2 : ℚ) ^ (e + 1)) = e + 1 := by
        exact_mod_cast Int.log_zpow (R := ℚ) (b := 2) one_lt_two (e + 1)
      rw [this]
      exact max_eq_left (by omega)
    rw [inSteps, hgrid, hpow, ← zpow_sub₀ two_ne_zero]
    norm_num

/-- Far below the overflow bound. -/
theorem lt_overflowBound {x : ℚ} (h : x ≤ (2 : ℚ) ^ (1023 : ℤ) + 2 ^ (970 : ℤ)) : x < overflowBound := by
  refine h.trans_lt ?_
  have : (2 : ℚ) ^ (1023 : ℤ) + 2 ^ (970 : ℤ) = (2 ^ 53 + 1) * 2 ^ 970 := by
    rw [show (1023 : ℤ) = (53 + 970 : ℕ) by norm_num, show (970 : ℤ) = (970 : ℕ) by norm_num, zpow_natCast,
      zpow_natCast, pow_add]
    exact (add_one_mul _ _).symm
  rw [this, overflowBound]
  exact mul_lt_mul_of_pos_right (by norm_num : (2 : ℚ) ^ 53 + 1 < 2 ^ 54 - 1) (pow_pos two_pos _)

/-- A word's magnitude is below the end of its binade. -/
theorem abs_fval_lt_binade (w : F64) : |fval w| < (2 : ℚ) ^ (binade w + 1) := by
  have hend : (2 : ℚ) ^ (binade w + 1) = 2 ^ 53 * (2 : ℚ) ^ (binade w - 52) := by
    rw [← zpow_natCast, ← zpow_add₀ two_ne_zero]
    congr 1
    push_cast
    ring
  rw [abs_fval_eq_significand, hend]
  gcongr
  exact_mod_cast significand_lt w

/-! ### The error of a rounding (R93) -/

/-- The rounding of a nonzero number is finite exactly below the overflow bound. -/
theorem isFinite_rnQ_iff {q : ℚ} (s : Bool) (hq : q ≠ 0) : isFinite (rnQ q s) = true ↔ |q| < overflowBound := by
  have h := roundsTo_rnQ s hq
  rw [← isInf_eq_false_iff h.notNan, ← Bool.not_eq_true, h.overflow, not_le]
  rfl

/-- No integer is nearer than one within one half. -/
theorem abs_sub_le_of_near {x : ℚ} {n : ℤ} (h : |x - n| ≤ 1 / 2) (m : ℤ) : |x - n| ≤ |x - m| := by
  by_contra! hlt
  have hclose : |((n - m : ℤ) : ℚ)| < 1 := by
    calc |((n - m : ℤ) : ℚ)| = |(x - m) - (x - n)| := by
          congr 1
          push_cast
          ring
      _ ≤ |x - m| + |x - n| := abs_sub _ _
      _ < 1 := by linarith
  obtain rfl : n = m := sub_eq_zero.mp (Int.abs_lt_one_iff.mp (by exact_mod_cast hclose))
  exact lt_irrefl _ hlt

/-- A number and its rounding have one sign. -/
theorem exists_sign {q : ℚ} (s : Bool) (hq : q ≠ 0) :
    ∃ σ : ℤ, σ * σ = 1 ∧ q = σ * |q| ∧ fval (rnQ q s) = σ * |fval (rnQ q s)| := by
  refine ⟨if q < 0 then -1 else 1, by split <;> rfl, ?_, ?_⟩
  · conv_lhs => rw [signed_abs q]
    split <;> simp
  · conv_lhs => rw [fval_rnQ_signed s hq]
    split <;> simp

/-- A rounded number is a whole number of steps, within half a step, and no whole number of steps is
nearer. -/
theorem rnQ_error {q : ℚ} (s : Bool) (hq : q ≠ 0) (hfin : isFinite (rnQ q s) = true) :
    ∃ k : ℤ, fval (rnQ q s) = k * (2 : ℚ) ^ (gridOf |q| - 52) ∧
      |q - fval (rnQ q s)| ≤ (2 : ℚ) ^ (gridOf |q| - 53) ∧
      ∀ m : ℤ, |q - fval (rnQ q s)| ≤ |q - m * (2 : ℚ) ^ (gridOf |q| - 52)| := by
  obtain ⟨n, hval, hnear, -⟩ := (roundsTo_rnQ s hq).value ((isFinite_rnQ_iff s hq).mp hfin)
  obtain ⟨σ, hσ, hqσ, hrσ⟩ := exists_sign s hq
  rw [Rat.cast_id] at hval
  have hsteps := inSteps_mul |q|
  have hhalf : (2 : ℚ) ^ (gridOf |q| - 53) = 1 / 2 * 2 ^ (gridOf |q| - 52) := by
    rw [show gridOf |q| - 53 = -1 + (gridOf |q| - 52) by ring, zpow_add₀ two_ne_zero]
    norm_num
  have hstep : (0 : ℚ) < 2 ^ (gridOf |q| - 52) := by positivity
  generalize inSteps |q| = x, (2 : ℚ) ^ (gridOf |q| - 52) = u at *
  have hσ' : (σ : ℚ) * σ = 1 := by exact_mod_cast hσ
  have hσabs : |(σ : ℚ)| = 1 := by rcases mul_self_eq_one_iff.mp hσ with rfl | rfl <;> simp
  have herr : ∀ m : ℤ, |q - m * u| = |x - (σ * m : ℤ)| * u := by
    intro m
    have hfactor : q - m * u = σ * ((x - (σ * m : ℤ)) * u) := by
      push_cast
      rw [hqσ, ← hsteps]
      linear_combination (m * u) * hσ'
    rw [hfactor, abs_mul, hσabs, one_mul, abs_mul, abs_of_pos hstep]
  have hk : fval (rnQ q s) = (σ * n : ℤ) * u := by
    rw [hrσ, hval]
    push_cast
    ring
  have hback : σ * (σ * n) = n := by rw [← mul_assoc, hσ, one_mul]
  refine ⟨σ * n, hk, ?_, fun m => ?_⟩
  · rw [hk, herr, hhalf, hback]
    gcongr
    exact_mod_cast hnear
  · rw [hk, herr, herr, hback]
    exact mul_le_mul_of_nonneg_right (abs_sub_le_of_near (by exact_mod_cast hnear) _) hstep.le

end Sys2Proof.Machine

/-! Exact sums and products (spec/41_double_double.md R121 to R124, R134): what a rounding leaves is a whole
number of steps of the finer operand, and few enough of them for one word. -/

namespace Sys2Proof.Machine

/-! ### Whole numbers of steps (R93) -/

/-- A whole number of steps of the binade of `2^e`. -/
def Steps (x : ℚ) (e : ℤ) : Prop := ∃ k : ℤ, x = k * (2 : ℚ) ^ (e - 52)

section Steps
variable {x y : ℚ} {e e' : ℤ}

theorem Steps.mono (h : Steps x e) (he : e' ≤ e) : Steps x e' := by
  obtain ⟨k, rfl⟩ := h
  refine ⟨k * (2 ^ (e - 52 - (e' - 52)).toNat : ℕ), ?_⟩
  rw [two_zpow_eq_mul (i := e' - 52) (j := e - 52) (by omega)]
  push_cast
  ring

theorem Steps.add (hx : Steps x e) (hy : Steps y e) : Steps (x + y) e := by
  obtain ⟨k, rfl⟩ := hx
  obtain ⟨m, rfl⟩ := hy
  exact ⟨k + m, by push_cast; ring⟩

theorem Steps.sub (hx : Steps x e) (hy : Steps y e) : Steps (x - y) e := by
  obtain ⟨k, rfl⟩ := hx
  obtain ⟨m, rfl⟩ := hy
  exact ⟨k - m, by push_cast; ring⟩

/-- A binade ends after `2^53` of its steps. -/
theorem two_zpow_succ_eq_steps (e : ℤ) : (2 : ℚ) ^ (e + 1) = 2 ^ 53 * (2 : ℚ) ^ (e - 52) := by
  rw [← zpow_natCast, ← zpow_add₀ two_ne_zero]
  congr 1
  push_cast
  ring

/-- A length in steps. -/
theorem abs_steps (k e : ℤ) : |(k : ℚ) * (2 : ℚ) ^ (e - 52)| = (|k| : ℤ) * (2 : ℚ) ^ (e - 52) := by
  rw [abs_mul, abs_of_pos (by positivity : (0 : ℚ) < 2 ^ (e - 52)), Int.cast_abs]

/-- Before the end of a binade there is room for one more step. -/
theorem Steps.add_step_le (h : Steps x e) (hlt : |x| < (2 : ℚ) ^ (e + 1)) :
    |x| + (2 : ℚ) ^ (e - 52) ≤ 2 ^ (e + 1) := by
  obtain ⟨k, rfl⟩ := h
  have hu : (0 : ℚ) < 2 ^ (e - 52) := by positivity
  rw [abs_steps, two_zpow_succ_eq_steps] at *
  have hk : |k| + 1 ≤ 2 ^ 53 := by exact_mod_cast lt_of_mul_lt_mul_right hlt hu.le
  calc ((|k| : ℤ) : ℚ) * 2 ^ (e - 52) + 2 ^ (e - 52) = ((|k| + 1 : ℤ) : ℚ) * 2 ^ (e - 52) := by
        push_cast
        ring
    _ ≤ 2 ^ 53 * 2 ^ (e - 52) := by
        gcongr
        exact_mod_cast hk

/-- At most `2^53` steps of a binade of the words' are a binary64 value. -/
theorem Steps.representable (h : Steps x e) (he : -1022 ≤ e) (hle : |x| ≤ (2 : ℚ) ^ (e + 1))
    (hlt : |x| < overflowBound) : Representable x := by
  obtain ⟨k, rfl⟩ := h
  refine representable_of_steps rfl ?_ he hlt
  rw [abs_steps, two_zpow_succ_eq_steps] at hle
  exact_mod_cast le_of_mul_le_mul_right hle (by positivity)

/-- A number whose own grid is not coarser than its steps is a binary64 value. -/
theorem Steps.representable_of_gridOf_le (h : Steps x e) (he : gridOf |x| ≤ e) (hlt : |x| < overflowBound) :
    Representable x := by
  obtain ⟨k, hk⟩ := h
  exact Machine.representable_of_gridOf_le hk he hlt

end Steps

/-- A word is a whole number of steps of its binade. -/
theorem steps_fval (w : F64) : Steps (fval w) (binade w) := by
  refine ⟨if fsign w then -significand w else significand w, ?_⟩
  rw [fval_eq_signed, abs_fval_eq_significand]
  split <;> simp

/-- The lowest binade is the subnormals'. -/
theorem neg1022_le_binade (w : F64) : -1022 ≤ binade w := by
  unfold binade
  omega

/-- The smaller of two words has no coarser steps. -/
theorem binade_le_of_abs_le {a b : F64} (ha : isZero a = false) (hb : isZero b = false)
    (h : |fval b| ≤ |fval a|) : binade b ≤ binade a := by
  have hpos : 0 < |fval b| := abs_pos.mpr fun h0 => by simp [(fval_eq_zero_iff b).mp h0] at hb
  rw [← gridOf_abs_fval ha, ← gridOf_abs_fval hb]
  exact max_le_max_right _ (Int.log_mono_right hpos h)

/-- Above the subnormals' step a number is from the start of its grid's binade on. -/
theorem le_of_lt_gridOf {y : ℚ} (hy : 0 < y) (h : -1022 < gridOf y) : (2 : ℚ) ^ gridOf y ≤ y := by
  have hlog : gridOf y = Int.log 2 y := max_eq_left (by unfold gridOf gridExp at h; omega)
  rw [hlog]
  exact_mod_cast Int.zpow_log_le_self (b := 2) one_lt_two hy

/-- A number below the overflow bound has a grid of the words'. -/
theorem gridOf_le_of_lt_overflowBound {y : ℚ} (hy : 0 < y) (h : y < overflowBound) : gridOf y ≤ 1023 := by
  by_contra! hlt
  exact absurd h (not_lt.mpr (threshold_le_of_lt_gridOf hy hlt))

/-! ### What a rounded sum of ordered words leaves (R121, R134) -/

/-- A sum `q` of `a` and the smaller `b`, in steps of their binades, rounded to `r` on a grid coarser than the
steps of `b`. -/
structure RoundedSum (a b q r : ℚ) (ea eb g : ℤ) : Prop where
  sum : a + b = q
  order : |b| ≤ |a|
  stepsA : Steps a ea
  ltA : |a| < (2 : ℚ) ^ (ea + 1)
  stepsB : Steps b eb
  ltB : |b| < (2 : ℚ) ^ (eb + 1)
  binades : -1022 ≤ eb ∧ eb ≤ ea
  grid : eb < g ∧ g ≤ 1023
  start : (2 : ℚ) ^ g ≤ |q|
  stepsR : Steps r g
  error : |q - r| ≤ (2 : ℚ) ^ (g - 53)
  nearest : ∀ x, Steps x g → |q - r| ≤ |q - x|

section RoundedSum
variable {a b q r : ℚ} {ea eb g : ℤ} (h : RoundedSum a b q r ea eb g)
include h

/-- The sum carries into the binade above the larger operand's at most. -/
theorem RoundedSum.grid_le : g ≤ ea + 1 := by
  have hlt : (2 : ℚ) ^ g < 2 ^ (ea + 2) := by
    calc (2 : ℚ) ^ g ≤ |a + b| := h.sum ▸ h.start
      _ ≤ |a| + |b| := abs_add_le _ _
      _ < 2 ^ (ea + 1) + 2 ^ (ea + 1) := by linarith [h.ltA, h.order]
      _ = 2 ^ (ea + 2) := by
        rw [show ea + 2 = ea + 1 + 1 by ring, zpow_add_one₀ two_ne_zero (ea + 1)]
        ring
  have := (zpow_lt_zpow_iff_right₀ (one_lt_two (α := ℚ))).mp hlt
  omega

/-- The rounding is no farther from the sum than the larger operand is. -/
theorem RoundedSum.error_le : |q - r| ≤ |b| := by
  rcases le_or_gt g ea with hle | hgt
  · have := h.nearest a (h.stepsA.mono hle)
    rwa [← h.sum, add_sub_cancel_left, h.sum] at this
  · obtain rfl : g = ea + 1 := le_antisymm h.grid_le hgt
    have hroom := h.stepsA.add_step_le h.ltA
    have herr := h.error
    have hq : (2 : ℚ) ^ (ea + 1) ≤ |a| + |b| := (h.sum ▸ h.start).trans (abs_add_le a b)
    rw [show ea + 1 - 53 = ea - 52 by ring] at herr
    linarith

/-- What the rounding adds to the larger operand. -/
theorem RoundedSum.representable_sub : Representable (r - a) := by
  have htri : |r - a| ≤ |b| + 2 ^ (g - 53) := by
    calc |r - a| = |b - (q - r)| := by rw [← h.sum]; congr 1; ring
      _ ≤ |b| + |q - r| := abs_sub _ _
      _ ≤ |b| + 2 ^ (g - 53) := by gcongr; exact h.error
  obtain ⟨heb, hba⟩ := h.binades
  obtain ⟨hbg, hg⟩ := h.grid
  rcases le_or_gt g ea with hle | hgt
  · have hlt : |r - a| < 2 ^ g + 2 ^ (g - 53) := by
      have : (2 : ℚ) ^ (eb + 1) ≤ 2 ^ g := zpow_le_zpow_right₀ one_le_two hbg
      linarith [h.ltB]
    refine (h.stepsR.sub (h.stepsA.mono hle)).representable (by omega) ?_ (lt_overflowBound ?_)
    · have : (2 : ℚ) ^ (g - 53) ≤ 2 ^ g := zpow_le_zpow_right₀ one_le_two (by omega)
      rw [zpow_add_one₀ two_ne_zero]
      linarith
    · refine hlt.le.trans (add_le_add (zpow_le_zpow_right₀ one_le_two hg) ?_)
      exact zpow_le_zpow_right₀ one_le_two (by omega)
  · obtain rfl : g = ea + 1 := le_antisymm h.grid_le hgt
    have hroom := h.stepsA.add_step_le h.ltA
    rw [show ea + 1 - 53 = ea - 52 by ring] at htri
    have hle : |r - a| ≤ 2 ^ (ea + 1) := by linarith [h.order]
    refine ((h.stepsR.mono (by omega)).sub h.stepsA).representable (by omega) hle (lt_overflowBound ?_)
    exact hle.trans (le_add_of_le_of_nonneg (zpow_le_zpow_right₀ one_le_two hg) (by positivity))

/-- What the rounding leaves of the sum. -/
theorem RoundedSum.representable_error : Representable (q - r) := by
  obtain ⟨heb, hba⟩ := h.binades
  obtain ⟨hbg, hg⟩ := h.grid
  have hsteps : Steps (q - r) eb :=
    h.sum ▸ ((h.stepsA.mono hba).add h.stepsB).sub (h.stepsR.mono hbg.le)
  refine hsteps.representable heb (h.error_le.trans h.ltB.le) (lt_overflowBound (h.error.trans ?_))
  exact le_add_of_le_of_nonneg (zpow_le_zpow_right₀ one_le_two (by omega)) (by positivity)

end RoundedSum

/-- A rounded number in steps of its grid. -/
theorem rnQ_steps {q : ℚ} (s : Bool) (hq : q ≠ 0) (hfin : isFinite (rnQ q s) = true) :
    Steps (fval (rnQ q s)) (gridOf |q|) ∧ |q - fval (rnQ q s)| ≤ (2 : ℚ) ^ (gridOf |q| - 53) ∧
      ∀ x, Steps x (gridOf |q|) → |q - fval (rnQ q s)| ≤ |q - x| := by
  obtain ⟨k, hk, herr, hnear⟩ := rnQ_error s hq hfin
  exact ⟨⟨k, hk⟩, herr, by rintro _ ⟨m, rfl⟩; exact hnear m⟩

/-- The rounding of a sum of ordered words: what it adds to the larger word, and what it leaves of the sum,
are binary64 values. -/
theorem representable_sum_parts {a b : F64} (ha : isFinite a = true) (hb : isFinite b = true)
    (hab : |fval b| ≤ |fval a|) (s : Bool) (hfin : isFinite (rnQ (fval a + fval b) s) = true) :
    Representable (fval (rnQ (fval a + fval b) s) - fval a) ∧
      Representable (fval a + fval b - fval (rnQ (fval a + fval b) s)) := by
  by_cases hrep : Representable (fval a + fval b)
  · rw [(hrep.rnQ s).2, sub_self, add_sub_cancel_left]
    exact ⟨representable_fval hb, representable_zero⟩
  have hq : fval a + fval b ≠ 0 := fun h => hrep (h ▸ representable_zero)
  have hzb : isZero b = false := by
    refine Bool.eq_false_iff.mpr fun h => hrep ?_
    rw [(fval_eq_zero_iff b).mpr h, add_zero]
    exact representable_fval ha
  have hza : isZero a = false := by
    refine Bool.eq_false_iff.mpr fun h => hrep ?_
    rw [(fval_eq_zero_iff a).mpr h, zero_add]
    exact representable_fval hb
  have hba := binade_le_of_abs_le hza hzb hab
  have hbound := (isFinite_rnQ_iff s hq).mp hfin
  have hbg : binade b < gridOf |fval a + fval b| := by
    by_contra! hle
    exact hrep ((((steps_fval a).mono hba).add (steps_fval b)).representable_of_gridOf_le hle hbound)
  obtain ⟨hsteps, herr, hnear⟩ := rnQ_steps s hq hfin
  have h : RoundedSum (fval a) (fval b) _ (fval (rnQ (fval a + fval b) s)) (binade a) (binade b) _ :=
    { sum := rfl, order := hab, stepsA := steps_fval a, ltA := abs_fval_lt_binade a,
      stepsB := steps_fval b, ltB := abs_fval_lt_binade b, binades := ⟨neg1022_le_binade b, hba⟩,
      grid := ⟨hbg, gridOf_le_of_lt_overflowBound (abs_pos.mpr hq) hbound⟩,
      start := le_of_lt_gridOf (abs_pos.mpr hq) ((neg1022_le_binade b).trans_lt hbg), stepsR := hsteps, error := herr,
      nearest := hnear }
  exact ⟨h.representable_sub, h.representable_error⟩

/-! ### The sequences (R121, R122, R134) -/

section Exact
variable {a b : F64}

/-- A difference that is a binary64 value is computed exactly. -/
theorem fsub_exact (ha : isFinite a = true) (hb : isFinite b = true) (h : Representable (fval a - fval b)) :
    isFinite (fsub a b) = true ∧ fval (fsub a b) = fval a - fval b := by
  rw [fsub_eq_rnQ ha hb]
  exact h.rnQ _

/-- R134 for DD.XADD. -/
theorem fast2sum_exact (ha : isFinite a = true) (hb : isFinite b = true) (hab : |fval b| ≤ |fval a|)
    (hfin : isFinite (fadd a b) = true) :
    isFinite (fast2sum a b).lo = true ∧ ddVal (fast2sum a b) = fval a + fval b := by
  have hhi := fadd_eq_rnQ ha hb
  obtain ⟨hadded, hleft⟩ := representable_sum_parts ha hb hab _ (hhi ▸ hfin)
  rw [← hhi] at hadded hleft
  obtain ⟨htfin, ht⟩ := fsub_exact hfin ha hadded
  have hlo : fval b - fval (fsub (fadd a b) a) = fval a + fval b - fval (fadd a b) := by
    rw [ht]
    ring
  obtain ⟨hlofin, hloval⟩ := fsub_exact hb htfin (hlo ▸ hleft)
  refine ⟨hlofin, ?_⟩
  rw [ddVal, fast2sum, hloval, hlo]
  ring

/-- R134 for DD.XSUB: the sequence of DD.XADD with the other sign of `b`. -/
theorem fast2diff_exact (ha : isFinite a = true) (hb : isFinite b = true) (hab : |fval b| ≤ |fval a|)
    (hfin : isFinite (fsub a b) = true) :
    isFinite (fast2diff a b).lo = true ∧ ddVal (fast2diff a b) = fval a - fval b := by
  have hnb : isFinite (fneg b) = true := by simpa
  have hhi : fsub a b = rnQ (fval a + fval (fneg b)) (fsign a && !fsign b) := by
    rw [fsub_eq_rnQ ha hb, fval_fneg, sub_eq_add_neg]
  obtain ⟨hadded, hleft⟩ := representable_sum_parts ha hnb (by rwa [fval_fneg, abs_neg]) _ (hhi ▸ hfin)
  rw [← hhi] at hadded hleft
  obtain ⟨htfin, ht⟩ := fsub_exact ha hfin (by rw [← neg_sub]; exact hadded.neg)
  have hlo : fval (fsub a (fsub a b)) - fval b = fval a + fval (fneg b) - fval (fsub a b) := by
    rw [ht, fval_fneg]
    ring
  obtain ⟨hlofin, hloval⟩ := fsub_exact htfin hb (hlo ▸ hleft)
  refine ⟨hlofin, ?_⟩
  rw [ddVal, fast2diff, hloval, hlo, fval_fneg]
  ring

end Exact

/-- Settles O30: both steps after the high word are differences that are binary64 values. -/
theorem orderedExactAddLosesNothing : Obligations.OrderedExactAddLosesNothing :=
  fun _ _ ha hb hab => ⟨fast2sum_exact ha hb hab, fast2diff_exact ha hb hab⟩

/-- Refutes O31: with these operands the high word is finite and the step that takes the first operand from it
overflows. -/
theorem not_fullExactAddAsClaimed : ¬ Obligations.FullExactAddAsClaimed := by
  intro h
  obtain ⟨hlo, -⟩ := h 0xFCA8000000000000 0x7FEFFFFFFFFFFFFF (by decide) (by decide) (by decide +kernel)
  exact absurd hlo (by decide +kernel)

/-! ### What a rounded product leaves (R124) -/

/-- A product of words is a whole number of steps of their binades' sum. -/
theorem steps_mul (a b : F64) : Steps (fval a * fval b) (binade a + binade b - 52) := by
  obtain ⟨k, hk⟩ := steps_fval a
  obtain ⟨m, hm⟩ := steps_fval b
  refine ⟨k * m, ?_⟩
  rw [hk, hm, show binade a + binade b - 52 - 52 = (binade a - 52) + (binade b - 52) by ring,
    zpow_add₀ two_ne_zero]
  push_cast
  ring

/-- A product of at least `2^-969` leaves a binary64 value when it is rounded: its steps are those of a word,
and half a step of its grid is at most `2^52` of them. -/
theorem representable_product_error {a b : F64} (s : Bool)
    (hfin : isFinite (rnQ (fval a * fval b) s) = true)
    (hbig : fval a * fval b = 0 ∨ (2 : ℚ) ^ (-969 : ℤ) ≤ |fval a * fval b|) :
    Representable (fval a * fval b - fval (rnQ (fval a * fval b) s)) := by
  by_cases hrep : Representable (fval a * fval b)
  · rw [(hrep.rnQ s).2, sub_self]
    exact representable_zero
  have hq : fval a * fval b ≠ 0 := fun h => hrep (h ▸ representable_zero)
  have hlt : |fval a * fval b| < (2 : ℚ) ^ (binade a + binade b + 2) := by
    rw [abs_mul, show binade a + binade b + 2 = (binade a + 1) + (binade b + 1) by ring,
      zpow_add₀ two_ne_zero]
    exact mul_lt_mul'' (abs_fval_lt_binade a) (abs_fval_lt_binade b) (abs_nonneg _) (abs_nonneg _)
  have hbinades : -970 ≤ binade a + binade b := by
    have := (zpow_lt_zpow_iff_right₀ (one_lt_two (α := ℚ))).mp ((hbig.resolve_left hq).trans_lt hlt)
    omega
  have hbound := (isFinite_rnQ_iff s hq).mp hfin
  have hgrid : binade a + binade b - 52 < gridOf |fval a * fval b| := by
    by_contra! hle
    exact hrep ((steps_mul a b).representable_of_gridOf_le hle hbound)
  have hgrid' : gridOf |fval a * fval b| ≤ binade a + binade b + 1 :=
    gridOf_le_of_lt (by omega) (by convert hlt using 2; ring) (abs_pos.mpr hq)
  have hg := gridOf_le_of_lt_overflowBound (abs_pos.mpr hq) hbound
  obtain ⟨hsteps, herr, -⟩ := rnQ_steps s hq hfin
  refine ((steps_mul a b).sub (hsteps.mono hgrid.le)).representable (by omega) (herr.trans ?_)
    (lt_overflowBound (herr.trans (le_add_of_le_of_nonneg ?_ (by positivity))))
  · exact zpow_le_zpow_right₀ one_le_two (by omega)
  · exact zpow_le_zpow_right₀ one_le_two (by omega)

/-- Settles O32: the fused step computes what the rounding of the product leaves, a binary64 value. -/
theorem exactMultiplyLosesNothing : Obligations.ExactMultiplyLosesNothing := by
  intro a b ha hb hfin hbig
  have hhi := fmul_eq_rnQ ha hb
  have hleft := representable_product_error _ (hhi ▸ hfin) hbig
  rw [← hhi, sub_eq_add_neg, ← fval_fneg] at hleft
  obtain ⟨hlofin, hlo⟩ := hleft.rnQ ((fsign a ^^ fsign b) && fsign (fneg (fmul a b)))
  rw [← ffma_eq_rnQ ha hb (by simpa)] at hlofin hlo
  refine ⟨hlofin, ?_⟩
  rw [ddVal, xmul, hlo, fval_fneg]
  ring

end Sys2Proof.Machine

/-! The Dyadic128 unit by its values (spec/42_dyadic128.md R154 to R167): what each operation answers, exactly or
within its truncations, and how its command ends. -/

namespace Sys2Proof.Machine

/-! ### How the commands end (R26, R151, R261) -/

section Commands
variable {rd ra rb : Reg} {s : State}

/-- The three valid bits of a Q register. -/
def QValid (s : State) (r : Reg) : Prop :=
  s.valid (.qh r) = true ∧ s.valid (.ql r) = true ∧ s.valid (.qe r) = true

theorem readQ_of_qValid {r : Reg} (h : QValid s r) : readQ s r = .ok (rget s.q r) :=
  readQ_of_valid h.1 h.2.1 h.2.2

/-- The valid bits of two Q registers, as the statements list them. -/
theorem qValid_of_forall
    (h : ∀ c ∈ [Component.qh ra, .ql ra, .qe ra, .qh rb, .ql rb, .qe rb], s.valid c = true) :
    QValid s ra ∧ QValid s rb := by
  simpa [QValid, and_assoc] using h

variable {op : Dy → Except CmdFault Dy} {op₂ : Dy → Dy → Except CmdFault Dy} {d : Dy} {x : CmdFault}

theorem dyUnary_completes (ha : QValid s ra) (h : op (s.dyadic ra) = .ok d) :
    ∃ u, dyUnary op rd ra s = .next u ∧ Completed s u (qWrites rd (regOfDy d)) s.sr 0 := by
  rw [State.dyadic] at h
  rw [dyUnary, readQ_of_qValid ha]
  simp only [bind, Except.bind, h]
  exact ⟨_, rfl, completed_writeQ s rd _ s.sr⟩

theorem dyUnary_faults (ha : QValid s ra) (h : op (s.dyadic ra) = .error x) :
    ∃ u, dyUnary op rd ra s = .next u ∧ Faulted s u x := by
  rw [State.dyadic] at h
  rw [dyUnary, readQ_of_qValid ha]
  simp only [bind, Except.bind, h]
  exact ⟨_, rfl, faulted_raise s x⟩

theorem dyBinary_completes (ha : QValid s ra) (hb : QValid s rb)
    (h : op₂ (s.dyadic ra) (s.dyadic rb) = .ok d) :
    ∃ u, dyBinary op₂ rd ra rb s = .next u ∧ Completed s u (qWrites rd (regOfDy d)) s.sr 0 := by
  rw [State.dyadic, State.dyadic] at h
  rw [dyBinary, readQ_of_qValid ha, readQ_of_qValid hb]
  simp only [bind, Except.bind, h]
  exact ⟨_, rfl, completed_writeQ s rd _ s.sr⟩

theorem dyBinary_faults (ha : QValid s ra) (hb : QValid s rb)
    (h : op₂ (s.dyadic ra) (s.dyadic rb) = .error x) :
    ∃ u, dyBinary op₂ rd ra rb s = .next u ∧ Faulted s u x := by
  rw [State.dyadic, State.dyadic] at h
  rw [dyBinary, readQ_of_qValid ha, readQ_of_qValid hb]
  simp only [bind, Except.bind, h]
  exact ⟨_, rfl, faulted_raise s x⟩

end Commands

/-! ### Values of stored triples (R23) -/

/-- A triple that fits is stored with its value. -/
theorem qVal_regOfDy {x : Dy} (h : dyFits x) : qVal (regOfDy x) = dyVal x := by
  rw [qVal, dyOfReg_regOfDy h]

/-- The value of a triple, by its sign and magnitude. -/
theorem dyVal_eq_signed (x : Dy) :
    dyVal x = if x.s then -((x.m : ℚ) * 2 ^ x.e) else (x.m : ℚ) * 2 ^ x.e := by
  rw [dyVal]
  split <;> ring

/-- The magnitude of a triple. -/
theorem abs_dyVal (x : Dy) : |dyVal x| = (x.m : ℚ) * 2 ^ x.e := by
  rw [dyVal_eq_signed]
  split <;> simp [abs_mul]

/-! ### Conversion (R155 to R157) -/

/-- R155: a finite word's triple has its value and sign, and fits a register. -/
theorem fromF64_finite {w : F64} (h : isFinite w = true) :
    ∃ x, fromF64 w = .ok x ∧ dyFits x ∧ dyVal x = fval w ∧ x.s = fsign w := by
  have hexp : fexp w ≠ 2047 := by simpa [isFinite] using h
  have hexp' := fexp_lt w
  have hfrac := ffrac_lt w
  unfold fromF64
  rw [if_neg hexp]
  split_ifs with hzero hsub
  · refine ⟨_, rfl, ⟨by norm_num, by norm_num, by norm_num⟩, ?_, rfl⟩
    rw [(fval_eq_zero_iff w).mpr (by simp [isZero, hzero])]
    simp [dyVal]
  · obtain ⟨hclz, -, hlt⟩ := clz128_spec (ffrac w) (by omega) (by omega)
    rw [← Nat.shiftLeft_eq] at hlt
    refine ⟨_, rfl, ⟨hlt, by dsimp only; omega, by dsimp only; omega⟩, ?_, rfl⟩
    rw [dyVal, fval, if_pos hsub, Nat.shiftLeft_eq, zpow_sub₀ two_ne_zero, zpow_natCast]
    generalize (2 : ℚ) ^ (-1074 : ℤ) = u
    push_cast
    field_simp
  · refine ⟨_, rfl, ⟨by rw [Nat.shiftLeft_eq]; dsimp only; omega, by dsimp only; omega, by dsimp only; omega⟩,
      ?_, rfl⟩
    have hstep : (2 : ℚ) ^ ((fexp w : ℤ) - 1075) = 2 ^ 75 * 2 ^ ((fexp w : ℤ) - 1150) := by
      rw [← zpow_natCast, ← zpow_add₀ two_ne_zero]
      congr 1
      push_cast
      ring
    rw [dyVal, fval, if_neg hsub, hstep, Nat.shiftLeft_eq]
    push_cast
    ring

/-- R155 on a NaN or an infinity. -/
theorem fromF64_not_finite {w : F64} (h : isFinite w = false) : fromF64 w = .error .domain := by
  rw [fromF64, if_pos (by simpa [isFinite] using h)]

/-- R157: the conversion is one rounding of the value, and the flag is its overflow. -/
theorem fastAsF64_eq (x : Dy) :
    fastAsF64 x = (rnQ (dyVal x) x.s, isInf (rnQ (dyVal x) x.s)) := by
  by_cases hm : x.m = 0
  · have hval : dyVal x = 0 := by rw [dyVal, hm, Nat.cast_zero, mul_zero, zero_mul]
    rw [fastAsF64, if_pos hm, hval, rnQ_zero, isInf_zeroOf]
  · have hmpos : 0 < x.m := Nat.pos_of_ne_zero hm
    have hpos : (0 : ℚ) < x.m * 2 ^ x.e := by positivity
    have hround : roundMag x.s (x.m <<< x.e.toNat) (1 <<< (-x.e).toNat) = rnQ (dyVal x) x.s := by
      rw [dyVal_eq_signed, rnQ_signed _ _ hpos, Nat.shiftLeft_eq, Nat.shiftLeft_eq,
        roundMag_eq_roundOn (K := ℚ) _ (by positivity) (by positivity), two_zpow_eq_div]
      push_cast
      rw [one_mul, mul_div_assoc]
    rw [fastAsF64, if_neg hm]
    simp only [hround]

/-- DY.FROMF stores the triple of its operand. -/
theorem dyFromf_completes {rd ra : Reg} {s : State} {x : Dy} (ha : s.valid (.f ra) = true)
    (h : fromF64 (s.component (.f ra)) = .ok x) :
    ∃ u, exec (.dyFromf rd ra) s = .next u ∧ Completed s u (qWrites rd (regOfDy x)) s.sr 0 := by
  rw [exec, execDyFromf, readF_of_valid ha]
  simp only [bind, Except.bind, h]
  exact ⟨_, rfl, completed_writeQ s rd _ s.sr⟩

/-- DY.FROMF raises what the conversion raises. -/
theorem dyFromf_faults {rd ra : Reg} {s : State} {x : CmdFault} (ha : s.valid (.f ra) = true)
    (h : fromF64 (s.component (.f ra)) = .error x) :
    ∃ u, exec (.dyFromf rd ra) s = .next u ∧ Faulted s u x := by
  rw [exec, execDyFromf, readF_of_valid ha]
  simp only [bind, Except.bind, h]
  exact ⟨_, rfl, faulted_raise s x⟩

/-- Settles O37: the significand shifted to bit 127 keeps the value; the examples are computed. -/
theorem dyadicConstructionIsExact : Obligations.DyadicConstructionIsExact := by
  refine ⟨fun rd ra s ha hfin => ?_, fun rd ra s ha hfin => dyFromf_faults ha (fromF64_not_finite hfin),
    by decide +kernel⟩
  obtain ⟨x, hx, hfits, hval, hsign⟩ := fromF64_finite hfin
  obtain ⟨u, hu, hc⟩ := dyFromf_completes (rd := rd) ha hx
  obtain ⟨hnorm, hzero⟩ := (ensures_fromF64 _ x hx).qCanonical
  exact ⟨u, _, hu, hc, hnorm, (qVal_regOfDy hfits).trans hval, hsign, hzero⟩

/-- Settles O38: the command stores the conversion's word and notes its flag. -/
theorem dyadicConversionRoundsOnce : Obligations.DyadicConversionRoundsOnce := by
  intro rd ra s hh hl he
  dsimp only
  rw [exec, execDyTof, readQ_of_valid hh hl he]
  refine ⟨_, rfl, ?_⟩
  simp only [fastAsF64_eq]
  exact completed_writeF s rd _ _

/-- Settles O57: as DY.TOF, in phase ESCALATE. -/
theorem fallbackReturnsTheRoundedDyadic : Obligations.FallbackReturnsTheRoundedDyadic := by
  intro rd ra s hp hh hl he
  dsimp only
  rw [exec, execZivFallback, requirePhase_pass hp, readQ_of_valid hh hl he]
  refine ⟨_, rfl, ?_⟩
  simp only [fastAsF64_eq]
  exact completed_writeF s rd _ _

/-- The triple of a finite word converts back to it. -/
theorem fastAsF64_of_fval {w : F64} {x : Dy} (hfin : isFinite w = true) (hval : dyVal x = fval w)
    (hsign : x.s = fsign w) : fastAsF64 x = (w, false) := by
  have hback : rnQ (dyVal x) x.s = w := by
    rw [hval, hsign]
    cases hz : isZero w
    · exact rnQ_fval hfin hz _
    · rw [(fval_eq_zero_iff w).mpr hz, rnQ_zero]
      exact (eq_zeroOf_fsign hz).symm
  rw [fastAsF64_eq, hback, isInf_of_finite hfin]

/-- Settles O39: the construction keeps value and sign, and a word is the rounding of its own value. -/
theorem roundTripIsExact : Obligations.RoundTripIsExact := by
  intro w hfin
  obtain ⟨x, hx, hfits, hval, hsign⟩ := fromF64_finite hfin
  have hback := fastAsF64_of_fval hfin hval hsign
  exact ⟨x, hx, hback, by rw [dyOfReg_regOfDy hfits, hback]⟩

/-! ### Normalization (R158) -/

/-- A nonzero mantissa's leading zeros, by its logarithm. -/
theorem clz128_eq_log (m : Nat) : clz128 m = 127 - Nat.log 2 m := by
  rw [clz128, Nat.log2_eq_log_two]

/-- The logarithm of a mantissa. -/
theorem log_le_127 {m : Nat} (h : m < 2 ^ 128) : Nat.log 2 m ≤ 127 := by
  by_cases h0 : m = 0
  · simp [h0]
  · exact Nat.lt_succ_iff.mp ((Nat.log_lt_iff_lt_pow one_lt_two h0).mpr h)

/-- `normalize` completes where the shifted exponent fits. -/
theorem normalize_of_fits {s : Bool} {e : Int} {m : Nat} (hm : m < 2 ^ 128) (h0 : m ≠ 0)
    (hlo : -32768 ≤ e - clz128 m) (hhi : e - clz128 m ≤ 32767) :
    normalize s e m = .ok ⟨s, e - clz128 m, m * 2 ^ clz128 m⟩ := by
  rcases normalize_cases s e m hm with ⟨h, -⟩ | ⟨z, -, rfl, -, -, -, ⟨-, -, h⟩ | ⟨hout, -⟩⟩
  · exact absurd h h0
  · exact h
  · omega

/-- `normalize` raises ExpRange where it does not. -/
theorem normalize_of_not_fits {s : Bool} {e : Int} {m : Nat} (hm : m < 2 ^ 128) (h0 : m ≠ 0)
    (hout : e - clz128 m < -32768 ∨ 32767 < e - clz128 m) : normalize s e m = .error .expRange := by
  rcases normalize_cases s e m hm with ⟨h, -⟩ | ⟨z, -, rfl, -, -, -, ⟨hlo, hhi, -⟩ | ⟨-, h⟩⟩
  · exact absurd h h0
  · omega
  · exact h

/-- `normalize` of a zero mantissa. -/
theorem normalize_zero (s : Bool) (e : Int) : normalize s e 0 = .ok ⟨s, 0, 0⟩ := rfl

/-- Settles O41: a shifted mantissa's exponent can only be too low. -/
theorem normalizeKeepsTheValue : Obligations.NormalizeKeepsTheValue := by
  refine ⟨fun rd ra s hh hl he => ?_, by decide, by decide, by decide, by decide⟩
  intro x z
  obtain ⟨hm, helo, hehi⟩ : dyFits x := dyFits_dyOfReg _
  have hlog := log_le_127 hm
  have hz : (clz128 x.m : ℤ) = z := by
    rw [clz128_eq_log]
    omega
  have command {d : Dy} (hd : normalize x.s x.e x.m = .ok d) :
      ∃ u, exec (.dyNorm rd ra) s = .next u ∧ Completed s u (qWrites rd (regOfDy d)) s.sr 0 :=
    dyUnary_completes (op := fun a => normalize a.s a.e a.m) ⟨hh, hl, he⟩ hd
  constructor
  · intro hfits
    have hok : ∃ d, normalize x.s x.e x.m = .ok d := by
      by_cases h0 : x.m = 0
      · rw [h0]
        exact ⟨_, normalize_zero _ _⟩
      · exact ⟨_, normalize_of_fits hm h0 (by omega) (by omega)⟩
    obtain ⟨d, hd⟩ := hok
    obtain ⟨hdfits, hsign, -, -, hval⟩ := normalize_ok hm hd
    obtain ⟨hnorm, hzero⟩ := (ensures_normalize _ _ hm d hd).qCanonical
    obtain ⟨u, hu, hc⟩ := command hd
    exact ⟨u, _, hu, hc, hnorm, (qVal_regOfDy hdfits).trans hval, hsign, hzero⟩
  · intro h0 hlow
    have hout : normalize x.s x.e x.m = .error .expRange := normalize_of_not_fits hm h0 (by omega)
    exact dyUnary_faults (op := fun a => normalize a.s a.e a.m) ⟨hh, hl, he⟩ hout

/-! ### Addition (R160) -/

/-- An ending that raises faults of one kind only. -/
def RaisesOnly {α : Type} (P : CmdFault → Prop) (c : Except CmdFault α) : Prop := ∀ x, c = .error x → P x

section RaisesOnly
variable {α β : Type} {P : CmdFault → Prop}

theorem RaisesOnly.ok {a : α} : RaisesOnly P (.ok a) := nofun

theorem RaisesOnly.error {x : CmdFault} (h : P x) : RaisesOnly P (.error x : Except CmdFault α) := by
  rintro _ ⟨⟩
  exact h

theorem RaisesOnly.bind {c : Except CmdFault α} {k : α → Except CmdFault β} (hc : RaisesOnly P c)
    (hk : ∀ a, RaisesOnly P (k a)) : RaisesOnly P (c >>= k) := by
  cases c with
  | error x => exact .error (hc x rfl)
  | ok a => exact hk a

theorem RaisesOnly.ite {b : Prop} [Decidable b] {c d : Except CmdFault α} (hc : RaisesOnly P c)
    (hd : RaisesOnly P d) : RaisesOnly P (if b then c else d) := by
  split
  · exact hc
  · exact hd

theorem RaisesOnly.mono {Q : CmdFault → Prop} {c : Except CmdFault α} (hc : RaisesOnly P c)
    (h : ∀ x, P x → Q x) : RaisesOnly Q c := fun x hx => h x (hc x hx)

end RaisesOnly

theorem canon_raisesOnly (s : Bool) (e : Int) (m : Nat) : RaisesOnly (· = .expRange) (canon s e m) :=
  .ite .ok (.ite (.error rfl) .ok)

theorem normalize_raisesOnly (s : Bool) (e : Int) (m : Nat) : RaisesOnly (· = .expRange) (normalize s e m) :=
  .ite .ok (canon_raisesOnly _ _ _)

theorem addAligned_raisesOnly (sa sb : Bool) (e : Int) (ma mb : Nat) :
    RaisesOnly (· = .expRange) (addAligned sa sb e ma mb) :=
  .ite (.ite (canon_raisesOnly _ _ _) (normalize_raisesOnly _ _ _))
    (.ite .ok (.ite (normalize_raisesOnly _ _ _) (normalize_raisesOnly _ _ _)))

theorem quickAdd_raisesOnly (a b : Dy) : RaisesOnly (· = .expRange) (quickAdd a b) :=
  .ite (normalize_raisesOnly _ _ _) (.ite (normalize_raisesOnly _ _ _)
    (.ite (addAligned_raisesOnly _ _ _ _ _) (addAligned_raisesOnly _ _ _ _ _)))

theorem quickMul_raisesOnly (a b : Dy) : RaisesOnly (· = .expRange) (quickMul a b) :=
  .ite .ok (normalize_raisesOnly _ _ _)

/-- The sign of a triple, as a factor. -/
def signOf (s : Bool) : ℚ := if s then -1 else 1

/-- The sign factor has magnitude 1. -/
theorem abs_signOf (s : Bool) : |signOf s| = 1 := by
  cases s <;> simp [signOf]

theorem dyVal_eq (s : Bool) (e : Int) (m : Nat) : dyVal ⟨s, e, m⟩ = signOf s * m * 2 ^ e := rfl

/-- A triple that fits and is within `err` of a value. -/
structure Near (v err : ℚ) (d : Dy) : Prop where
  fits : dyFits d
  near : |dyVal d - v| ≤ err

/-- `normalize` is exact. -/
theorem ensures_normalize_near (s : Bool) (e : Int) {m : Nat} (hm : m < 2 ^ 128) {err : ℚ} (herr : 0 ≤ err) :
    Ensures (Near (signOf s * m * 2 ^ e) err) (normalize s e m) := by
  intro d hd
  obtain ⟨hfits, -, -, -, hval⟩ := normalize_ok hm hd
  refine ⟨hfits, ?_⟩
  rw [hval, dyVal_eq, sub_self, abs_zero]
  exact herr

/-- Aligned mantissas are added exactly but for the bit a carry shifts out. -/
theorem ensures_addAligned_near (sa sb : Bool) (e : Int) {ma mb : Nat} (ha : ma < 2 ^ 128) (hb : mb < 2 ^ 128) :
    Ensures (Near ((signOf sa * ma + signOf sb * mb) * 2 ^ e) (2 ^ e)) (addAligned sa sb e ma mb) := by
  have hpos : (0 : ℚ) ≤ 2 ^ e := by positivity
  have hopp : ¬ sa = sb → signOf sb = -signOf sa := by
    cases sa <;> cases sb <;> simp [signOf]
  unfold addAligned
  split_ifs with hsign hcarry hequal hle
  · subst hsign
    rw [Nat.shiftRight_eq_div_pow, pow_one]
    intro d hd
    rcases canon_cases sa (e + 1) ((ma + mb) / 2) with ⟨h0, -⟩ | ⟨-, hlo, hhi, h⟩ | ⟨-, -, h⟩
    · omega
    · rw [h] at hd
      cases hd
      refine ⟨⟨by dsimp only; omega, hlo, hhi⟩, ?_⟩
      have hmod : (ma : ℚ) + mb = 2 * ((ma + mb) / 2 : ℕ) + ((ma + mb) % 2 : ℕ) := by
        exact_mod_cast (Nat.div_add_mod (ma + mb) 2).symm
      have hbit : (((ma + mb) % 2 : ℕ) : ℚ) ≤ 1 := by exact_mod_cast Nat.lt_succ_iff.mp (Nat.mod_lt _ two_pos)
      have hdiff : dyVal ⟨sa, e + 1, (ma + mb) / 2⟩ - (signOf sa * ma + signOf sa * mb) * 2 ^ e =
          -signOf sa * (((ma + mb) % 2 : ℕ) * 2 ^ e) := by
        rw [dyVal_eq, zpow_add_one₀ two_ne_zero]
        linear_combination (-signOf sa * 2 ^ e) * hmod
      rw [hdiff, abs_mul, abs_neg, abs_signOf, one_mul, abs_of_nonneg (by positivity)]
      exact mul_le_of_le_one_left hpos hbit
    · rw [h] at hd
      cases hd
  · subst hsign
    have h := ensures_normalize_near sa e (m := ma + mb) (by omega) hpos
    push_cast at h
    rwa [mul_add] at h
  · subst hequal
    refine .ok ⟨⟨by norm_num, by norm_num, by norm_num⟩, ?_⟩
    rw [hopp hsign, dyVal_eq]
    simpa using hpos
  · have h := ensures_normalize_near sa e (m := ma - mb) (by omega) hpos
    rw [Nat.cast_sub hle] at h
    rwa [hopp hsign, neg_mul, ← sub_eq_add_neg, ← mul_sub]
  · have h := ensures_normalize_near sb e (m := mb - ma) (by omega) hpos
    rw [Nat.cast_sub (by omega)] at h
    rw [hopp hsign] at h ⊢
    convert h using 2
    ring

/-- Aligning a mantissa drops less than one step of the coarser exponent. -/
theorem alignShift_near (m : Nat) {e e' : Int} (h : e ≤ e') (hm : m < 2 ^ 128) :
    0 ≤ (m : ℚ) * 2 ^ e - alignShift m (e' - e) * 2 ^ e' ∧
      (m : ℚ) * 2 ^ e - alignShift m (e' - e) * 2 ^ e' < 2 ^ e' := by
  obtain ⟨n, rfl⟩ : ∃ n : ℕ, e' = e + n := ⟨(e' - e).toNat, by omega⟩
  have hstep : (2 : ℚ) ^ (e + n) = 2 ^ n * 2 ^ e := by
    rw [zpow_add₀ two_ne_zero, zpow_natCast, mul_comm]
  have hpos : (0 : ℚ) < 2 ^ e := by positivity
  rw [(alignShift_eq m _).1, add_sub_cancel_left, Int.toNat_natCast, hstep]
  split
  · have hmod : (m : ℚ) = 2 ^ n * (m / 2 ^ n : ℕ) + (m % 2 ^ n : ℕ) := by
      exact_mod_cast (Nat.div_add_mod m (2 ^ n)).symm
    have hlt : ((m % 2 ^ n : ℕ) : ℚ) < 2 ^ n := by exact_mod_cast Nat.mod_lt m (by positivity)
    have hdiff : (m : ℚ) * 2 ^ e - (m / 2 ^ n : ℕ) * (2 ^ n * 2 ^ e) = (m % 2 ^ n : ℕ) * 2 ^ e := by
      linear_combination 2 ^ e * hmod
    rw [hdiff]
    exact ⟨by positivity, by gcongr⟩
  · rw [Nat.cast_zero, zero_mul, sub_zero]
    refine ⟨by positivity, ?_⟩
    gcongr
    exact_mod_cast hm.trans_le (Nat.pow_le_pow_right two_pos (by omega))

/-- A term of a sum replaced by one that is smaller by less than `E`. -/
theorem abs_sub_lt_of_dropped {d v σ x y E : ℚ} (hσ : |σ| = 1) (hd : |d - (v + σ * y)| ≤ E) (h0 : 0 ≤ x - y)
    (hE : x - y < E) : |d - (v + σ * x)| < 2 * E := by
  have hsplit : d - (v + σ * x) = (d - (v + σ * y)) - σ * (x - y) := by ring
  have hdrop : |σ * (x - y)| = x - y := by rw [abs_mul, hσ, one_mul, abs_of_nonneg h0]
  calc |d - (v + σ * x)| ≤ |d - (v + σ * y)| + |σ * (x - y)| := hsplit ▸ abs_sub _ _
    _ < 2 * E := by linarith

/-- R160's bound: one step for the carry and less than one for the alignment. -/
theorem ensures_quickAdd_near {a b : Dy} (ha : a.m < 2 ^ 128) (hb : b.m < 2 ^ 128) :
    Ensures (fun d => dyFits d ∧ |dyVal d - (dyVal a + dyVal b)| < 2 * (2 : ℚ) ^ max a.e b.e) (quickAdd a b) := by
  have hmax : (0 : ℚ) < 2 * 2 ^ max a.e b.e := by positivity
  have hval : ∀ x : Dy, dyVal x = signOf x.s * x.m * 2 ^ x.e := fun x => rfl
  unfold quickAdd
  split_ifs with ha0 hb0 hle
  · intro d hd
    obtain ⟨hfits, hnear⟩ := ensures_normalize_near b.s b.e hb le_rfl d hd
    refine ⟨hfits, lt_of_le_of_lt ?_ hmax⟩
    rwa [hval a, ha0, Nat.cast_zero, mul_zero, zero_mul, zero_add]
  · intro d hd
    obtain ⟨hfits, hnear⟩ := ensures_normalize_near a.s a.e ha le_rfl d hd
    refine ⟨hfits, lt_of_le_of_lt ?_ hmax⟩
    rwa [hval b, hb0, Nat.cast_zero, mul_zero, zero_mul, add_zero]
  · intro d hd
    obtain ⟨hfits, hnear⟩ := ensures_addAligned_near a.s b.s a.e ha (alignShift_lt _ hb) d hd
    obtain ⟨hdrop0, hdrop⟩ := alignShift_near b.m hle hb
    refine ⟨hfits, ?_⟩
    rw [add_mul, mul_assoc (signOf b.s)] at hnear
    rw [max_eq_left hle, hval a, hval b, mul_assoc (signOf b.s)]
    exact abs_sub_lt_of_dropped (abs_signOf b.s) hnear hdrop0 hdrop
  · have hle' := le_of_not_ge hle
    intro d hd
    obtain ⟨hfits, hnear⟩ := ensures_addAligned_near a.s b.s b.e (alignShift_lt _ ha) hb d hd
    obtain ⟨hdrop0, hdrop⟩ := alignShift_near a.m hle' ha
    refine ⟨hfits, ?_⟩
    rw [add_mul, add_comm, mul_assoc (signOf a.s)] at hnear
    rw [max_eq_right hle', add_comm, hval a, hval b, mul_assoc (signOf a.s)]
    exact abs_sub_lt_of_dropped (abs_signOf a.s) hnear hdrop0 hdrop

end Sys2Proof.Machine

/-! The commands of the Dyadic128 unit but for the reciprocals (spec/42_dyadic128.md R160 to R162, R167). -/

namespace Sys2Proof.Machine

/-! ### DY.ADD (R160) -/

/-- Two triples' mantissas aligned at the larger exponent (R160). -/
def alignedMants (a b : Dy) : ℕ × ℕ :=
  let n : ℤ := |a.e - b.e|
  (if b.e ≤ a.e then a.m else if n < 128 then a.m / 2 ^ n.toNat else 0,
    if b.e ≤ a.e then (if n < 128 then b.m / 2 ^ n.toNat else 0) else b.m)

/-- Aligned addition as R160's pseudocode has it. -/
theorem addAligned_eq (sa sb : Bool) (e : Int) (ma mb : Nat) :
    addAligned sa sb e ma mb =
      if sa = sb then if 2 ^ 128 ≤ ma + mb then canon sa (e + 1) ((ma + mb) / 2) else normalize sa e (ma + mb)
      else if ma = mb then .ok ⟨sa, 0, 0⟩
      else if mb < ma then normalize sa e (ma - mb)
      else normalize sb e (mb - ma) := by
  unfold addAligned
  rw [Nat.shiftRight_eq_div_pow, pow_one]
  by_cases hm : ma = mb
  · simp only [hm, if_true]
  · have hlt : mb < ma ↔ mb ≤ ma := by omega
    simp only [hlt]

/-- `quick_add` aligns the mantissas, but for a zero operand. -/
theorem quickAdd_eq (a b : Dy) : quickAdd a b =
    if a.m = 0 then normalize b.s b.e b.m
    else if b.m = 0 then normalize a.s a.e a.m
    else addAligned a.s b.s (max a.e b.e) (alignedMants a b).1 (alignedMants a b).2 := by
  unfold quickAdd alignedMants
  by_cases hle : b.e ≤ a.e
  · rw [max_eq_left hle, abs_of_nonneg (by omega)]
    simp only [hle, if_true, (alignShift_eq _ _).1]
  · have hle' := le_of_not_ge hle
    rw [max_eq_right hle', abs_of_nonpos (by omega), neg_sub]
    simp only [hle, if_false, (alignShift_eq _ _).1]

/-- Every register holds a mantissa of 128 bits. -/
theorem dyadic_mant_lt (s : State) (r : Reg) : (s.dyadic r).m < 2 ^ 128 := dyOfReg_mant_lt _

/-- Settles O42: the pseudocode is `quick_add`, which fits its results and raises nothing but ExpRange. -/
theorem dyadicAddFollowsItsPseudocode : Obligations.DyadicAddFollowsItsPseudocode := by
  refine ⟨fun rd ra rb s hv => ?_, by decide +kernel⟩
  obtain ⟨ha, hb⟩ := qValid_of_forall hv
  intro a b n e ma mb r
  have hr : r = quickAdd a b := by
    rw [quickAdd_eq, addAligned_eq]
    rfl
  rw [hr]
  constructor
  · intro d hd
    obtain ⟨u, hu, hc⟩ := dyBinary_completes (rd := rd) ha hb hd
    exact ⟨u, hu, hc, (ensures_quickAdd_near (dyadic_mant_lt s ra) (dyadic_mant_lt s rb) d hd).1⟩
  · intro x hx
    obtain rfl := quickAdd_raisesOnly _ _ x hx
    exact ⟨rfl, dyBinary_faults ha hb hx⟩

/-! ### DY.MUL (R161) -/

/-- `quick_mul` normalizes the high half of the product, of a zero operand too. -/
theorem quickMul_eq (a b : Dy) :
    quickMul a b = normalize (a.s ^^ b.s) (a.e + b.e + 128) (a.m * b.m / 2 ^ 128) := by
  rw [quickMul, Nat.shiftRight_eq_div_pow]
  split_ifs with h
  · rw [Nat.mul_eq_zero.mpr h, Nat.zero_div, normalize_zero]
  · rfl

/-- The high half of a product has 128 bits. -/
theorem high_half_lt {m n : Nat} (hm : m < 2 ^ 128) (hn : n < 2 ^ 128) : m * n / 2 ^ 128 < 2 ^ 128 :=
  Nat.div_lt_of_lt_mul (Nat.mul_lt_mul'' hm hn)

/-- The zero triple, stored. -/
theorem regOfDy_zero (s : Bool) : regOfDy ⟨s, 0, 0⟩ = ⟨s, 0, 0⟩ := by
  simp [regOfDy]

/-- Settles O43: `quick_mul` is one normalization. -/
theorem dyadicMulKeepsTheHighHalf : Obligations.DyadicMulKeepsTheHighHalf := by
  refine ⟨fun rd ra rb s hv => ?_, by decide +kernel, by decide +kernel⟩
  obtain ⟨ha, hb⟩ := qValid_of_forall hv
  intro a b m z e sign
  have hm : m < 2 ^ 128 := high_half_lt (dyadic_mant_lt s ra) (dyadic_mant_lt s rb)
  have hmul : quickMul a b = normalize sign (a.e + b.e + 128) m := quickMul_eq a b
  have hz : clz128 m = z := clz128_eq_log m
  have he : e = a.e + b.e + 128 - z := rfl
  clear_value e z m sign
  subst he
  refine ⟨fun h0 => ?_, fun h0 hlo hhi => ?_,
    fun h0 hout => dyBinary_faults ha hb (hmul.trans (normalize_of_not_fits hm h0 (hz ▸ hout)))⟩
  · rw [h0, normalize_zero] at hmul
    have hc := dyBinary_completes (rd := rd) ha hb hmul
    rw [regOfDy_zero] at hc
    exact hc
  · have hok := hmul.trans (normalize_of_fits hm h0 (hz ▸ hlo) (hz ▸ hhi))
    rw [hz] at hok
    obtain ⟨u, hu, hc⟩ := dyBinary_completes (rd := rd) ha hb hok
    rw [regOfDy] at hc
    exact ⟨u, hu, hc⟩

/-! ### Error bounds (R160, R161) -/

/-- R161's bound: the low half of the product, dropped, is less than `2^-126` of a product of normalized
mantissas. -/
theorem ensures_quickMul_near {a b : Dy} (ha : a.m < 2 ^ 128) (hb : b.m < 2 ^ 128) (ha' : 2 ^ 127 ≤ a.m)
    (hb' : 2 ^ 127 ≤ b.m) : Ensures (fun d => dyFits d ∧
      |dyVal d - dyVal a * dyVal b| < (2 : ℚ) ^ (-126 : ℤ) * |dyVal a * dyVal b|) (quickMul a b) := by
  rw [quickMul_eq]
  intro d hd
  obtain ⟨hfits, hnear⟩ := ensures_normalize_near (a.s ^^ b.s) (a.e + b.e + 128) (high_half_lt ha hb) le_rfl d hd
  refine ⟨hfits, ?_⟩
  have hval : dyVal d = signOf (a.s ^^ b.s) * (a.m * b.m / 2 ^ 128 : ℕ) * 2 ^ (a.e + b.e + 128) :=
    sub_eq_zero.mp (abs_nonpos_iff.mp hnear)
  have hexact : dyVal a * dyVal b = signOf (a.s ^^ b.s) * ((a.m * b.m : ℕ) * 2 ^ (a.e + b.e)) := by
    rw [dyVal, dyVal, zpow_add₀ two_ne_zero]
    cases a.s <;> cases b.s <;> simp [signOf] <;> ring
  have hstep : (2 : ℚ) ^ (a.e + b.e + 128) = 2 ^ 128 * 2 ^ (a.e + b.e) := by
    rw [zpow_add₀ two_ne_zero, mul_comm]
    norm_cast
  have hdrop : ((a.m * b.m : ℕ) : ℚ) = 2 ^ 128 * (a.m * b.m / 2 ^ 128 : ℕ) + (a.m * b.m % 2 ^ 128 : ℕ) := by
    exact_mod_cast (Nat.div_add_mod (a.m * b.m) (2 ^ 128)).symm
  have hlow : ((a.m * b.m % 2 ^ 128 : ℕ) : ℚ) < 2 ^ (-126 : ℤ) * (a.m * b.m : ℕ) := by
    have hrem : ((a.m * b.m % 2 ^ 128 : ℕ) : ℚ) < 2 ^ 128 := by exact_mod_cast Nat.mod_lt _ (by norm_num)
    have hbig : (2 : ℚ) ^ 254 ≤ (a.m * b.m : ℕ) := by
      have := Nat.mul_le_mul ha' hb'
      rw [← pow_add] at this
      exact_mod_cast this
    have hscale : (2 : ℚ) ^ 128 = 2 ^ (-126 : ℤ) * 2 ^ 254 := by
      rw [← zpow_natCast, ← zpow_natCast, ← zpow_add₀ two_ne_zero]
      norm_num
    calc ((a.m * b.m % 2 ^ 128 : ℕ) : ℚ) < 2 ^ (-126 : ℤ) * 2 ^ 254 := hscale ▸ hrem
      _ ≤ _ := by gcongr
  have hpos : (0 : ℚ) < 2 ^ (a.e + b.e) := by positivity
  have hdiff : dyVal d - dyVal a * dyVal b =
      -(signOf (a.s ^^ b.s) * ((a.m * b.m % 2 ^ 128 : ℕ) * 2 ^ (a.e + b.e))) := by
    rw [hval, hexact, hstep]
    linear_combination (-signOf (a.s ^^ b.s) * 2 ^ (a.e + b.e)) * hdrop
  rw [hdiff, hexact, abs_neg, abs_mul (signOf _), abs_mul (signOf _), abs_signOf, one_mul, one_mul,
    abs_of_nonneg (by positivity), abs_of_nonneg (by positivity), ← mul_assoc]
  exact mul_lt_mul_of_pos_right hlow hpos

/-- What a completing command on two Q registers left in `Q[rd]`. -/
theorem dyBinary_stores {op : Dy → Dy → Except CmdFault Dy} {P : Dy → Prop} {rd ra rb : Reg} {s u : State}
    (hop : Ensures (fun d => dyFits d ∧ P d) (op (s.dyadic ra) (s.dyadic rb)))
    (h : dyBinary op rd ra rb s = .next u) (hout : ∃ rdata, u.output = s.output ++ [⟨0, rdata⟩]) :
    ∃ d, P d ∧ qVal (rget u.q rd) = dyVal d := by
  have hc : Ensures (fun t => ∃ d, P d ∧ qVal (rget t.q rd) = dyVal d)
      (readQ s ra >>= fun a => readQ s rb >>= fun b => op (dyOfReg a) (dyOfReg b) >>= fun r =>
        pure (s.writeQ rd (regOfDy r))) := by
    refine (ensures_needValid _ _).bind ?_
    rintro _ rfl
    refine (ensures_needValid _ _).bind ?_
    rintro _ rfl
    exact hop.bind fun d hd => .ok ⟨d, hd.2, by simpa using qVal_regOfDy hd.1⟩
  obtain ⟨t, ht, rfl⟩ := hc.of_completed h hout
  exact ht

/-- A register's bit 127 is the top bit of its mantissa. -/
theorem top_bit_le {q : QReg} (h : q.mant.getLsbD 127 = true) : 2 ^ 127 ≤ (dyOfReg q).m := by
  rw [← BitVec.msb_eq_getLsbD_last (w := 128), BitVec.msb_eq_decide] at h
  exact of_decide_eq_true h

/-- Settles O44: the bounds of the two operations, on what the commands store. -/
theorem dyadicSumAndProductAreClose : Obligations.DyadicSumAndProductAreClose := by
  refine ⟨fun rd ra rb s u h hout => ?_, fun rd ra rb s u h hout ha hb => ?_⟩
  · obtain ⟨d, hnear, hd⟩ :=
      dyBinary_stores (ensures_quickAdd_near (dyadic_mant_lt s ra) (dyadic_mant_lt s rb)) h hout
    rw [hd]
    exact hnear
  · obtain ⟨d, hnear, hd⟩ := dyBinary_stores (ensures_quickMul_near (dyadic_mant_lt s ra)
      (dyadic_mant_lt s rb) (top_bit_le ha) (top_bit_le hb)) h hout
    rw [hd]
    exact hnear

/-! ### DY.NEG (R162) -/

/-- The other sign is bit 16 of the sign-and-exponent component flipped. -/
theorem qe_not_sign (b : Bool) (e : BitVec 16) :
    (0#47 ++ BitVec.ofBool (!b) ++ e : Word) = (0#47 ++ BitVec.ofBool b ++ e : Word) ^^^ 0x0000000000010000 := by
  apply BitVec.eq_of_getLsbD_eq
  intro n hn
  rw [BitVec.getLsbD_xor]
  simp only [BitVec.getLsbD_append, BitVec.getLsbD_ofBool]
  interval_cases n <;> simp

/-- Settles O45: the register is written whole, two of its components as they were. -/
theorem negateFlipsTheSignOnly : Obligations.NegateFlipsTheSignOnly := by
  intro rd ra s hh hl he
  rw [exec, execDyNeg, readQ_of_valid hh hl he]
  refine ⟨_, rfl, ?_⟩
  have hc := completed_writeQ s rd { rget s.q ra with sign := !(rget s.q ra).sign } s.sr
  rw [qWrites, qe_not_sign] at hc
  exact hc

/-! ### DY.RND (R167) -/

/-- Half added and the fraction dropped is the floor. -/
theorem floor_add_half (m k : ℕ) :
    ⌊(m : ℚ) * 2 ^ (-(k + 1 : ℕ) : ℤ) + 1 / 2⌋ = ((m + 1 <<< k) >>> (k + 1) : ℕ) := by
  have hratio : (m : ℚ) * 2 ^ (-(k + 1 : ℕ) : ℤ) + 1 / 2 = ((m + 2 ^ k : ℕ) : ℚ) / (2 ^ (k + 1) : ℕ) := by
    rw [zpow_neg, zpow_natCast, pow_succ]
    push_cast
    field_simp
    ring
  rw [hratio, Rat.floor_natCast_div_natCast, Nat.shiftRight_eq_div_pow, Nat.one_shiftLeft, Int.natCast_div]

/-- R167: DY.RND never faults, keeps the sign and rounds half up the magnitude. -/
theorem dyRound_spec {x : Dy} (hx : dyFits x) :
    ∃ d, dyRound x = .ok d ∧ dyFits d ∧ d.s = x.s ∧ |dyVal d| = (⌊|dyVal x| + 1 / 2⌋ : ℤ) := by
  obtain ⟨hm, hlo, hhi⟩ := hx
  unfold dyRound
  split_ifs with h0 he
  · refine ⟨_, rfl, ⟨by norm_num, by norm_num, by norm_num⟩, rfl, ?_⟩
    rw [abs_dyVal, abs_dyVal, h0]
    norm_num
  · obtain ⟨hclz, -, -⟩ := clz128_spec x.m (by omega) hm
    have hok := normalize_of_fits (s := x.s) (e := x.e) hm h0 (by omega) (by omega)
    obtain ⟨hfits, hsign, -, -, hval⟩ := normalize_ok hm hok
    refine ⟨_, hok, hfits, hsign, ?_⟩
    obtain ⟨k, hk⟩ := Int.eq_ofNat_of_zero_le he
    have hint : |dyVal x| = ((x.m * 2 ^ k : ℕ) : ℚ) := by
      rw [abs_dyVal, hk]
      push_cast
      rfl
    have hfloor : ⌊((x.m * 2 ^ k : ℕ) : ℚ) + 1 / 2⌋ = (x.m * 2 ^ k : ℕ) := by
      rw [Int.floor_natCast_add]
      norm_num
    rw [hval, hint, hfloor, Int.cast_natCast]
  · obtain ⟨k, hk⟩ : ∃ k : ℕ, x.e = -(k + 1 : ℕ) := ⟨(-x.e - 1).toNat, by omega⟩
    have hk1 : (-x.e - 1).toNat = k := by omega
    have hk2 : (-x.e).toNat = k + 1 := by omega
    rw [hk1, hk2]
    have hlt : (x.m + 1 <<< k) >>> (k + 1) < 2 ^ 128 := (add_half_shiftRight_le h0 k).trans_lt hm
    have hok : ∃ d, normalize x.s 0 ((x.m + 1 <<< k) >>> (k + 1)) = .ok d := by
      by_cases hr : (x.m + 1 <<< k) >>> (k + 1) = 0
      · rw [hr]
        exact ⟨_, normalize_zero _ _⟩
      · obtain ⟨hclz, -, -⟩ := clz128_spec _ (Nat.pos_of_ne_zero hr) hlt
        exact ⟨_, normalize_of_fits hlt hr (by omega) (by omega)⟩
    obtain ⟨d, hd⟩ := hok
    obtain ⟨hfits, hsign, -, -, hval⟩ := normalize_ok hlt hd
    refine ⟨d, hd, hfits, hsign, ?_⟩
    rw [hval, abs_dyVal, abs_dyVal, hk, floor_add_half]
    dsimp only
    rw [zpow_zero, mul_one, Int.cast_natCast]

/-- Settles O48: the stored triple is the rounded one. -/
theorem roundToIntegerIsTiesAway : Obligations.RoundToIntegerIsTiesAway := by
  intro rd ra s hh hl he
  obtain ⟨d, hd, hfits, hsign, hval⟩ := dyRound_spec (dyFits_dyOfReg (rget s.q ra))
  obtain ⟨u, hu, hc⟩ := dyUnary_completes (rd := rd) ⟨hh, hl, he⟩ hd
  obtain ⟨hnorm, hzero⟩ := (ensures_dyRound (dyOfReg_mant_lt _) d hd).qCanonical
  exact ⟨u, _, hu, hc, hsign, hnorm, hzero, by rw [qVal_regOfDy hfits]; exact hval⟩

end Sys2Proof.Machine

/-! The escalation multiplexer's error term and test (spec/44_escalation_mux.md R213, R214) and the two large
reductions (spec/43_range_reduction.md R195, R196). -/

namespace Sys2Proof.Machine

/-! ### ZIV.BOUND and ZIV.TEST (R213, R214) -/

/-- The magnitude keeps the exponent field and the fraction. -/
theorem fexp_ffrac_fabs (a : F64) : fexp (fabs a) = fexp a ∧ ffrac (fabs a) = ffrac a := by
  have hbit {n : Nat} (hn : n < 63) := (getLsbD_fneg_fabs a hn).2
  constructor
  · refine congrArg BitVec.toNat (BitVec.eq_of_getLsbD_eq fun n hn => ?_)
    rw [BitVec.getLsbD_extractLsb', BitVec.getLsbD_extractLsb', hbit (by omega)]
  · refine congrArg BitVec.toNat (BitVec.eq_of_getLsbD_eq fun n hn => ?_)
    rw [BitVec.getLsbD_extractLsb', BitVec.getLsbD_extractLsb', hbit (by omega)]

@[simp] theorem isNan_fabs (a : F64) : isNan (fabs a) = isNan a := by simp [isNan, fexp_ffrac_fabs]
@[simp] theorem isInf_fabs (a : F64) : isInf (fabs a) = isInf a := by simp [isInf, fexp_ffrac_fabs]

/-- An infinite high word times a zero bound is invalid (R213). -/
theorem errBound_inf_zero {hi abs : F64} (h : isInf hi = true) : errBound hi 0 abs = qNaN := by
  cases hn : isNan abs
  · have hinf : isInf (fabs hi) = true := by rwa [isInf_fabs]
    exact (ffma_special (isNan_of_isInf hinf) (by decide) hn).1 (.inl ⟨hinf, by decide⟩)
  · exact ffma_nan_3 _ _ hn

/-- Settles O55: the command read off in phase FAST. -/
theorem boundFormsTheErrorTerm : Obligations.BoundFormsTheErrorTerm := by
  refine ⟨fun rd ra rb rc s hp hh hl hb hc => ?_, fun hi abs h => errBound_inf_zero h,
    fun hi rel abs h => ffma_nan_1 _ _ (by rwa [isNan_fabs]), by decide +kernel⟩
  rw [exec, execZivBound, requirePhase_pass hp, readD_of_valid hh hl, readF_of_valid hb, readF_of_valid hc]
  exact ⟨_, rfl, completed_writeF s rd _ _⟩

/-- A NaN anywhere makes upper and lower NaNs, which are equal to nothing. -/
theorem feq_zivUpper_zivLower_nan {x : DReg} {err : F64}
    (h : isNan x.hi = true ∨ isNan x.lo = true ∨ isNan err = true) :
    feq (zivUpper x err) (zivLower x err) = false := by
  have hupper : zivUpper x err = qNaN := by
    rcases h with h | h | h <;> simp [zivUpper, h]
  simp [hupper, feq]

/-- Settles O56: the command read off in phase BOUND, by the outcome of the comparison. -/
theorem testAcceptsOrEscalates : Obligations.TestAcceptsOrEscalates := by
  refine ⟨fun rd ra rb s hp hh hl hb => ?_, fun x err h => feq_zivUpper_zivLower_nan h⟩
  intro hi lo err upper lower
  rw [exec, execZivTest, requirePhase_pass hp, readD_of_valid hh hl, readF_of_valid hb]
  constructor
  · intro (haccept : feq (zivUpper ⟨hi, lo⟩ err) (zivLower ⟨hi, lo⟩ err) = true)
    refine ⟨_, congrArg (finish0 s) (if_pos haccept), completed_writeF s rd _ _⟩
  · intro (hreject : feq (zivUpper ⟨hi, lo⟩ err) (zivLower ⟨hi, lo⟩ err) = false)
    refine ⟨_, congrArg (finish0 s) (if_neg (by rw [hreject]; decide)), completed_setSr s _⟩

/-! ### RR.LARGE and RR.LARGEQ (R195, R196) -/

/-- The check of both large reductions: the operand is a NaN or an infinity. -/
theorem isNan_or_isInf (x : F64) : (isNan x || isInf x) = !isFinite x := by
  cases h : ffrac x == 0 <;> simp [isNan, isInf, isFinite, h, bne]

section Large
variable {rd ra rc : Reg} {s : State} (hv : s.valid (.f ra) = true)
include hv

theorem rrLarge_of_finite (h : isFinite (s.component (.f ra)) = true) :
    let r := Config.rrLarge (s.component (.f ra))
    ∃ u, exec (.rrLarge rd ra rc) s = .next u ∧
      Completed s u [(.dh rd, wordOfFinite r.hi), (.dl rd, wordOfFinite r.lo), (.k rc, r.k)] s.sr 0 := by
  rw [exec, execRrLarge, readF_of_valid hv]
  refine ⟨_, congrArg (finish0 s) (if_neg ?_), completed_writeD_writeK s rd rc _ _⟩
  rw [isNan_or_isInf, h]
  decide

theorem rrLarge_of_not_finite (h : isFinite (s.component (.f ra)) = false) :
    ∃ u, exec (.rrLarge rd ra rc) s = .next u ∧ Faulted s u .domain := by
  rw [exec, execRrLarge, readF_of_valid hv]
  refine ⟨_, congrArg (finish0 s) (if_pos ?_), faulted_raise s _⟩
  rw [isNan_or_isInf, h]
  decide

theorem rrLargeq_of_finite (h : isFinite (s.component (.f ra)) = true) :
    let r := Config.rrLargeQ (s.component (.f ra))
    ∃ u, exec (.rrLargeq rd ra rc) s = .next u ∧
      Completed s u (qWrites rd (regOfNormal r.q) ++ [(.k rc, r.k)]) s.sr 0 := by
  rw [exec, execRrLargeq, readF_of_valid hv]
  refine ⟨_, congrArg (finish0 s) (if_neg ?_), completed_writeQ_writeK s rd rc _ _⟩
  rw [isNan_or_isInf, h]
  decide

theorem rrLargeq_of_not_finite (h : isFinite (s.component (.f ra)) = false) :
    ∃ u, exec (.rrLargeq rd ra rc) s = .next u ∧ Faulted s u .domain := by
  rw [exec, execRrLargeq, readF_of_valid hv]
  refine ⟨_, congrArg (finish0 s) (if_pos ?_), faulted_raise s _⟩
  rw [isNan_or_isInf, h]
  decide

end Large

/-- Settles O51: the command is the parameter's; the contract is the parameter's, at the operand. -/
theorem largeReductionKeepsItsContract : Obligations.LargeReductionKeepsItsContract := by
  refine fun rd ra rc s hv => ⟨fun hfin => ?_, rrLarge_of_not_finite hv⟩
  obtain ⟨u, hu, hc⟩ := rrLarge_of_finite (rd := rd) (rc := rc) hv hfin
  refine ⟨u, hu, hc, isFinite_wordOfFinite _, isFinite_wordOfFinite _, fun bound hbound => ?_⟩
  exact hbound _ hfin

/-- Settles O52: as RR.LARGE, the residual normalized by its type. -/
theorem largeDyadicReductionKeepsItsContract : Obligations.LargeDyadicReductionKeepsItsContract := by
  refine fun rd ra rc s hv => ⟨fun hfin => ?_, rrLargeq_of_not_finite hv⟩
  obtain ⟨u, hu, hc⟩ := rrLargeq_of_finite (rd := rd) (rc := rc) hv hfin
  refine ⟨u, hu, hc, qNormalized_regOfNormal _, fun bound hbound => ?_⟩
  exact hbound _ hfin

end Sys2Proof.Machine

/-! The Newton reciprocal of the Dyadic128 unit (spec/42_dyadic128.md R163): where it has a seed it completes, and
with the divisor's sign. -/

namespace Sys2Proof.Machine

/-! ### Exponents that cannot leave the field (R154, R163) -/

/-- A triple whose exponent has magnitude at most `E`. -/
structure Within (E : ℤ) (d : Dy) : Prop where
  mant_lt : d.m < 2 ^ 128
  le_exp : -E ≤ d.e
  exp_le : d.e ≤ E

theorem normalize_completes {e E : ℤ} {m : ℕ} (s : Bool) (hm : m < 2 ^ 128) (hlo : -E ≤ e - 127) (hhi : e ≤ E)
    (hE : E ≤ 32767) : ∃ d, normalize s e m = .ok d ∧ Within E d := by
  by_cases h0 : m = 0
  · subst h0
    exact ⟨_, normalize_zero s e, by norm_num, by dsimp only; omega, by dsimp only; omega⟩
  · obtain ⟨hz, -, hlt⟩ := clz128_spec m (by omega) hm
    exact ⟨_, normalize_of_fits hm h0 (by omega) (by omega), hlt, by dsimp only; omega, by dsimp only; omega⟩

theorem addAligned_completes {e E : ℤ} {ma mb : ℕ} (sa sb : Bool) (ha : ma < 2 ^ 128) (hb : mb < 2 ^ 128)
    (hlo : -E ≤ e - 127) (hhi : e + 1 ≤ E) (hE : E ≤ 32767) :
    ∃ d, addAligned sa sb e ma mb = .ok d ∧ Within E d := by
  unfold addAligned
  split_ifs with hsign hcarry
  · rw [Nat.shiftRight_eq_div_pow, pow_one]
    rcases canon_cases sa (e + 1) ((ma + mb) / 2) with ⟨h0, -⟩ | ⟨-, -, -, h⟩ | ⟨-, hout, -⟩
    · omega
    · exact ⟨_, h, by dsimp only; omega, by dsimp only; omega, hhi⟩
    · omega
  · exact normalize_completes _ (by omega) hlo (by omega) hE
  · exact ⟨_, rfl, by norm_num, by dsimp only; omega, by dsimp only; omega⟩
  · exact normalize_completes _ (by omega) hlo (by omega) hE
  · exact normalize_completes _ (by omega) hlo (by omega) hE

section Completes
variable {A B E : ℤ} {a b : Dy}

theorem quickMul_completes (ha : Within A a) (hb : Within B b) (hAB : A + B + 128 ≤ E) (hE : E ≤ 32767) :
    ∃ d, quickMul a b = .ok d ∧ Within E d := by
  have halo := ha.le_exp
  have hahi := ha.exp_le
  have hblo := hb.le_exp
  have hbhi := hb.exp_le
  rw [quickMul_eq]
  exact normalize_completes _ (high_half_lt ha.mant_lt hb.mant_lt) (by omega) (by omega) hE

theorem quickAdd_completes (ha : Within A a) (hb : Within A b) (hA : A + 127 ≤ E) (hE : E ≤ 32767) :
    ∃ d, quickAdd a b = .ok d ∧ Within E d := by
  have halo := ha.le_exp
  have hahi := ha.exp_le
  have hblo := hb.le_exp
  have hbhi := hb.exp_le
  unfold quickAdd
  split_ifs
  · exact normalize_completes _ hb.mant_lt (by omega) (by omega) hE
  · exact normalize_completes _ ha.mant_lt (by omega) (by omega) hE
  · exact addAligned_completes _ _ ha.mant_lt (alignShift_lt _ hb.mant_lt) (by omega) (by omega) hE
  · exact addAligned_completes _ _ (alignShift_lt _ ha.mant_lt) hb.mant_lt (by omega) (by omega) hE

end Completes

/-- One Newton-Raphson step (R163). -/
def newtonStep (x y : Dy) : Except CmdFault Dy := do
  let t ← quickMul x y
  let u ← quickAdd dyTwo (dyNegate t)
  quickMul y u

theorem newtonSteps_succ (n : Nat) (x y : Dy) : newtonSteps (n + 1) x y = newtonStep x y >>= newtonSteps n x := by
  simp only [newtonSteps, newtonStep, bind_assoc]

theorem newtonStep_completes {X Y E : ℤ} {x y : Dy} (hx : Within X x) (hy : Within Y y)
    (hXY : X + 2 * Y + 383 ≤ E) (hE : E ≤ 32767) : ∃ d, newtonStep x y = .ok d ∧ Within E d := by
  have hX : 0 ≤ X := by linarith [hx.le_exp, hx.exp_le]
  have hY : 0 ≤ Y := by linarith [hy.le_exp, hy.exp_le]
  obtain ⟨t, ht, htw⟩ := quickMul_completes hx hy (le_refl _) (by omega)
  have htwo : Within (X + Y + 128) dyTwo := ⟨by decide, by simp only [dyTwo]; omega, by simp only [dyTwo]; omega⟩
  have hneg : Within (X + Y + 128) (dyNegate t) := ⟨htw.mant_lt, htw.le_exp, htw.exp_le⟩
  obtain ⟨u, hu, huw⟩ := quickAdd_completes htwo hneg (le_refl _) (by omega)
  obtain ⟨d, hd, hdw⟩ := quickMul_completes hy huw (E := E) (by omega) hE
  exact ⟨d, by simp only [newtonStep, ht, hu, hd, bind, Except.bind], hdw⟩

/-- The three steps from a binary64 seed of a binary64 divisor: the exponents stay far inside the field. -/
theorem newtonSteps_completes {x y : Dy} (hx : Within 1204 x) (hy : Within 1204 y) :
    ∃ d, newtonSteps 3 x y = .ok d := by
  obtain ⟨y₁, h₁, hw₁⟩ := newtonStep_completes (E := 4000) hx hy (by norm_num) (by norm_num)
  obtain ⟨y₂, h₂, hw₂⟩ := newtonStep_completes (E := 9600) hx hw₁ (by norm_num) (by norm_num)
  obtain ⟨y₃, h₃, -⟩ := newtonStep_completes (E := 20800) hx hw₂ (by norm_num) (by norm_num)
  refine ⟨y₃, ?_⟩
  rw [newtonSteps_succ, h₁]
  change newtonSteps 2 x y₁ = _
  rw [newtonSteps_succ, h₂]
  change newtonSteps 1 x y₂ = _
  rw [newtonSteps_succ, h₃]
  rfl

/-! ### The sign of the steps (R163) -/

/-- The product's sign and truncated magnitude. -/
theorem ensures_quickMul_trunc {a b : Dy} (ha : a.m < 2 ^ 128) (hb : b.m < 2 ^ 128) :
    Ensures (fun d => d.s = (a.s ^^ b.s) ∧ |dyVal d| = (a.m * b.m / 2 ^ 128 : ℕ) * (2 : ℚ) ^ (a.e + b.e + 128))
      (quickMul a b) := by
  rw [quickMul_eq]
  intro d hd
  obtain ⟨-, hsign, -, -, hval⟩ := normalize_ok (high_half_lt ha hb) hd
  exact ⟨hsign, by rw [hval, abs_dyVal]⟩

/-- The magnitude of the exact product. -/
theorem abs_dyVal_mul (a b : Dy) :
    |dyVal a * dyVal b| = ((a.m * b.m : ℕ) / 2 ^ 128 : ℚ) * (2 : ℚ) ^ (a.e + b.e + 128) := by
  rw [abs_mul, abs_dyVal, abs_dyVal, zpow_add₀ two_ne_zero, zpow_add₀ two_ne_zero]
  have : (2 : ℚ) ^ (128 : ℤ) = 2 ^ 128 := by norm_cast
  rw [this]
  push_cast
  field_simp

/-- `quick_mul` drops low bits only. -/
theorem ensures_quickMul_le {a b : Dy} (ha : a.m < 2 ^ 128) (hb : b.m < 2 ^ 128) :
    Ensures (fun d => |dyVal d| ≤ |dyVal a * dyVal b|) (quickMul a b) := by
  intro d hd
  rw [(ensures_quickMul_trunc ha hb d hd).2, abs_dyVal_mul]
  gcongr
  exact_mod_cast Nat.cast_div_le (α := ℚ) (m := a.m * b.m) (n := 2 ^ 128)

/-- With a significant high half it keeps more than half of the product. -/
theorem ensures_quickMul_half_lt {a b : Dy} (ha : a.m < 2 ^ 128) (hb : b.m < 2 ^ 128) (hab : 2 ^ 128 ≤ a.m * b.m) :
    Ensures (fun d => |dyVal a * dyVal b| < 2 * |dyVal d|) (quickMul a b) := by
  intro d hd
  rw [(ensures_quickMul_trunc ha hb d hd).2, abs_dyVal_mul, ← mul_assoc]
  gcongr
  rw [div_lt_iff₀ (by positivity)]
  have h : a.m * b.m < 2 * (a.m * b.m / 2 ^ 128) * 2 ^ 128 := by omega
  exact_mod_cast h

/-- Two less a magnitude of at most two is not negative. -/
theorem ensures_two_sub_sign {t : Dy} (hs : t.s = false) (hm : t.m < 2 ^ 128) (he : t.m = 0 ∨ t.e ≤ -126)
    (ht : |dyVal t| ≤ 2) : Ensures (fun u => u.s = false) (quickAdd dyTwo (dyNegate t)) := by
  intro u hu
  rw [quickAdd, if_neg (by decide)] at hu
  by_cases h0 : t.m = 0
  · rw [if_pos (show (dyNegate t).m = 0 from h0)] at hu
    exact (normalize_ok (by decide) hu).2.1
  · have hle : t.e ≤ -126 := he.resolve_left h0
    have haligned : alignShift t.m (-126 - t.e) ≤ 2 ^ 127 := by
      have hdrop := (alignShift_near t.m hle hm).1
      rw [abs_dyVal] at ht
      have htwo : (2 : ℚ) = 2 ^ 127 * 2 ^ (-126 : ℤ) := by norm_num
      have : (alignShift t.m (-126 - t.e) : ℚ) * 2 ^ (-126 : ℤ) ≤ 2 ^ 127 * 2 ^ (-126 : ℤ) := by linarith
      exact_mod_cast le_of_mul_le_mul_right this (by positivity)
    rw [if_neg (show ¬ (dyNegate t).m = 0 from h0), if_pos (show (dyNegate t).e ≤ dyTwo.e from hle)] at hu
    change addAligned false (!t.s) (-126) (2 ^ 127) (alignShift t.m (-126 - t.e)) = .ok u at hu
    generalize alignShift t.m (-126 - t.e) = mb at hu haligned
    rw [hs, addAligned, if_neg (by decide)] at hu
    split_ifs at hu with hequal
    · cases hu
      rfl
    · exact (normalize_ok (by omega) hu).2.1

/-- A normalized triple of magnitude at most two has no step above that of two. -/
theorem exp_le_of_abs_le_two {t : Dy} (hn : DyNormal t) (ht : |dyVal t| ≤ 2) : t.m = 0 ∨ t.e ≤ -126 := by
  refine hn.top_bit.imp_right fun htop => ?_
  by_contra! hlt
  have hstep : (2 : ℚ) ^ (-125 : ℤ) ≤ 2 ^ t.e := zpow_le_zpow_right₀ (by norm_num) (by omega)
  have htop' : (2 : ℚ) ^ 127 ≤ t.m := by exact_mod_cast htop
  have hfour : (4 : ℚ) = 2 ^ 127 * 2 ^ (-125 : ℤ) := by norm_num
  have : (4 : ℚ) ≤ |dyVal t| := by
    rw [abs_dyVal, hfour]
    gcongr
  linarith

/-- Two less such a magnitude, to the accuracy of the addition. -/
theorem ensures_two_sub_le {t : Dy} (hn : DyNormal t) (hs : t.s = false) (ht : |dyVal t| ≤ 2) :
    Ensures (fun u => |dyVal u| ≤ 2 - |dyVal t| + 2 ^ (-125 : ℤ)) (quickAdd dyTwo (dyNegate t)) := by
  have htwo : dyVal dyTwo = 2 := by simp only [dyVal, dyTwo]; norm_num
  intro u hu
  by_cases h0 : t.m = 0
  · rw [quickAdd, if_neg (by decide), if_pos (show (dyNegate t).m = 0 from h0)] at hu
    rw [(normalize_ok (by decide) hu).2.2.2.2, abs_dyVal t, h0]
    change |dyVal dyTwo| ≤ _
    rw [htwo]
    norm_num
  · have hle : t.e ≤ -126 := (exp_le_of_abs_le_two hn ht).resolve_left h0
    have hneg : dyVal (dyNegate t) = -|dyVal t| := by
      rw [abs_dyVal]
      simp [dyVal, dyNegate, hs]
    have hnear := (ensures_quickAdd_near (a := dyTwo) (b := dyNegate t) (by decide) hn.mant_lt u hu).2
    rw [htwo, hneg, max_eq_left (show (dyNegate t).e ≤ dyTwo.e from hle)] at hnear
    have hstep : 2 * (2 : ℚ) ^ dyTwo.e = 2 ^ (-125 : ℤ) := by simp only [dyTwo]; norm_num
    rw [hstep] at hnear
    have htri := abs_sub_abs_le_abs_sub (dyVal u) (2 + -|dyVal t|)
    rw [abs_of_nonneg (by linarith : 0 ≤ 2 + -|dyVal t|)] at htri
    linarith

/-- What the steps keep: an approximation of the reciprocal has the divisor's sign, and its product with a divisor
that is not the least mantissa, for which every product is dropped, stays below two. -/
structure Approximates (x y : Dy) (Z : ℚ) : Prop where
  normal : DyNormal y
  sign : y.s = x.s
  product_le : x.m ≠ 1 → |dyVal x * dyVal y| ≤ Z

/-- One step's bound: with `z` the product, the truncated product is more than `z / 2`. -/
def stepBound (Z : ℚ) : ℚ := Z * (2 - Z / 2 + 2 ^ (-125 : ℤ))

theorem le_stepBound {z τ u Z : ℚ} (hz : 0 ≤ z) (hzZ : z ≤ Z) (hZ : Z < 2) (hτ : z ≤ 2 * τ)
    (hu : u ≤ 2 - τ + 2 ^ (-125 : ℤ)) : z * u ≤ stepBound Z := by
  have hε : (0 : ℚ) < 2 ^ (-125 : ℤ) := by positivity
  unfold stepBound
  generalize (2 : ℚ) ^ (-125 : ℤ) = ε at hu hε ⊢
  calc z * u ≤ z * (2 - z / 2 + ε) := by gcongr; linarith
    _ ≤ Z * (2 - Z / 2 + ε) := by
        nlinarith [mul_nonneg (sub_nonneg.mpr hzZ) (by linarith : 0 ≤ 2 + ε - (Z + z) / 2)]

theorem ensures_newtonStep {x y : Dy} {Z : ℚ} (hx : x.m < 2 ^ 128) (hx0 : x.m ≠ 0) (hZ : Z < 2)
    (hy : Approximates x y Z) : Ensures (fun d => Approximates x d (stepBound Z)) (newtonStep x y) := by
  refine Ensures.bind (P := fun t => quickMul x y = .ok t) (fun t ht => ht) fun t ht => ?_
  refine Ensures.bind (P := fun u => quickAdd dyTwo (dyNegate t) = .ok u) (fun u hu => hu) fun u hu => ?_
  intro d hd
  have htn := ensures_quickMul hx hy.normal.mant_lt t ht
  have hts : t.s = false := by
    rw [(ensures_quickMul_trunc hx hy.normal.mant_lt t ht).1, hy.sign, Bool.xor_self]
  have htle := ensures_quickMul_le hx hy.normal.mant_lt t ht
  have hun := ensures_quickAdd (a := dyTwo) (b := dyNegate t) (by decide) htn.mant_lt u hu
  have hbound : |dyVal t| ≤ 2 ∧ (x.m ≠ 1 → |dyVal x * dyVal y| ≤ 2 * |dyVal t|) := by
    by_cases hone : x.m = 1
    · refine ⟨?_, fun h => absurd hone h⟩
      rw [(ensures_quickMul_trunc hx hy.normal.mant_lt t ht).2, hone, one_mul,
        Nat.div_eq_of_lt hy.normal.mant_lt]
      norm_num
    · refine ⟨by linarith [hy.product_le hone], fun _ => ?_⟩
      rcases hy.normal.top_bit with h0 | htop
      · rw [abs_mul, abs_dyVal y, h0]
        simp
      · refine (ensures_quickMul_half_lt hx hy.normal.mant_lt ?_ t ht).le
        calc 2 ^ 128 = 2 * 2 ^ 127 := by norm_num
          _ ≤ x.m * y.m := Nat.mul_le_mul (by omega) htop
  have hus := ensures_two_sub_sign hts htn.mant_lt (exp_le_of_abs_le_two htn hbound.1) hbound.1 u hu
  have hule := ensures_two_sub_le htn hts hbound.1 u hu
  refine ⟨ensures_quickMul hy.normal.mant_lt hun.mant_lt d hd, ?_, fun hone => ?_⟩
  · rw [(ensures_quickMul_trunc hy.normal.mant_lt hun.mant_lt d hd).1, hus, Bool.xor_false, hy.sign]
  · have hdle := ensures_quickMul_le hy.normal.mant_lt hun.mant_lt d hd
    calc |dyVal x * dyVal d| = |dyVal x| * |dyVal d| := abs_mul _ _
      _ ≤ |dyVal x| * |dyVal y * dyVal u| := by gcongr
      _ = |dyVal x * dyVal y| * |dyVal u| := by rw [abs_mul, abs_mul, mul_assoc]
      _ ≤ stepBound Z := le_stepBound (abs_nonneg _) (hy.product_le hone) hZ (hbound.2 hone) hule

/-- Three steps from a seed within a tenth keep the sign. -/
theorem ensures_newtonSteps_sign {x y : Dy} (hx : x.m < 2 ^ 128) (hx0 : x.m ≠ 0) (hy : Approximates x y (11 / 10)) :
    Ensures (fun d => d.s = x.s) (newtonSteps 3 x y) := by
  have h₁ : stepBound (11 / 10) < 2 := by norm_num [stepBound]
  have h₂ : stepBound (stepBound (11 / 10)) < 2 := by norm_num [stepBound]
  rw [newtonSteps_succ]
  refine (ensures_newtonStep hx hx0 (by norm_num) hy).bind fun y₁ hy₁ => ?_
  rw [newtonSteps_succ]
  refine (ensures_newtonStep hx hx0 h₁ hy₁).bind fun y₂ hy₂ => ?_
  rw [newtonSteps_succ]
  exact (ensures_newtonStep hx hx0 h₂ hy₂).bind fun y₃ hy₃ => .ok hy₃.sign

/-! ### The seed (R163) -/

/-- R163: the operands that have no seed, a zero and those whose word or whose word's reciprocal is not a finite
nonzero one. -/
def seedless (x : Dy) : Bool :=
  x.m == 0 || isZero (fastAsF64 x).1 || isInf (fastAsF64 x).1 || isInf (fdiv fone (fastAsF64 x).1)

theorem reciprocal_seedless {n : Nat} {x : Dy} (h : seedless x = true) : reciprocal n x = .error .domain := by
  unfold reciprocal
  dsimp only
  split_ifs with h0 hxf hg
  · rfl
  · rfl
  · rfl
  · simp_all [seedless]

theorem reciprocal_seeded {n : Nat} {x : Dy} (h : seedless x = false) :
    reciprocal n x = fromF64 (fdiv fone (fastAsF64 x).1) >>= newtonSteps n x := by
  simp only [seedless, Bool.or_eq_false_iff, beq_eq_false_iff_ne] at h
  obtain ⟨⟨⟨hm, hz⟩, hi⟩, hg⟩ := h
  rw [reciprocal, if_neg hm]
  simp only [hz, hi, hg, Bool.or_self, Bool.false_eq_true, if_false]

/-- A rounding's error, relative and in the subnormals' steps. -/
theorem rnQ_error_le {q : ℚ} (s : Bool) (hq : q ≠ 0) (hfin : isFinite (rnQ q s) = true) :
    |q - fval (rnQ q s)| ≤ 2 ^ (-53 : ℤ) * |q| + 2 ^ (-1075 : ℤ) := by
  obtain ⟨-, herr, -⟩ := rnQ_steps s hq hfin
  refine herr.trans ?_
  have hpos : 0 < |q| := abs_pos.mpr hq
  rcases (neg1022_le_gridOf |q|).eq_or_lt with h | h
  · rw [← h]
    exact le_add_of_nonneg_left (by positivity)
  · have hstart := le_of_lt_gridOf hpos h
    rw [sub_eq_neg_add, zpow_add₀ two_ne_zero]
    have h53 : (0 : ℚ) < 2 ^ (-53 : ℤ) := by positivity
    have h1075 : (0 : ℚ) < 2 ^ (-1075 : ℤ) := by positivity
    nlinarith [mul_le_mul_of_nonneg_left hstart h53.le]

/-- A nonzero word is at least the least subnormal. -/
theorem le_abs_fval {w : F64} (h : fval w ≠ 0) : (2 : ℚ) ^ (-1074 : ℤ) ≤ |fval w| := by
  have hz : isZero w = false := Bool.eq_false_iff.mpr (mt (fval_eq_zero_iff w).mpr h)
  have hbin : -1022 ≤ binade w := by unfold binade; omega
  rw [abs_fval_eq_significand]
  calc (2 : ℚ) ^ (-1074 : ℤ) ≤ 2 ^ (binade w - 52) := zpow_le_zpow_right₀ one_le_two (by omega)
    _ ≤ significand w * 2 ^ (binade w - 52) :=
        le_mul_of_one_le_left (by positivity) (by exact_mod_cast significand_pos hz)

theorem overflowBound_lt : overflowBound < (2 : ℚ) ^ (1024 : ℤ) := by
  rw [show (1024 : ℤ) = (54 + 970 : ℕ) by norm_num, zpow_natCast, pow_add, overflowBound]
  exact mul_lt_mul_of_pos_right (by norm_num) (pow_pos two_pos _)

/-- Every finite word is below `2^1024`, an integer power. -/
theorem abs_fval_lt_zpow {w : F64} (h : isFinite w = true) : |fval w| < (2 : ℚ) ^ (1024 : ℤ) := by
  rw [show (1024 : ℤ) = (1024 : ℕ) by norm_num, zpow_natCast]
  exact abs_fval_lt h

/-- R155: the exponent of a word's triple. -/
theorem ensures_fromF64_within (w : F64) : Ensures (Within 1204) (fromF64 w) := by
  intro x hx
  have hexp := fexp_lt w
  have hfrac := ffrac_lt w
  have hm := (ensures_fromF64 w x hx).mant_lt
  unfold fromF64 at hx
  split_ifs at hx with hspecial hzero hsub
  · cases hx
    exact ⟨hm, by norm_num, by norm_num⟩
  · have hclz := (clz128_spec (ffrac w) (by omega) (by omega)).1
    cases hx
    exact ⟨hm, by dsimp only; omega, by dsimp only; omega⟩
  · cases hx
    exact ⟨hm, by dsimp only; omega, by dsimp only; omega⟩

/-- The bounds of a value that rounds to a finite nonzero word, on its triple's exponent. -/
theorem within_of_abs {x : Dy} (hm : x.m < 2 ^ 128) (h0 : x.m ≠ 0) (hlo : (2 : ℚ) ^ (-1076 : ℤ) ≤ |dyVal x|)
    (hhi : |dyVal x| < (2 : ℚ) ^ (1024 : ℤ)) : Within 1204 x := by
  rw [abs_dyVal] at hlo hhi
  have hpos : (0 : ℚ) < 2 ^ x.e := by positivity
  have hone : (1 : ℚ) ≤ x.m := by exact_mod_cast Nat.one_le_iff_ne_zero.mpr h0
  have htop : (x.m : ℚ) < 2 ^ (128 : ℤ) := by exact_mod_cast hm
  have hup : x.e < 1024 := (zpow_lt_zpow_iff_right₀ (one_lt_two (α := ℚ))).mp
    ((le_mul_of_one_le_left hpos.le hone).trans_lt hhi)
  have hdown : -1076 < 128 + x.e := (zpow_lt_zpow_iff_right₀ (one_lt_two (α := ℚ))).mp <| by
    rw [zpow_add₀ two_ne_zero 128]
    exact hlo.trans_lt (mul_lt_mul_of_pos_right htop hpos)
  exact ⟨hm, by omega, by omega⟩

/-- The rounding of the reciprocal of a rounding is the reciprocal within a tenth, as long as nothing overflows:
`v` is rounded to `f` and `1 / f` to `g`. -/
theorem abs_mul_le_of_errors {v f g : ℚ} (hf0 : f ≠ 0) (hf : |f| < (2 : ℚ) ^ (1024 : ℤ))
    (hf' : |1 / f| < (2 : ℚ) ^ (1024 : ℤ)) (hv : |v - f| ≤ 2 ^ (-53 : ℤ) * |v| + 2 ^ (-1075 : ℤ))
    (hg : |1 / f - g| ≤ 2 ^ (-53 : ℤ) * |1 / f| + 2 ^ (-1075 : ℤ)) : |v * g| ≤ 11 / 10 := by
  have hfpos : 0 < |f| := abs_pos.mpr hf0
  have hinv : |1 / f| * |f| = 1 := by rw [← abs_mul, one_div_mul_cancel hf0, abs_one]
  have hinvpos : 0 < |1 / f| := abs_pos.mpr (one_div_ne_zero hf0)
  have htiny : (2 : ℚ) ^ (-1075 : ℤ) * 2 ^ (1024 : ℤ) = 2 ^ (-51 : ℤ) := by
    rw [← zpow_add₀ two_ne_zero]
    norm_num
  have hrel : (2 : ℚ) ^ (-53 : ℤ) = 1 / 2 ^ 53 := by norm_num
  have htiny' : (2 : ℚ) ^ (-51 : ℤ) = 1 / 2 ^ 51 := by norm_num
  have hu : (0 : ℚ) < 2 ^ (-1075 : ℤ) := by positivity
  generalize (2 : ℚ) ^ (1024 : ℤ) = H, (2 : ℚ) ^ (-1075 : ℤ) = u at *
  rw [hrel] at hv hg
  rw [htiny'] at htiny
  have hvle := abs_sub_abs_le_abs_sub v f
  have hgle := abs_sub_abs_le_abs_sub g (1 / f)
  rw [abs_sub_comm] at hgle
  -- the subnormals' step is small against `f` and `1 / f`, each the other's reciprocal
  have huf : u ≤ 1 / 2 ^ 51 * |f| := by
    calc u = u * (|1 / f| * |f|) := by rw [hinv, mul_one]
      _ = u * |1 / f| * |f| := by ring
      _ ≤ u * H * |f| := by gcongr
      _ = 1 / 2 ^ 51 * |f| := by rw [htiny]
  have hui : u ≤ 1 / 2 ^ 51 * |1 / f| := by
    calc u = u * (|1 / f| * |f|) := by rw [hinv, mul_one]
      _ = u * |f| * |1 / f| := by ring
      _ ≤ u * H * |1 / f| := by gcongr
      _ = 1 / 2 ^ 51 * |1 / f| := by rw [htiny]
  have hvf : |v| ≤ 1001 / 1000 * |f| := by linarith
  have hgf : |g| ≤ 1001 / 1000 * |1 / f| := by linarith
  calc |v * g| = |v| * |g| := abs_mul _ _
    _ ≤ (1001 / 1000 * |f|) * (1001 / 1000 * |1 / f|) := by gcongr
    _ = 1001 / 1000 * (1001 / 1000) * (|1 / f| * |f|) := by ring
    _ ≤ 11 / 10 := by rw [hinv]; norm_num

/-- What a seed is: a triple within the bounds, that approximates the reciprocal. -/
theorem seed_spec {x : Dy} (hm : x.m < 2 ^ 128) (h : seedless x = false) :
    ∃ y, fromF64 (fdiv fone (fastAsF64 x).1) = .ok y ∧ x.m ≠ 0 ∧ Within 1204 x ∧ Within 1204 y ∧
      Approximates x y (11 / 10) := by
  simp only [seedless, Bool.or_eq_false_iff, beq_eq_false_iff_ne, fastAsF64_eq] at h ⊢
  obtain ⟨⟨⟨h0, hz⟩, hi⟩, hg⟩ := h
  have hv : dyVal x ≠ 0 := by
    rw [← abs_ne_zero, abs_dyVal]
    positivity
  have hvsign : dyVal x < 0 ↔ x.s = true := by
    have hpos : (0 : ℚ) < x.m * 2 ^ x.e := by positivity
    rw [dyVal_eq_signed]
    cases x.s <;> simp [hpos, hpos.le]
  have hround := roundsTo_rnQ x.s hv
  have hxfin : isFinite (rnQ (dyVal x) x.s) = true := (isInf_eq_false_iff hround.notNan).mp hi
  have hverr := rnQ_error_le x.s hv hxfin
  have hvlt := (isFinite_rnQ_iff x.s hv).mp hxfin
  have hf : fval (rnQ (dyVal x) x.s) ≠ 0 := fun hf => by simp [(fval_eq_zero_iff _).mp hf] at hz
  have hfsign := hround.sign
  generalize rnQ (dyVal x) x.s = xf at *
  have hone : fval fone = 1 := by decide +kernel
  have hinv : (1 : ℚ) / fval xf ≠ 0 := one_div_ne_zero hf
  rw [fdiv_eq_rnQ (by decide) hxfin (by simpa using hf), hone] at hg ⊢
  have hground := roundsTo_rnQ (fsign fone ^^ fsign xf) hinv
  have hgfin := (isInf_eq_false_iff hground.notNan).mp hg
  have hgerr := rnQ_error_le _ hinv hgfin
  have hglt := (isFinite_rnQ_iff _ hinv).mp hgfin
  have hgsign := hground.sign
  generalize rnQ (1 / fval xf) (fsign fone ^^ fsign xf) = g at *
  obtain ⟨y, hy, -, hyval, hysign⟩ := fromF64_finite hgfin
  have hfneg : fval xf < 0 ↔ fsign xf = true := by
    have hpos : 0 < |fval xf| := abs_pos.mpr hf
    rw [fval_eq_signed xf]
    cases fsign xf <;> simp [hpos, hpos.le]
  refine ⟨y, hy, h0, within_of_abs hm h0 ?_ (hvlt.trans overflowBound_lt), ensures_fromF64_within _ y hy,
    ensures_fromF64 _ y hy, ?_, fun _ => ?_⟩
  · have hleast := le_abs_fval hf
    have htri := abs_sub_abs_le_abs_sub (fval xf) (dyVal x)
    rw [abs_sub_comm] at htri
    have h1074 : (2 : ℚ) ^ (-1074 : ℤ) = 4 * 2 ^ (-1076 : ℤ) := by
      rw [show (-1074 : ℤ) = 2 + -1076 by norm_num, zpow_add₀ two_ne_zero]
      norm_num
    have h1075 : (2 : ℚ) ^ (-1075 : ℤ) = 2 * 2 ^ (-1076 : ℤ) := by
      rw [show (-1075 : ℤ) = 1 + -1076 by norm_num, zpow_add₀ two_ne_zero, zpow_one]
    have hhalf : (2 : ℚ) ^ (-53 : ℤ) * |dyVal x| ≤ |dyVal x| :=
      mul_le_of_le_one_left (abs_nonneg _) (by norm_num)
    rw [h1074] at hleast
    rw [h1075] at hverr
    linarith
  · rw [hysign, hgsign, Bool.eq_iff_iff, decide_eq_true_iff, one_div, inv_lt_zero, hfneg, hfsign,
      decide_eq_true_iff, hvsign]
  · rw [hyval]
    exact abs_mul_le_of_errors hf (abs_fval_lt_zpow hxfin) (hglt.trans overflowBound_lt) hverr hgerr

/-! ### DY.RECIP, DY.RECIPF and DY.DIV (R163 to R166) -/

/-- Where there is a seed the reciprocal completes, with the operand's sign. -/
theorem reciprocal_completes {x : Dy} (hm : x.m < 2 ^ 128) (h : seedless x = false) :
    ∃ d, reciprocal 3 x = .ok d ∧ d.s = x.s := by
  obtain ⟨y, hy, h0, hxw, hyw, happrox⟩ := seed_spec hm h
  obtain ⟨d, hd⟩ := newtonSteps_completes hxw hyw
  refine ⟨d, ?_, ensures_newtonSteps_sign hm h0 happrox d hd⟩
  rw [reciprocal_seeded h, hy]
  exact hd

/-- The reciprocal raises nothing but Domain. -/
theorem reciprocal_raisesOnly {x : Dy} (hm : x.m < 2 ^ 128) : RaisesOnly (· = .domain) (reciprocal 3 x) := by
  cases h : seedless x
  · obtain ⟨d, hd, -⟩ := reciprocal_completes hm h
    rw [hd]
    exact .ok
  · rw [reciprocal_seedless h]
    exact .error rfl

/-- The statement's three steps are the model's. -/
theorem reciprocal_eq_threeSteps {x : Dy} (h : seedless x = false) :
    reciprocal 3 x = (do
      let y0 ← fromF64 (fdiv fone (fastAsF64 x).1)
      let y1 ← newtonStep x y0
      let y2 ← newtonStep x y1
      newtonStep x y2) := by
  have h₁ : newtonSteps 1 x = newtonStep x := funext fun y => by
    rw [newtonSteps_succ]
    cases newtonStep x y <;> rfl
  have h₂ : newtonSteps 2 x = fun y => newtonStep x y >>= newtonStep x := funext fun y => by
    rw [newtonSteps_succ, h₁]
  have h₃ : newtonSteps 3 x = fun y => newtonStep x y >>= fun y' => newtonStep x y' >>= newtonStep x :=
    funext fun y => by rw [newtonSteps_succ, h₂]
  rw [reciprocal_seeded h, h₃]

section Recipf
variable {rd ra : Reg} {s : State} (ha : s.valid (.f ra) = true)
include ha

theorem dyRecipf_of_not_finite (h : isFinite (s.component (.f ra)) = false) :
    ∃ u, exec (.dyRecipf rd ra) s = .next u ∧ Faulted s u .domain := by
  rw [exec, execDyRecipf, readF_of_valid ha]
  simp only [bind, Except.bind, fromF64_not_finite h]
  exact ⟨_, rfl, faulted_raise s _⟩

theorem dyRecipf_completes {x d : Dy} (hx : fromF64 (s.component (.f ra)) = .ok x) (hd : reciprocal 3 x = .ok d) :
    ∃ u, exec (.dyRecipf rd ra) s = .next u ∧ Completed s u (qWrites rd (regOfDy d)) s.sr 0 := by
  rw [exec, execDyRecipf, readF_of_valid ha]
  simp only [bind, Except.bind, hx, Config.nrIters, hd]
  exact ⟨_, rfl, completed_writeQ s rd _ s.sr⟩

theorem dyRecipf_faults {x : Dy} {e : CmdFault} (hx : fromF64 (s.component (.f ra)) = .ok x)
    (hd : reciprocal 3 x = .error e) : ∃ u, exec (.dyRecipf rd ra) s = .next u ∧ Faulted s u e := by
  rw [exec, execDyRecipf, readF_of_valid ha]
  simp only [bind, Except.bind, hx, Config.nrIters, hd]
  exact ⟨_, rfl, faulted_raise s _⟩

end Recipf

/-- Settles O46: with a seed the steps stay inside the exponent field; the operands without one are tested
first. -/
theorem reciprocalRunsThreeNewtonSteps : Obligations.ReciprocalRunsThreeNewtonSteps := by
  unfold Obligations.ReciprocalRunsThreeNewtonSteps
  intro seedless' newton recip
  have hrecip {x : Dy} (h : seedless x = false) : recip x = reciprocal 3 x := (reciprocal_eq_threeSteps h).symm
  refine ⟨fun rd ra s hh hl he => ⟨fun h => ?_, fun h => ?_⟩, fun rd ra s ha =>
    ⟨dyRecipf_of_not_finite ha, fun x hx =>
      ⟨fun h => ?_, fun h => dyRecipf_faults ha hx (reciprocal_seedless h)⟩⟩⟩
  · obtain ⟨d, hd, -⟩ := reciprocal_completes (dyadic_mant_lt s ra) h
    obtain ⟨u, hu, hc⟩ := dyUnary_completes (op := reciprocal 3) (rd := rd) ⟨hh, hl, he⟩ hd
    exact ⟨u, d, (hrecip h).trans hd, hu, hc⟩
  · exact dyUnary_faults (op := reciprocal 3) ⟨hh, hl, he⟩ (reciprocal_seedless h)
  · obtain ⟨d, hd, -⟩ := reciprocal_completes (ensures_fromF64 _ x hx).mant_lt h
    obtain ⟨u, hu, hc⟩ := dyRecipf_completes (rd := rd) ha hx hd
    exact ⟨u, d, (hrecip h).trans hd, hu, hc⟩

/-- A zero divisor has no seed. -/
theorem reciprocal_of_mant_zero {n : Nat} {x : Dy} (h : x.m = 0) : reciprocal n x = .error .domain :=
  reciprocal_seedless (by simp [seedless, h])

/-- Settles O47: the quotient is the reciprocal's fault or one product; the reciprocal has the divisor's sign. -/
theorem dyadicDivisionMultipliesByTheReciprocal : Obligations.DyadicDivisionMultipliesByTheReciprocal := by
  intro rd ra rb s hv
  obtain ⟨ha, hb⟩ := qValid_of_forall hv
  have hm := dyadic_mant_lt s rb
  have fault {x : CmdFault} (hx : reciprocal 3 (s.dyadic rb) = .error x) :
      ∃ u, exec (.dyDiv rd ra rb) s = .next u ∧ Faulted s u x :=
    dyBinary_faults (op₂ := dyQuotient 3) ha hb (congrArg (· >>= quickMul (s.dyadic ra)) hx)
  have quotient {r : Dy} (hr : reciprocal 3 (s.dyadic rb) = .ok r) :
      dyQuotient 3 (s.dyadic ra) (s.dyadic rb) = quickMul (s.dyadic ra) r :=
    congrArg (· >>= quickMul (s.dyadic ra)) hr
  refine ⟨fun r d hr hd => dyBinary_completes (op₂ := dyQuotient 3) ha hb ((quotient hr).trans hd),
    fun r hr hd => dyBinary_faults (op₂ := dyQuotient 3) ha hb ((quotient hr).trans hd), fun x hx => ?_,
    fun h0 => fault (reciprocal_of_mant_zero h0), fun h0 => ?_⟩
  · obtain rfl := reciprocal_raisesOnly hm x hx
    exact ⟨rfl, fault hx⟩
  · rintro ⟨r, hr⟩
    have hsign : r.s = (s.dyadic rb).s := by
      cases hseed : seedless (s.dyadic rb)
      · obtain ⟨d, hd, hds⟩ := reciprocal_completes hm hseed
        rw [hr] at hd
        cases hd
        exact hds
      · rw [reciprocal_seedless hseed] at hr
        cases hr
    have hzero : dyQuotient 3 (s.dyadic ra) (s.dyadic rb) = .ok ⟨(s.dyadic ra).s ^^ (s.dyadic rb).s, 0, 0⟩ := by
      rw [quotient hr, quickMul, if_pos (.inl h0), hsign]
    obtain ⟨u, hu, hc⟩ := dyBinary_completes (op₂ := dyQuotient 3) (rd := rd) ha hb hzero
    rw [regOfDy_zero] at hc
    exact ⟨u, hu, hc⟩

end Sys2Proof.Machine

/-! Which command raises which fault (spec/60_exceptions.md R260, R261, R265 to R267): a command checks its phase,
then its sources, and only then its operands. -/

namespace Sys2Proof.Machine

/-! ### Reads (R26, R265) -/

/-- A guarded read of the components `l`. -/
def Reads {α : Type} (s : State) (l : List Component) (m : Except CmdFault α) : Prop :=
  ∃ v, m = needValid (l.all s.valid) v

theorem reads_one {α : Type} (s : State) (c : Component) (v : α) : Reads s [c] (needValid (s.valid c) v) :=
  ⟨v, by simp⟩

section Reads
variable (s : State) (r : Reg)

theorem reads_readF : Reads s [.f r] (readF s r) := reads_one s (.f r) _

theorem reads_readK : Reads s [.k r] (readK s r) := reads_one s (.k r) _

theorem reads_readDHi : Reads s [.dh r] (readDHi s r) := reads_one s (.dh r) _

theorem reads_readDLo : Reads s [.dl r] (readDLo s r) := reads_one s (.dl r) _

theorem reads_readQHi : Reads s [.qh r] (readQHi s r) := reads_one s (.qh r) _

theorem reads_readQLo : Reads s [.ql r] (readQLo s r) := reads_one s (.ql r) _

theorem reads_readQE : Reads s [.qe r] (readQE s r) := reads_one s (.qe r) _

theorem reads_readD : Reads s [.dh r, .dl r] (readD s r) :=
  ⟨⟨s.component (.dh r), s.component (.dl r)⟩, by simp [readD_eq]⟩

theorem reads_readQ : Reads s [.qh r, .ql r, .qe r] (readQ s r) :=
  ⟨rget s.q r, by simp [readQ_eq, Bool.and_assoc]⟩

end Reads

/-! ### Commands behind their sources (R261) -/

/-- The faults a command can raise once its sources are written (R266, R267); of a command that is not well formed
Illegal too. -/
def OperandFault (i : Instr) : CmdFault → Prop
  | .illegal => i.wellFormed = false
  | .domain => mnemonicOf i ∈
      ["DY.FROMF", "DY.RECIP", "DY.RECIPF", "DY.DIV", "RR.SMALL", "RR.LARGE", "RR.LARGEQ"]
  | .expRange => mnemonicOf i ∈ ["DY.NORM", "DY.ADD", "DY.MUL", "DY.DIV"]
  | .uninit => False
  | .sequence => False

/-- A computation of the command `i` from `s` behind the sources `l`: Uninit with one of them unwritten, an operand
fault at most with all of them written. -/
structure Guarded {α : Type} (i : Instr) (s : State) (l : List Component) (c : Except CmdFault α) : Prop where
  unwritten : l.all s.valid = false → c = .error .uninit
  written : l.all s.valid = true → RaisesOnly (OperandFault i) c

section Guarded
variable {α β : Type} {i : Instr} {s : State} {l l' : List Component}

/-- With no source left, the command's own operation. -/
theorem Guarded.body {c : Except CmdFault α} (h : RaisesOnly (OperandFault i) c) : Guarded i s [] c :=
  ⟨nofun, fun _ => h⟩

theorem Guarded.ok {a : α} : Guarded i s [] (.ok a) := .body .ok

/-- A read in front. -/
theorem Guarded.read {m : Except CmdFault α} {k : α → Except CmdFault β} (hm : Reads s l m)
    (hk : ∀ a, Guarded i s l' (k a)) : Guarded i s (l ++ l') (m >>= k) := by
  obtain ⟨v, rfl⟩ := hm
  rcases hl : l.all s.valid
  · exact ⟨fun _ => rfl, fun h => by simp [hl] at h⟩
  · exact ⟨fun h => (hk v).unwritten (by simpa [hl] using h), fun h => (hk v).written (by simpa [hl] using h)⟩

theorem Guarded.map {f : α → β} {c : Except CmdFault α} (h : Guarded i s l c) : Guarded i s l (c.map f) := by
  refine ⟨fun hl => by rw [h.unwritten hl]; rfl, fun hl x hx => h.written hl x ?_⟩
  cases c with
  | error y => simpa [Except.map] using hx
  | ok a => cases hx

end Guarded

/-- How a command ends: out of phase with Sequence, else as a computation behind its sources. -/
def EndsGuarded (i : Instr) (s : State) (r : Result) : Prop :=
  (∃ p, phaseOf i = some p ∧ s.sr.phase ≠ p ∧ r = finish s (.error .sequence)) ∨
    ∃ c, r = finish s c ∧ Guarded i s (sourcesOf i) c

section EndsGuarded
variable {i : Instr} {s : State} {l : List Component}

theorem EndsGuarded.finish {c : Except CmdFault (State × Word)} (h : Guarded i s l c)
    (hl : sourcesOf i = l := by rfl) : EndsGuarded i s (finish s c) := .inr ⟨c, rfl, hl ▸ h⟩

theorem EndsGuarded.finish0 {c : Except CmdFault State} (h : Guarded i s l c)
    (hl : sourcesOf i = l := by rfl) : EndsGuarded i s (finish0 s c) := .inr ⟨_, rfl, hl ▸ h.map⟩

theorem EndsGuarded.inPhase {p : Phase} {k : Unit → Except CmdFault State} (hk : Guarded i s l (k ()))
    (hp : phaseOf i = some p := by rfl) (hl : sourcesOf i = l := by rfl) :
    EndsGuarded i s (Machine.finish0 s (requirePhase s p >>= k)) := by
  by_cases hin : s.sr.phase = p
  · rw [requirePhase_pass hin]
    exact .finish0 hk hl
  · rw [requirePhase_fail hin]
    exact .inl ⟨p, hp, hin, rfl⟩

end EndsGuarded

/-! ### The operations' own faults (R266, R267) -/

theorem fromF64_raisesOnly (w : F64) : RaisesOnly (· = .domain) (fromF64 w) :=
  .ite (.error rfl) (.ite .ok (.ite .ok .ok))

theorem dyRound_raisesOnly (q : QReg) : RaisesOnly (fun _ => False) (dyRound (dyOfReg q)) := by
  obtain ⟨d, hd, -⟩ := dyRound_spec (dyFits_dyOfReg q)
  rw [hd]
  exact .ok

section Faults
variable {α : Type} {i : Instr} {c : Except CmdFault α}

theorem RaisesOnly.domain (h : RaisesOnly (· = .domain) c) (hi : OperandFault i .domain) :
    RaisesOnly (OperandFault i) c := h.mono fun _ hx => hx ▸ hi

theorem RaisesOnly.expRange (h : RaisesOnly (· = .expRange) c) (hi : OperandFault i .expRange) :
    RaisesOnly (OperandFault i) c := h.mono fun _ hx => hx ▸ hi

end Faults

/-- A reciprocal and the product with it. -/
theorem dyQuotient_raisesOnly {rd ra rb : Reg} (a b : QReg) :
    RaisesOnly (OperandFault (.dyDiv rd ra rb)) (dyQuotient Config.nrIters (dyOfReg a) (dyOfReg b)) :=
  .bind ((reciprocal_raisesOnly (dyOfReg_mant_lt b)).domain (by simp [OperandFault, mnemonicOf]))
    fun _ => (quickMul_raisesOnly _ _).expRange (by simp [OperandFault, mnemonicOf])

/-- A word's triple and its reciprocal. -/
theorem recipf_raisesOnly {rd ra : Reg} (w : F64) :
    RaisesOnly (OperandFault (.dyRecipf rd ra)) (fromF64 w >>= reciprocal Config.nrIters) := by
  have hdomain : OperandFault (.dyRecipf rd ra) .domain := by simp [OperandFault, mnemonicOf]
  cases hx : fromF64 w with
  | error x => exact .error (fromF64_raisesOnly w x hx ▸ hdomain)
  | ok x => exact (reciprocal_raisesOnly (ensures_fromF64 w x hx).mant_lt).domain hdomain

/-- Every command of the set checks its phase, then its sources, then its operands. -/
theorem exec_endsGuarded (i : Instr) (s : State) : EndsGuarded i s (exec i s) := by
  cases i with
  | nop | mtf | mtdh | mtdl | mtqh | mtql | mtqe | mtk | ldc | zivBegin => exact .finish0 .ok
  | mfsr | mfcfg => exact .finish (c := .ok (s, _)) .ok
  | mff ra => exact .finish (.read (reads_readF s ra) fun _ => .ok)
  | mfdh ra => exact .finish (.read (reads_readDHi s ra) fun _ => .ok)
  | mfdl ra => exact .finish (.read (reads_readDLo s ra) fun _ => .ok)
  | mfqh ra => exact .finish (.read (reads_readQHi s ra) fun _ => .ok)
  | mfql ra => exact .finish (.read (reads_readQLo s ra) fun _ => .ok)
  | mfqe ra => exact .finish (.read (reads_readQE s ra) fun _ => .ok)
  | mfk ra => exact .finish (.read (reads_readK s ra) fun _ => .ok)
  | ldcd rd imm8 =>
    refine .finish0 (.body ?_)
    split
    · exact .ok
    · next h => exact .error (by simpa [OperandFault, Instr.wellFormed] using h)
  | ddHi rd ra => exact .finish0 (.read (reads_readDHi s ra) fun _ => .ok)
  | ddLo rd ra => exact .finish0 (.read (reads_readDLo s ra) fun _ => .ok)
  | ddSqrt rd ra | ddRecip rd ra => exact .finish0 (.read (reads_readD s ra) fun _ => .ok)
  | ddPack rd ra rb | ddXadd rd ra rb | ddXsub rd ra rb | ddFxadd rd ra rb | ddXmul rd ra rb =>
    exact .finish0 (.read (reads_readF s ra) fun _ => .read (reads_readF s rb) fun _ => .ok)
  | ddAdd rd ra rb | ddSub rd ra rb | ddMul rd ra rb | ddQmul rd ra rb | ddDiv rd ra rb =>
    exact .finish0 (.read (reads_readD s ra) fun _ => .read (reads_readD s rb) fun _ => .ok)
  | ddMulf rd ra rb =>
    exact .finish0 (.read (reads_readD s ra) fun _ => .read (reads_readF s rb) fun _ => .ok)
  | dyTof rd ra | dyNeg rd ra => exact .finish0 (.read (reads_readQ s ra) fun _ => .ok)
  | dyFromf rd ra =>
    exact .finish0 (.read (reads_readF s ra) fun w => .body
      (.bind ((fromF64_raisesOnly w).domain (by simp [OperandFault, mnemonicOf])) fun _ => .ok))
  | dyNorm rd ra =>
    exact .finish0 (.read (reads_readQ s ra) fun a => .body
      (.bind ((normalize_raisesOnly _ _ _).expRange (by simp [OperandFault, mnemonicOf])) fun _ => .ok))
  | dyRecip rd ra =>
    exact .finish0 (.read (reads_readQ s ra) fun a => .body
      (.bind ((reciprocal_raisesOnly (dyOfReg_mant_lt a)).domain (by simp [OperandFault, mnemonicOf]))
        fun _ => .ok))
  | dyRnd rd ra =>
    exact .finish0 (.read (reads_readQ s ra) fun a => .body
      (.bind ((dyRound_raisesOnly a).mono fun _ => False.elim) fun _ => .ok))
  | dyAdd rd ra rb =>
    exact .finish0 (.read (reads_readQ s ra) fun _ => .read (reads_readQ s rb) fun _ => .body
      (.bind ((quickAdd_raisesOnly _ _).expRange (by simp [OperandFault, mnemonicOf])) fun _ => .ok))
  | dyMul rd ra rb =>
    exact .finish0 (.read (reads_readQ s ra) fun _ => .read (reads_readQ s rb) fun _ => .body
      (.bind ((quickMul_raisesOnly _ _).expRange (by simp [OperandFault, mnemonicOf])) fun _ => .ok))
  | dyDiv rd ra rb =>
    exact .finish0 (.read (reads_readQ s ra) fun a => .read (reads_readQ s rb) fun b => .body
      (.bind (dyQuotient_raisesOnly a b) fun _ => .ok))
  | dyRecipf rd ra =>
    refine .finish0 (.read (reads_readF s ra) fun w => .body ?_)
    rw [← bind_assoc]
    exact .bind (recipf_raisesOnly w) fun _ => .ok
  | rrSmall rd ra rc =>
    exact .finish0 (.read (reads_readF s ra) fun _ => .body
      (.ite .ok (.error (by simp [OperandFault, mnemonicOf]))))
  | rrLarge rd ra rc | rrLargeq rd ra rc =>
    exact .finish0 (.read (reads_readF s ra) fun _ => .body
      (.ite (.error (by simp [OperandFault, mnemonicOf])) .ok))
  | rrIdx rd ra imm8 => exact .finish0 (.read (reads_readK s ra) fun _ => .ok)
  | zivBound rd ra rb rc =>
    exact .inPhase (.read (reads_readD s ra) fun _ => .read (reads_readF s rb) fun _ =>
      .read (reads_readF s rc) fun _ => .ok)
  | zivTest rd ra rb =>
    exact .inPhase (.read (reads_readD s ra) fun _ => .read (reads_readF s rb) fun _ =>
      .body (.ite .ok .ok))
  | zivFallback rd ra => exact .inPhase (.read (reads_readQ s ra) fun _ => .ok)

/-! ### The obligations -/

/-- The fault a command raises, told by its three checks. -/
theorem faulted_cases {i : Instr} {s t : State} {x : CmdFault} (h : exec i s = .next t) (hf : Faulted s t x) :
    (x = .sequence ∧ ∃ p, phaseOf i = some p) ∨ (x = .uninit ∧ (sourcesOf i).all s.valid = false) ∨
      OperandFault i x := by
  rcases exec_endsGuarded i s with ⟨p, hp, -, hr⟩ | ⟨c, hr, hc⟩
  · cases eq_error_of_faulted (hr.symm.trans h) hf
    exact .inl ⟨rfl, p, hp⟩
  · have hx := eq_error_of_faulted (hr.symm.trans h) hf
    cases hl : (sourcesOf i).all s.valid
    · cases (hc.unwritten hl).symm.trans hx
      exact .inr (.inl ⟨rfl, rfl⟩)
    · exact .inr (.inr (hc.written hl x hx))

/-- The three commands that need a phase. -/
theorem mnemonicOf_of_phaseOf {i : Instr} {p : Phase} (h : phaseOf i = some p) :
    mnemonicOf i ∈ ["ZIV.BOUND", "ZIV.TEST", "ZIV.FALLBACK"] := by
  cases i <;> cases h <;> simp [mnemonicOf]

/-- Settles O9: the phase check, the source check and the operand checks each raise their own faults. -/
theorem onlyTheListedCommandsRaiseEachFault : Obligations.OnlyTheListedCommandsRaiseEachFault := by
  intro i s t x hwf hexec hf
  rcases faulted_cases hexec hf with ⟨rfl, p, hp⟩ | ⟨rfl, hl⟩ | hx
  · exact ⟨nofun, fun _ => mnemonicOf_of_phaseOf hp, nofun, nofun, nofun⟩
  · refine ⟨nofun, nofun, fun _ hnil => ?_, nofun, nofun⟩
    rw [hnil] at hl
    cases hl
  · cases x with
    | illegal => exact absurd hwf (by simpa [OperandFault] using hx)
    | uninit => exact hx.elim
    | sequence => exact hx.elim
    | domain => exact ⟨nofun, nofun, nofun, fun _ => hx, nofun⟩
    | expRange => exact ⟨nofun, nofun, nofun, nofun, fun _ => hx⟩

/-- Settles O16: behind its phase check a command checks its sources, and nothing else raises Uninit. -/
theorem unwrittenSourceRaisesUninit : Obligations.UnwrittenSourceRaisesUninit := by
  refine ⟨fun i s c hc hv hp => ?_, fun i s t hexec hf => ?_⟩
  · rcases exec_endsGuarded i s with ⟨p, hp', hne, -⟩ | ⟨m, hr, hm⟩
    · exact absurd (hp p hp') hne
    · have hl : (sourcesOf i).all s.valid = false := List.all_eq_false.mpr ⟨c, hc, by simp [hv]⟩
      rw [hr, hm.unwritten hl]
      exact ⟨_, rfl, faulted_raise s .uninit⟩
  · rcases faulted_cases hexec hf with ⟨hx, -⟩ | ⟨-, hl⟩ | hx
    · cases hx
    · obtain ⟨c, hc, hv⟩ := List.all_eq_false.mp hl
      exact ⟨c, hc, by simpa using hv⟩
    · exact hx.elim

end Sys2Proof.Machine

/-! The small-argument reduction (spec/43_range_reduction.md R192 to R194): the integer k and what it leaves of the
operand. -/

namespace Sys2Proof.Machine

/-! ### The integer k (R103, R104, R193) -/

/-- The words that `rint_away` keeps are integers. -/
theorem exists_int_fval_of_large {w : F64} (h : 2 ^ 52 ≤ |fval w|) : ∃ n : ℤ, fval w = n := by
  have hbin : 52 ≤ binade w := by
    have hlt : (2 : ℚ) ^ (52 : ℤ) < 2 ^ (binade w + 1) := by
      refine lt_of_le_of_lt ?_ (abs_fval_lt_binade w)
      exact_mod_cast h
    have := (zpow_lt_zpow_iff_right₀ (one_lt_two (α := ℚ))).mp hlt
    omega
  obtain ⟨m, hm⟩ : ∃ m : ℕ, |fval w| = m := by
    refine ⟨significand w * 2 ^ (binade w - 52).toNat, ?_⟩
    rw [abs_fval_eq_significand, Nat.cast_mul, Nat.cast_pow, Nat.cast_ofNat, ← zpow_natCast,
      Int.toNat_of_nonneg (by omega)]
  rw [fval_eq_signed, hm]
  split
  · exact ⟨-m, by push_cast; rfl⟩
  · exact ⟨m, by push_cast; rfl⟩

/-- `rint_away` of a word that gives a finite one is an integer, with the word's sign. -/
theorem rintAway_spec {a : F64} (h : isFinite (rintAway a) = true) :
    (∃ n : ℤ, fval (rintAway a) = n) ∧ fsign (rintAway a) = fsign a ∧
      (|fval a| < 2 ^ 52 → |fval (rintAway a)| = (⌊|fval a| + 1 / 2⌋ : ℤ)) ∧
      (2 ^ 52 ≤ |fval a| → rintAway a = a) := by
  obtain ⟨hnan, hinf, hlarge⟩ := rintAway_special a
  have hfin : isFinite a = true := by
    rcases class_cases a with ⟨hn, -, -⟩ | ⟨-, hi, hf⟩ | ⟨-, -, hf⟩
    · rw [hnan hn] at h
      cases h
    · rwa [hinf (.inl hi)] at h
    · exact hf
  rcases lt_or_ge |fval a| (2 ^ 52) with hlt | hge
  · obtain ⟨-, hsign, habs⟩ := rintAway_small hfin hlt
    refine ⟨?_, hsign, fun _ => habs, fun hge => absurd hlt hge.not_gt⟩
    rw [fval_eq_signed, habs]
    split
    · exact ⟨-_, by push_cast; rfl⟩
    · exact ⟨_, rfl⟩
  · have hsame := hlarge hfin hge
    rw [hsame]
    exact ⟨exists_int_fval_of_large hge, rfl, fun hlt => absurd hlt hge.not_gt, fun _ => rfl⟩

/-- The rounding moves a word by at most one half. -/
theorem abs_rintAway_sub_le {a : F64} (h : isFinite (rintAway a) = true) :
    |fval (rintAway a) - fval a| ≤ 1 / 2 := by
  obtain ⟨-, hsign, hsmall, hlarge⟩ := rintAway_spec h
  rcases lt_or_ge |fval a| (2 ^ 52) with hlt | hge
  · have hlo := Int.floor_le (|fval a| + 1 / 2)
    have hhi := Int.lt_floor_add_one (|fval a| + 1 / 2)
    have habs := hsmall hlt
    have hmag : |(|fval (rintAway a)| - |fval a|)| ≤ 1 / 2 := by
      rw [habs, abs_le]
      constructor <;> linarith
    rw [fval_eq_signed (rintAway a), fval_eq_signed a, hsign]
    split
    · rwa [neg_sub_neg, abs_sub_comm]
    · exact hmag
  · rw [hlarge hge, sub_self, abs_zero]
    norm_num

/-- An integral word below `2^63` is its 64-bit integer. -/
theorem toInt_f64ToInt {w : F64} {n : ℤ} (hw : fval w = n) (hlt : |fval w| < 2 ^ 63) : (f64ToInt w).toInt = n := by
  have hscaled : scaledVal w = n * unitDen := by
    rw [fval_eq_div, div_eq_iff (by exact_mod_cast unitDen_pos.ne')] at hw
    exact_mod_cast hw
  have hn : |n| < 2 ^ 63 := by
    rw [hw] at hlt
    exact_mod_cast hlt
  rw [abs_lt] at hn
  rw [f64ToInt, hscaled, Int.mul_ediv_cancel _ (by exact_mod_cast unitDen_pos.ne'),
    BitVec.toInt_ofInt_eq_self (by norm_num) (by norm_num; omega) (by norm_num; omega)]

/-- R193's check on exact values. -/
theorem kdFits_iff (kd : F64) : kdFits kd = true ↔ isFinite kd = true ∧ |fval kd| < 2 ^ 63 := by
  have hmag : scaledMag kd < 1 <<< (63 + 1074) ↔ |fval kd| < 2 ^ 63 := by
    rw [abs_fval_eq_div, div_lt_iff₀ (by exact_mod_cast unitDen_pos), Nat.shiftLeft_eq, one_mul,
      pow_add 2 63 1074, ← unitDen_eq]
    norm_cast
  rw [kdFits, isNan_or_isInf, Bool.not_not, Bool.and_eq_true, decide_eq_true_iff, hmag]

section Command
variable {rd ra rc : Reg} {s : State} (hv : s.valid (.f ra) = true)
include hv

theorem rrSmall_completes (h : kdFits (smallKd (s.component (.f ra))) = true) :
    let x := s.component (.f ra)
    let r := smallResidual x (smallKd x)
    ∃ u, exec (.rrSmall rd ra rc) s = .next u ∧
      Completed s u [(.dh rd, r.hi), (.dl rd, r.lo), (.k rc, f64ToInt (smallKd x))] s.sr 0 := by
  rw [exec, execRrSmall, readF_of_valid hv]
  exact ⟨_, congrArg (finish0 s) (if_pos h), completed_writeD_writeK s rd rc _ _⟩

theorem rrSmall_faults (h : kdFits (smallKd (s.component (.f ra))) = false) :
    ∃ u, exec (.rrSmall rd ra rc) s = .next u ∧ Faulted s u .domain := by
  rw [exec, execRrSmall, readF_of_valid hv]
  exact ⟨_, congrArg (finish0 s) (if_neg (by rw [h]; decide)), faulted_raise s _⟩

end Command

/-- Settles O49: the fit is the check, and k is the integer that kd is. -/
theorem smallReductionRunsItsSequence : Obligations.SmallReductionRunsItsSequence := by
  refine ⟨fun rd ra rc s hv => ?_, by decide +kernel, by decide +kernel⟩
  intro x prod kd fits
  have hcheck : kdFits kd = true ↔ fits := kdFits_iff kd
  refine ⟨fun hfits => ?_, fun hout => rrSmall_faults hv (Bool.eq_false_iff.mpr (mt hcheck.mp hout))⟩
  obtain ⟨u, hu, hc⟩ := rrSmall_completes (rd := rd) (rc := rc) hv (hcheck.mpr hfits)
  obtain ⟨⟨n, hn⟩, hsign, hsmall, hlarge⟩ := rintAway_spec (a := prod) hfits.1
  refine ⟨u, f64ToInt kd, hu, hc, ?_, hsign, hsmall, hlarge⟩
  rw [toInt_f64ToInt hn hfits.2]
  exact hn.symm

/-! ### The reduced argument (R194) -/

/-- A product's rounding error, zero products included. -/
theorem fmul_error_le {a b : F64} (ha : isFinite a = true) (hb : isFinite b = true)
    (hlt : |fval a * fval b| < overflowBound) : isFinite (fmul a b) = true ∧
      |fval a * fval b - fval (fmul a b)| ≤ 2 ^ (-53 : ℤ) * |fval a * fval b| + 2 ^ (-1075 : ℤ) := by
  rw [fmul_eq_rnQ ha hb]
  by_cases hq : fval a * fval b = 0
  · have hz := isZero_zeroOf (fsign a ^^ fsign b)
    rw [hq, rnQ_zero, (fval_eq_zero_iff _).mpr hz, sub_zero, abs_zero]
    exact ⟨isFinite_of_isZero hz, by positivity⟩
  · have hfin := (isFinite_rnQ_iff (fsign a ^^ fsign b) hq).mpr hlt
    exact ⟨hfin, rnQ_error_le _ hq hfin⟩

/-- The ROM word N_OVER_PI, and how near it is to `128 / pi`. -/
theorem fval_nOverPi : fval nOverPi = 5734161139222659 / 2 ^ 47 := by decide +kernel

theorem nOverPi_near : |128 - (fval nOverPi : ℝ) * Real.pi| ≤ 1 / 2 ^ 48 * Real.pi := by
  have hlo := Real.pi_gt_d20
  have hhi := Real.pi_lt_d20
  rw [fval_nOverPi, abs_le]
  push_cast
  constructor <;> linarith

/-- Below `2^16` the integer kd is within one half and a little of the exact quotient by `pi / 128`. -/
theorem smallKd_near {x : F64} (hfin : isFinite x = true) (hx : |fval x| < 2 ^ 16) :
    isFinite (smallKd x) = true ∧ |fval (smallKd x)| < 2 ^ 63 ∧
      |fval (smallKd x) - fval x * fval nOverPi| ≤ 1 / 2 + 3 / 2 ^ 32 := by
  have hprod : |fval x * fval nOverPi| ≤ 2 ^ 22 := by
    rw [abs_mul, fval_nOverPi, abs_of_pos (by norm_num : (0 : ℚ) < 5734161139222659 / 2 ^ 47)]
    linarith
  have hover : (2 : ℚ) ^ 22 < overflowBound := lt_overflowBound <| by
    have : (2 : ℚ) ^ (22 : ℤ) ≤ 2 ^ (1023 : ℤ) := zpow_le_zpow_right₀ one_le_two (by norm_num)
    have hpos : (0 : ℚ) < 2 ^ (970 : ℤ) := by positivity
    exact (zpow_natCast (2 : ℚ) 22).symm.le.trans (this.trans (le_add_of_nonneg_right hpos.le))
  obtain ⟨hpfin, herr⟩ := fmul_error_le hfin (b := nOverPi) (by decide) (hprod.trans_lt hover)
  have htiny : (2 : ℚ) ^ (-1075 : ℤ) ≤ 2 ^ (-33 : ℤ) := zpow_le_zpow_right₀ one_le_two (by norm_num)
  generalize (2 : ℚ) ^ (-1075 : ℤ) = ε at herr htiny
  have h53 : (2 : ℚ) ^ (-53 : ℤ) = 1 / 2 ^ 53 := by norm_num
  have h33 : (2 : ℚ) ^ (-33 : ℤ) = 1 / 2 ^ 33 := by norm_num
  rw [h53] at herr
  rw [h33] at htiny
  have herr' : |fval x * fval nOverPi - fval (fmul x nOverPi)| ≤ 3 / 2 ^ 32 := by linarith
  have hsmall : |fval (fmul x nOverPi)| < 2 ^ 52 := by
    have := abs_sub_abs_le_abs_sub (fval (fmul x nOverPi)) (fval x * fval nOverPi)
    rw [abs_sub_comm] at this
    linarith
  have hkd : isFinite (smallKd x) = true := (rintAway_small hpfin hsmall).1
  have hround := abs_rintAway_sub_le hkd
  have hnear : |fval (smallKd x) - fval x * fval nOverPi| ≤ 1 / 2 + 3 / 2 ^ 32 :=
    calc |fval (smallKd x) - fval x * fval nOverPi|
        ≤ |fval (smallKd x) - fval (fmul x nOverPi)| + |fval (fmul x nOverPi) - fval x * fval nOverPi| :=
          abs_sub_le _ _ _
      _ ≤ 1 / 2 + 3 / 2 ^ 32 := add_le_add hround (by rwa [abs_sub_comm])
  have habs := abs_sub_abs_le_abs_sub (fval (smallKd x)) (fval x * fval nOverPi)
  exact ⟨hkd, by linarith, hnear⟩

/-- From the rounded quotient `k` of the approximate constant to the exact reduced argument. -/
theorem abs_reduced_le {x k c : ℝ} (hx : |x| ≤ 2 ^ 16) (hk : |k - x * c| ≤ 1 / 2 + 3 / 2 ^ 32)
    (hc : |128 - c * Real.pi| ≤ 1 / 2 ^ 48 * Real.pi) :
    |x - k * Real.pi / 128| ≤ Real.pi / 128 * (1 / 2 + 1 / 2 ^ 30) := by
  have hpi := Real.pi_pos
  have hsplit : x - k * Real.pi / 128 = (x * (128 - c * Real.pi) - (k - x * c) * Real.pi) / 128 := by ring
  have hfirst : |x * (128 - c * Real.pi)| ≤ 2 ^ 16 * (1 / 2 ^ 48 * Real.pi) := by
    rw [abs_mul]
    gcongr
  have hsecond : |(k - x * c) * Real.pi| ≤ (1 / 2 + 3 / 2 ^ 32) * Real.pi := by
    rw [abs_mul, abs_of_pos hpi]
    gcongr
  rw [hsplit, abs_div, abs_of_pos (by norm_num : (0 : ℝ) < 128)]
  have htri := abs_sub (x * (128 - c * Real.pi)) ((k - x * c) * Real.pi)
  rw [div_le_iff₀ (by norm_num)]
  linarith

/-- Settles O50: the errors of the constant, of the product and of the rounding, over `pi / 128`. -/
theorem smallReductionLeavesAShortResidual : Obligations.SmallReductionLeavesAShortResidual := by
  intro rd ra rc s hv x hfin hx
  obtain ⟨hkd, hfits, hnear⟩ := smallKd_near hfin hx
  obtain ⟨⟨n, hn⟩, -⟩ := rintAway_spec hkd
  have hk : (f64ToInt (smallKd x)).toInt = n := toInt_f64ToInt hn hfits
  obtain ⟨u, hu, hc⟩ := rrSmall_completes (rd := rd) (rc := rc) hv ((kdFits_iff _).mpr ⟨hkd, hfits⟩)
  refine ⟨u, _, _, _, hu, hc, ?_, fun bound hbound => hbound x hfin hx⟩
  have hcast : ((n : ℤ) : ℝ) = (fval (smallKd x) : ℝ) := by
    rw [smallKd, hn, Rat.cast_intCast]
  change |(fval x : ℝ) - ((f64ToInt (smallKd x)).toInt : ℝ) * Real.pi / 128| ≤ _
  rw [hk, hcast]
  refine abs_reduced_le ?_ ?_ nOverPi_near
  · exact_mod_cast hx.le
  · have h := (Rat.cast_le (K := ℝ)).mpr hnear
    push_cast at h
    exact h

end Sys2Proof.Machine

/-! The acceptance guarantee (spec/44_escalation_mux.md R216): rounding is monotone, so what rounds alike at both
ends of an interval rounds alike inside it. -/

namespace Sys2Proof.Machine

/-! ### Rounding is monotone (R93) -/

theorem nearestEven_mono {x y : ℚ} (hx : 0 ≤ x) (hxy : x ≤ y) : nearestEven x ≤ nearestEven y := by
  rcases hxy.eq_or_lt with rfl | hlt
  · exact le_rfl
  · by_contra! hgt
    obtain ⟨-, hxa⟩ := abs_le.mp (nearestEven_spec hx).1
    obtain ⟨hxb, -⟩ := abs_le.mp (nearestEven_spec hx).1
    obtain ⟨-, hya⟩ := abs_le.mp (nearestEven_spec (hx.trans hxy)).1
    have hsucc : (nearestEven y : ℚ) + 1 ≤ nearestEven x := by exact_mod_cast hgt
    linarith

/-- The low 63 bits of the rounding of a positive number: the infinity's from the overflow threshold on. -/
def roundBits (y : ℚ) : ℕ := min (2047 <<< 52) ((gridOf y + 1022).toNat * 2 ^ 52 + nearestEven (inSteps y))

theorem roundOn_eq_packWord (s : Bool) (y : ℚ) : roundOn s y = packWord s (roundBits y) := by
  rw [roundOn, packRounded, roundBits, ← Nat.shiftLeft_eq]
  split
  · next h => rw [min_eq_left h, infOf]
  · next h => rw [min_eq_right (not_le.mp h).le]

theorem roundBits_lt (y : ℚ) : roundBits y < 2 ^ 63 := (min_le_left _ _).trans_lt (by decide)

theorem gridOf_mono {x y : ℚ} (hx : 0 < x) (hxy : x ≤ y) : gridOf x ≤ gridOf y :=
  max_le_max_right _ (Int.log_mono_right hx hxy)

/-- On one grid by the steps, on a coarser one past the whole of the finer binade. -/
theorem roundBits_mono {x y : ℚ} (hx : 0 < x) (hxy : x ≤ y) : roundBits x ≤ roundBits y := by
  have hy := hx.trans_le hxy
  have hlo := neg1022_le_gridOf x
  refine min_le_min_left _ ?_
  rcases (gridOf_mono hx hxy).eq_or_lt with hg | hg
  · have hsteps : inSteps x ≤ inSteps y := by
      rw [inSteps, inSteps, hg]
      gcongr
    rw [hg]
    exact Nat.add_le_add_left (nearestEven_mono (inSteps_pos hx).le hsteps) _
  · have htop := nearestEven_inSteps_le hx
    have hbot : 2 ^ 52 ≤ nearestEven (inSteps y) := (le_nearestEven_inSteps hy).resolve_right (by omega)
    have hstep : (gridOf x + 1022).toNat + 1 ≤ (gridOf y + 1022).toNat := by omega
    omega

/-- The rounding of a number as a signed integer: the word's low 63 bits with the number's sign. -/
def roundKey (q : ℚ) : ℤ := if q < 0 then -roundBits (-q) else if q = 0 then 0 else roundBits q

theorem roundKey_of_pos {q : ℚ} (h : 0 < q) : roundKey q = roundBits q := by
  rw [roundKey, if_neg h.not_gt, if_neg h.ne']

theorem roundKey_of_neg {q : ℚ} (h : q < 0) : roundKey q = -roundBits (-q) := if_pos h

@[simp] theorem roundKey_zero : roundKey 0 = 0 := by simp [roundKey]

theorem roundKey_mono : Monotone roundKey := by
  intro x y hxy
  rcases lt_trichotomy x 0 with hx | rfl | hx
  · rw [roundKey_of_neg hx]
    rcases lt_trichotomy y 0 with hy | rfl | hy
    · rw [roundKey_of_neg hy]
      have := roundBits_mono (neg_pos.mpr hy) (neg_le_neg hxy)
      omega
    · simp
    · rw [roundKey_of_pos hy]
      omega
  · rcases hxy.eq_or_lt with rfl | hy
    · exact le_rfl
    · rw [roundKey_of_pos hy, roundKey_zero]
      omega
  · have hy := hx.trans_le hxy
    rw [roundKey_of_pos hx, roundKey_of_pos hy]
    exact_mod_cast roundBits_mono hx hxy

/-- The rounded word by the key: its bits, and its sign where it is not a zero. -/
theorem rnQ_eq_packWord (q : ℚ) (s : Bool) : ∃ σ, rnQ q s = packWord σ (roundKey q).natAbs ∧
    (roundKey q).natAbs < 2 ^ 63 ∧ (roundKey q < 0 → σ = true) ∧ (0 < roundKey q → σ = false) := by
  rcases lt_trichotomy q 0 with hq | rfl | hq
  · have h := rnQ_signed true s (neg_pos.mpr hq)
    have hlt := roundBits_lt (-q)
    rw [if_pos rfl, neg_neg, roundOn_eq_packWord] at h
    rw [h, roundKey_of_neg hq, Int.natAbs_neg, Int.natAbs_natCast]
    exact ⟨true, rfl, hlt, fun _ => rfl, fun h => by omega⟩
  · rw [roundKey_zero]
    exact ⟨s, rfl, by norm_num, fun h => absurd h (lt_irrefl _), fun h => absurd h (lt_irrefl _)⟩
  · have h := rnQ_signed false s hq
    have hlt := roundBits_lt q
    rw [if_neg Bool.false_ne_true, roundOn_eq_packWord] at h
    rw [h, roundKey_of_pos hq, Int.natAbs_natCast]
    exact ⟨false, rfl, hlt, fun h => by omega, fun _ => rfl⟩

theorem isNan_rnQ (q : ℚ) (s : Bool) : isNan (rnQ q s) = false := isNan_rn64 q.num s q.den_pos

theorem isZero_packWord {s : Bool} {b : ℕ} (hb : b < 2 ^ 63) : isZero (packWord s b) = true ↔ b = 0 := by
  rw [isZero, fexp_packWord s b hb, ffrac_packWord s b hb, Bool.and_eq_true, beq_iff_eq, beq_iff_eq]
  omega

theorem packWord_inj {s t : Bool} {b c : ℕ} (hb : b < 2 ^ 63) (hc : c < 2 ^ 63) :
    packWord s b = packWord t c ↔ s = t ∧ b = c := by
  refine ⟨fun h => ⟨?_, ?_⟩, fun ⟨hs, hbc⟩ => by rw [hs, hbc]⟩
  · simpa using congrArg fsign h
  · have hexp := congrArg fexp h
    have hfrac := congrArg ffrac h
    rw [fexp_packWord s b hb, fexp_packWord t c hc] at hexp
    rw [ffrac_packWord s b hb, ffrac_packWord t c hc] at hfrac
    omega

/-- Rounded words are IEEE-equal exactly when their keys are equal. -/
theorem feq_rnQ_iff (a b : ℚ) (sa sb : Bool) : feq (rnQ a sa) (rnQ b sb) = true ↔ roundKey a = roundKey b := by
  rw [feq_iff (isNan_rnQ a sa) (isNan_rnQ b sb)]
  obtain ⟨σ, ha, hlta, hnega, hposa⟩ := rnQ_eq_packWord a sa
  obtain ⟨τ, hb, hltb, hnegb, hposb⟩ := rnQ_eq_packWord b sb
  rw [ha, hb, isZero_packWord hlta, isZero_packWord hltb, packWord_inj hlta hltb]
  generalize roundKey a = m at *
  generalize roundKey b = n at *
  constructor
  · rintro (⟨hm, hn⟩ | ⟨rfl, habs⟩)
    · omega
    · rcases Int.natAbs_eq_natAbs_iff.mp habs with h | h
      · exact h
      · rcases lt_trichotomy m 0 with hm | hm | hm
        · have := (hnega hm).symm.trans (hposb (by omega))
          cases this
        · omega
        · have := (hposa hm).symm.trans (hnegb (by omega))
          cases this
  · rintro rfl
    rcases lt_trichotomy m 0 with hm | rfl | hm
    · exact .inr ⟨by rw [hnega hm, hnegb hm], rfl⟩
    · exact .inl ⟨rfl, rfl⟩
    · exact .inr ⟨by rw [hposa hm, hposb hm], rfl⟩

/-- A value between two that round alike rounds with them. -/
theorem feq_rnQ_of_between {a v b : ℚ} (sa sv sb : Bool) (hav : a ≤ v) (hvb : v ≤ b)
    (h : feq (rnQ b sb) (rnQ a sa) = true) : feq (rnQ b sb) (rnQ v sv) = true := by
  rw [feq_rnQ_iff] at h ⊢
  exact le_antisymm (h ▸ roundKey_mono hav) (roundKey_mono hvb)

/-! ### The obligation (R216) -/

/-- Settles O58: the test's two words are the roundings of the ends of an interval that holds the true value. -/
theorem acceptedResultIsCorrectlyRounded : Obligations.AcceptedResultIsCorrectlyRounded := by
  intro rd ra rb s u v hp hh hl hb hi lo err hhi hlo herr herr0 hsumfin hsum hdifffin hdiff hv hexec hacc hacc0
  obtain ⟨haccept, hreject⟩ := testAcceptsOrEscalates.1 rd ra rb s hp hh hl hb
  cases htest : feq (fadd hi (fadd lo err)) (fadd hi (fsub lo err))
  · obtain ⟨u', hu', hc⟩ := hreject htest
    cases hu'.symm.trans hexec
    rw [hc.status] at hacc
    exact absurd hacc (by simp [hacc0])
  · obtain ⟨u', hu', hc⟩ := haccept htest
    cases hu'.symm.trans hexec
    have hword : u.component (.f rd) = fadd hi (fadd lo err) := (hc.written _ (List.mem_singleton_self _)).1
    obtain ⟨hlow, hhigh⟩ := abs_le.mp hv
    rw [hword]
    rw [fadd_eq_rnQ hhi hsumfin, fadd_eq_rnQ hhi hdifffin, hsum, hdiff] at *
    exact feq_rnQ_of_between _ _ _ (by linarith) (by linarith) htest

end Sys2Proof.Machine
